-- ==== Sys2Proof/Word.lean ====
section
/-! DEFINITION. The word types of the block (R7, R9, R69): unsigned bit vectors. A host register's byte offset
and its index are numbers (`Nat`), since the size of the register window is a parameter (R8). -/

namespace Sys2Proof

/-- A byte of the input stream or of the canvas. -/
abbrev Byte := BitVec 8

/-- A host register's 32 bits (R54). -/
abbrev Word := BitVec 32

/-- An LZW code, zero-extended to 12 bits (R75). It is also the index of a dictionary entry (R26). -/
abbrev Code := BitVec 12

end Sys2Proof
end

