-- ==== Sys2Proof/Config.lean ====
section
/-! DEFINITION. The block's fixed sizes (R7), the parameters a model takes as arguments (R8), and the values the
spec leaves open as draws. -/

namespace Sys2Proof.Config

/-- `DICT_SIZE`: entries of the dictionary (R7). -/
abbrev dictSize : Nat := 4096

/-- The bytes of the register window that the map of R31 takes up: its last register is PAL[255] at 0x7FC. -/
abbrev mapBytes : Nat := 0x800

/-- The parameters of a part that are numbers (R8). They are an argument of the model: a field of the state
that no step changes, so that what is stated of every state holds for every value of them (log entry 10). -/
structure Params where
  /-- `P_SYMBOL_BITS`: the width of the symbol an entry carries -/
  symbolBits : Nat
  /-- `P_MAX_ROWS`: the capacity of the row-order table -/
  maxRows : Nat
  /-- `P_ADDR_BITS`: the width of a canvas byte address -/
  addrBits : Nat
  /-- the register window: its size in bytes (R8, its last row). It holds the map of R31, so a value below
  `mapBytes` stands for `mapBytes` (`portOffset`; log entry 10) -/
  windowBytes : Nat
  deriving DecidableEq, Repr

/-- "This hardware" (R8, the third column of its table). -/
def thisHardware : Params :=
  { symbolBits := 8, maxRows := 65535, addrBits := 32, windowBytes := 4096 }

/-- `P_CANVAS_INIT`: the content of canvas bytes the block never writes, "any value, a draw" (R8, R117).
A free value: nothing is known of it. -/
opaque canvasInit : Nat → BitVec 8

/-- The content of row-order entries that no rule has written, "unspecified" (R28, R53), "any value"
(93_implementation_defined.md). A free value: nothing is known of it (log entry 3). -/
opaque rowmapInit : Nat → BitVec 16

end Sys2Proof.Config

namespace Sys2Proof

/-- The symbol an entry's `value` and `firstchar` carry (R26). A code has 12 bits, and so has the widest symbol
a root can carry; only the low `P_SYMBOL_BITS` bits of a symbol are ever set (R96, `State.SymbolsFit`). -/
abbrev Symbol := BitVec 12

end Sys2Proof
end

