-- ==== Sys2Proof/Syntax.lean ====
section
/-! DEFINITION. What the block decodes and acts on (R13): the events of its two ports, the carriers of the
six formats (R69), and the instructions, one constructor per row of the opcode table. -/

namespace Sys2Proof

/-- The block's sequencing state (R16). The encoding 7 is never held, so it has no name. -/
inductive Seq where
  | idle | len | data | skipLen | skipData | done | error
  deriving DecidableEq, Repr

/-- The host-visible registers (R31). -/
inductive Reg where
  | id | ctrl | cmd | status | errcode | errinfo
  | rootCodeSize | imgLeft | imgTop | imgWidth | imgHeight | imgCfg
  | screenWidth | screenHeight | canvasBase | canvasCfg | palCfg
  | cursor | bytesIn | lzwState | lzwPend | lzwOld | frame
  | pal (i : BitVec 8)
  deriving DecidableEq, Repr

/-- What the host does at the block's ports: register accesses (R54), at the byte offset the host gives, and the
two events of the byte port (R55). -/
inductive PortEvent where
  | read (offset : Nat)
  | write (offset : Nat) (data : Word)
  | byte (b : Byte)
  | fail
  deriving DecidableEq, Repr

/-- What the host offers the block: an event of a port, or the reset input (R142). -/
inductive HostEvent where
  | port (e : PortEvent)
  | reset
  deriving DecidableEq, Repr

/-- What an instruction is carried by (R69): a port event, or `width` bits of the stream. -/
inductive Carrier where
  | event (e : PortEvent)
  | code (c : Code)
  deriving DecidableEq, Repr

/-- The commands of a write to CMD (R70). -/
inductive Command where
  | nop | startImage | startSkip | reset
  | reserved (cmd : BitVec 4)
  deriving DecidableEq, Repr

/-- The classes of a code (R76). -/
inductive CodeClass where
  | eoi | clear | first | badFirst | known | pending | beyond
  deriving DecidableEq, Repr

/-- The instructions (R13, R81). A register access carries the index of its register, the byte offset divided
by 4 (R71). -/
inductive Instr where
  | cmdNop
  | cmdStartImage
  | cmdStartSkip
  | cmdReset
  | cmdReserved (cmd : BitVec 4)
  | hostRd (off : Nat)
  | hostWr (off : Nat) (data : Word)
  | sbTerm
  | sbLen (n : Byte)
  | sbData (b : Byte)
  | sbSkipTerm
  | sbSkipLen (n : Byte)
  | sbSkipData (b : Byte)
  | inFail
  | lzwEoi (c : Code)
  | lzwClear (c : Code)
  | lzwFirst (c : Code)
  | lzwBadFirst (c : Code)
  | lzwKnown (c : Code)
  | lzwPending (c : Code)
  | lzwBeyond (c : Code)
  deriving DecidableEq, Repr

end Sys2Proof
end

