-- ==== Sys2Proof/WellFormed.lean ====
section
/-! DEFINITION. The checks on an instruction's own fields (R70, R71, R72). What a row asks of the block's
state, and of the size of the register window, is the decoder's (`Instr.selectedIn`, `Instr.onPort`). -/

namespace Sys2Proof

/-- A reserved command has a number in [4,15] (R70), a sub-block length is not 0 (R72), and a write to
offset 0x008 is a command, not a HOST.WR (R71). -/
def Instr.wellFormed : Instr → Bool
  | .cmdReserved cmd => decide (4 ≤ cmd.toNat)
  | .hostWr off _ => decide (off ≠ 2)
  | .sbLen n => decide (n ≠ 0)
  | .sbSkipLen n => decide (n ≠ 0)
  | .cmdNop => true
  | .cmdStartImage => true
  | .cmdStartSkip => true
  | .cmdReset => true
  | .hostRd _ => true
  | .sbTerm => true
  | .sbData _ => true
  | .sbSkipTerm => true
  | .sbSkipData _ => true
  | .inFail => true
  | .lzwEoi _ => true
  | .lzwClear _ => true
  | .lzwFirst _ => true
  | .lzwBadFirst _ => true
  | .lzwKnown _ => true
  | .lzwPending _ => true
  | .lzwBeyond _ => true

end Sys2Proof
end

