-- ==== Sys2Proof/Decode.lean ====
section
/-! DEFINITION. The decoder: which register an offset reaches (R31), which command a number names (R70),
which class a code has (R76), which instruction a carrier brings in a given state (R69 to R74), and the
encoder beside it. -/

namespace Sys2Proof

/-- What decoding reads of the block's state (R16, R77) and of the part (R8: the size of the register window). -/
structure DecodeCtx where
  seq : Seq
  root : BitVec 4
  ctUsed : BitVec 13
  oldValid : Bool
  windowBytes : Nat
  deriving DecidableEq, Repr

/-- Why a carrier brings no instruction. -/
inductive DecodeReject where
  /-- An input byte while `in_ready = 0`: it is not accepted and stays with the host (R55, R78). -/
  | notReady
  deriving DecidableEq, Repr

/-- The register at an index, byte offset `4 * off` (R31); none at a reserved offset. -/
def Reg.ofIndex (off : Nat) : Option Reg :=
  match off with
  | 0 => some .id
  | 1 => some .ctrl
  | 2 => some .cmd
  | 3 => some .status
  | 4 => some .errcode
  | 5 => some .errinfo
  | 6 => some .rootCodeSize
  | 7 => some .imgLeft
  | 8 => some .imgTop
  | 9 => some .imgWidth
  | 10 => some .imgHeight
  | 11 => some .imgCfg
  | 12 => some .screenWidth
  | 13 => some .screenHeight
  | 14 => some .canvasBase
  | 15 => some .canvasCfg
  | 16 => some .palCfg
  | 17 => some .cursor
  | 18 => some .bytesIn
  | 19 => some .lzwState
  | 20 => some .lzwPend
  | 21 => some .lzwOld
  | 22 => some .frame
  | n => if 256 ≤ n ∧ n < 512 then some (.pal (BitVec.ofNat 8 (n - 256))) else none

/-- The index of a register, its byte offset in R31 divided by 4. -/
def Reg.index : Reg → Nat
  | .id => 0
  | .ctrl => 1
  | .cmd => 2
  | .status => 3
  | .errcode => 4
  | .errinfo => 5
  | .rootCodeSize => 6
  | .imgLeft => 7
  | .imgTop => 8
  | .imgWidth => 9
  | .imgHeight => 10
  | .imgCfg => 11
  | .screenWidth => 12
  | .screenHeight => 13
  | .canvasBase => 14
  | .canvasCfg => 15
  | .palCfg => 16
  | .cursor => 17
  | .bytesIn => 18
  | .lzwState => 19
  | .lzwPend => 20
  | .lzwOld => 21
  | .frame => 22
  | .pal i => 256 + i.toNat

/-- The offset an access has in a register window of a size: what lies above the window is not part of the port
(R54: in the window of 4096 bytes, the bits above bit 11). The window holds the map of R31. -/
def portOffset (windowBytes : Nat) (o : Nat) : Nat :=
  o % max Config.mapBytes windowBytes

/-- The index of the register an access reaches: in the window of 4096 bytes, offset bits [11:2]; bits [1:0]
are ignored (R54, R71). -/
def regIndexOf (windowBytes : Nat) (o : Nat) : Nat :=
  portOffset windowBytes o / 4

/-- The byte offset of a register index (R71). -/
def offsetOf (off : Nat) : Nat :=
  4 * off

/-- The command a number names (R70). -/
def Command.ofBits (cmd : BitVec 4) : Command :=
  match cmd.toNat with
  | 0 => .nop
  | 1 => .startImage
  | 2 => .startSkip
  | 3 => .reset
  | _ => .reserved cmd

/-- Field `cmd` of the word written to CMD: data[3:0], data[31:4] ignored (R70). -/
def cmdField (d : Word) : BitVec 4 :=
  d.extractLsb' 0 4

/-- `clear_code = 2^root` (R21). -/
def clearCodeOf (root : BitVec 4) : Nat :=
  2 ^ root.toNat

/-- `eoi_code = clear_code + 1` (R21). -/
def eoiCodeOf (root : BitVec 4) : Nat :=
  clearCodeOf root + 1

/-- The class of a code: the first row of R76 whose condition holds. -/
def classify (x : DecodeCtx) (c : Code) : CodeClass :=
  if c.toNat = eoiCodeOf x.root then .eoi
  else if c.toNat = clearCodeOf x.root then .clear
  else if x.oldValid = false then
    if c.toNat < x.ctUsed.toNat then .first else .badFirst
  else if c.toNat < x.ctUsed.toNat then .known
  else if c.toNat = x.ctUsed.toNat then .pending
  else .beyond

/-- The instruction of a command (R70). -/
def decodeCmd (cmd : BitVec 4) : Instr :=
  match Command.ofBits cmd with
  | .nop => .cmdNop
  | .startImage => .cmdStartImage
  | .startSkip => .cmdStartSkip
  | .reset => .cmdReset
  | .reserved k => .cmdReserved k

/-- The instruction of a code (R76, R98). -/
def decodeCode (x : DecodeCtx) (c : Code) : Instr :=
  match classify x c with
  | .eoi => .lzwEoi c
  | .clear => .lzwClear c
  | .first => .lzwFirst c
  | .badFirst => .lzwBadFirst c
  | .known => .lzwKnown c
  | .pending => .lzwPending c
  | .beyond => .lzwBeyond c

/-- The token an input byte is, which the sequencing state selects (R72, R73). -/
def decodeByte (x : DecodeCtx) (b : Byte) : Except DecodeReject Instr :=
  match x.seq with
  | .len => .ok (if b = 0 then .sbTerm else .sbLen b)
  | .data => .ok (.sbData b)
  | .skipLen => .ok (if b = 0 then .sbSkipTerm else .sbSkipLen b)
  | .skipData => .ok (.sbSkipData b)
  | .idle => .error .notReady
  | .done => .error .notReady
  | .error => .error .notReady

/-- The instruction of a port event (R70 to R74). -/
def decodeEvent (x : DecodeCtx) : PortEvent → Except DecodeReject Instr
  | .read o => .ok (.hostRd (regIndexOf x.windowBytes o))
  | .write o d =>
    .ok (if regIndexOf x.windowBytes o = 2 then decodeCmd (cmdField d)
      else .hostWr (regIndexOf x.windowBytes o) d)
  | .byte b => decodeByte x b
  | .fail => .ok .inFail

/-- The instruction a carrier brings (R69). -/
def decode (x : DecodeCtx) : Carrier → Except DecodeReject Instr
  | .event e => decodeEvent x e
  | .code c => .ok (decodeCode x c)

/-- The write that carries a command: offset 0x008, the number in data[3:0] (R70). -/
def encodeCmd (cmd : BitVec 4) : Carrier :=
  .event (.write 0x008 (cmd.setWidth 32))

/-- The carrier of an instruction; ignored bits are 0 (R70 to R76). -/
def encode : Instr → Carrier
  | .cmdNop => encodeCmd 0
  | .cmdStartImage => encodeCmd 1
  | .cmdStartSkip => encodeCmd 2
  | .cmdReset => encodeCmd 3
  | .cmdReserved cmd => encodeCmd cmd
  | .hostRd off => .event (.read (offsetOf off))
  | .hostWr off d => .event (.write (offsetOf off) d)
  | .sbTerm => .event (.byte 0)
  | .sbLen n => .event (.byte n)
  | .sbData b => .event (.byte b)
  | .sbSkipTerm => .event (.byte 0)
  | .sbSkipLen n => .event (.byte n)
  | .sbSkipData b => .event (.byte b)
  | .inFail => .event .fail
  | .lzwEoi c => .code c
  | .lzwClear c => .code c
  | .lzwFirst c => .code c
  | .lzwBadFirst c => .code c
  | .lzwKnown c => .code c
  | .lzwPending c => .code c
  | .lzwBeyond c => .code c

/-- A port event with the bits its format ignores cleared: the offset's part above the window and its bits [1:0]
(R54: `o & 0xFFC` in the window of 4096 bytes), and data bits [31:4] of a write to CMD (R70). -/
def PortEvent.cleared (windowBytes : Nat) : PortEvent → PortEvent
  | .read o => .read (portOffset windowBytes o / 4 * 4)
  | .write o d => .write (portOffset windowBytes o / 4 * 4)
    (if portOffset windowBytes o / 4 = 2 then d &&& 0xF#32 else d)
  | .byte b => .byte b
  | .fail => .fail

/-- A carrier with the bits its format ignores cleared. -/
def Carrier.cleared (windowBytes : Nat) : Carrier → Carrier
  | .event e => .event (e.cleared windowBytes)
  | .code c => .code c

/-- What a row asks of the block's state: the state that selects an input token (R72, R73), the class of
a code (R76). Commands, register accesses and the failure event are taken in every state. -/
def Instr.selectedIn (x : DecodeCtx) : Instr → Bool
  | .sbTerm => decide (x.seq = .len)
  | .sbLen _ => decide (x.seq = .len)
  | .sbData _ => decide (x.seq = .data)
  | .sbSkipTerm => decide (x.seq = .skipLen)
  | .sbSkipLen _ => decide (x.seq = .skipLen)
  | .sbSkipData _ => decide (x.seq = .skipData)
  | .lzwEoi c => decide (classify x c = .eoi)
  | .lzwClear c => decide (classify x c = .clear)
  | .lzwFirst c => decide (classify x c = .first)
  | .lzwBadFirst c => decide (classify x c = .badFirst)
  | .lzwKnown c => decide (classify x c = .known)
  | .lzwPending c => decide (classify x c = .pending)
  | .lzwBeyond c => decide (classify x c = .beyond)
  | .cmdNop => true
  | .cmdStartImage => true
  | .cmdStartSkip => true
  | .cmdReset => true
  | .cmdReserved _ => true
  | .hostRd _ => true
  | .hostWr _ _ => true
  | .inFail => true

/-- A register index lies in the window of a size: the only ones an access can carry (R54, R71). -/
def Instr.onPort (windowBytes : Nat) : Instr → Bool
  | .hostRd off => decide (offsetOf off < max Config.mapBytes windowBytes)
  | .hostWr off _ => decide (offsetOf off < max Config.mapBytes windowBytes)
  | .cmdNop => true
  | .cmdStartImage => true
  | .cmdStartSkip => true
  | .cmdReset => true
  | .cmdReserved _ => true
  | .sbTerm => true
  | .sbLen _ => true
  | .sbData _ => true
  | .sbSkipTerm => true
  | .sbSkipLen _ => true
  | .sbSkipData _ => true
  | .inFail => true
  | .lzwEoi _ => true
  | .lzwClear _ => true
  | .lzwFirst _ => true
  | .lzwBadFirst _ => true
  | .lzwKnown _ => true
  | .lzwPending _ => true
  | .lzwBeyond _ => true

/-- The port event a table word stands for, by the number of bits its row has: none for `FAIL`, one byte
for `LENB` and `DATB`, the 12 offset bits of a `REGA` read, the 32 data bits of `CMDW`, and (the model's
own layout, log entry 6) 16 bits of offset then 32 of data for a `REGA` write. -/
def eventOfTableWord (nbits w : Nat) : Option PortEvent :=
  match nbits with
  | 0 => some .fail
  | 8 => some (.byte (BitVec.ofNat 8 w))
  | 16 => some (.read (w % 2 ^ 12))
  | 32 => some (.write 0x008 (BitVec.ofNat 32 w))
  | 48 => some (.write (w % 2 ^ 12) (BitVec.ofNat 32 (w / 2 ^ 16)))
  | _ => none

/-- The state a table word is decoded in: LEN, the state in which a byte is the token of the first byte
rows (log entry 6), on this hardware (R8). -/
def tableCtx : DecodeCtx :=
  { seq := .len, root := 0, ctUsed := 0, oldValid := false
    windowBytes := Config.thisHardware.windowBytes }

/-- The instruction the decoder reads from a table word. -/
def decodeTableWord (nbits w : Nat) : Option Instr :=
  match eventOfTableWord nbits w with
  | none => none
  | some e =>
    match decodeEvent tableCtx e with
    | .ok i => some i
    | .error _ => none

end Sys2Proof
end

