-- ==== Sys2Proof/Machine/State.lean ====
section
/-! DEFINITION. The state of the block (10_state.md), as plain data, its value after hardware reset (R53), and
the reasons a step can stop. -/

namespace Sys2Proof.Machine

/-- An address space as a list of (address, content) pairs. Its canonical form lists addresses strictly
rising; an address not listed holds no value the model knows. The canvas is one of bytes
(`List Host.Cell`), the dictionary and the row-order table are the two others (R51). -/
abbrev Memory (α : Type) := List (Nat × α)

/-- The canonical form: addresses strictly rising. An unlisted address reads as no value, so no listed entry
can equal what an unlisted address reads as. -/
abbrev Memory.wf {α : Type} (m : Memory α) : Prop :=
  (m.map Prod.fst).Pairwise (· < ·)

/-- An entry of the dictionary (R26): it stands for `length + 1` symbols ending in `value` and starting with
`firstchar`. -/
structure DictEntry where
  parent : Code
  length : BitVec 16
  value : Symbol
  firstchar : Symbol
  deriving DecidableEq, Repr

/-- A palette entry (R27). -/
structure Rgba where
  r : Byte
  g : Byte
  b : Byte
  a : Byte
  deriving DecidableEq, Repr

/-- The error codes that are ever held (R128). -/
inductive ErrCode where
  | none | io | formatMinCodeSize | decode | resource | illegalCmd
  deriving DecidableEq, Repr

/-- The state of the block (10_state.md), the canvas it writes (R51), the part's parameters (R8), and the model's
own two fields for the host's side of the ports. -/
structure State where
  /-- the part's parameters (R8): an argument of the model, which no step changes (log entry 10) -/
  params : Config.Params
  /-- `state` (R16) -/
  seq : Seq
  /-- `frame_rem` (R18) -/
  frameRem : BitVec 8
  /-- `bytes_in` (R19) -/
  bytesIn : BitVec 32
  /-- `eoi_flag` (R20) -/
  eoiFlag : Bool
  /-- `old_valid` (R20) -/
  oldValid : Bool
  /-- `irq_pend` (R20) -/
  irqPend : Bool
  /-- `root` (R21) -/
  root : BitVec 4
  /-- `width` (R22) -/
  width : BitVec 4
  /-- `ct_used` (R23) -/
  ctUsed : BitVec 13
  /-- `old_code` (R24) -/
  oldCode : Code
  /-- `pend_val` (R25) -/
  pendVal : BitVec 12
  /-- `pend_cnt` (R25) -/
  pendCnt : BitVec 4
  /-- `dict` (R26): entries by index; an unlisted entry is unspecified -/
  dict : Memory DictEntry
  /-- `pal` (R27) -/
  pal : Vector Rgba 256
  /-- `rowmap` (R28): rows by index; an unlisted entry holds a free value -/
  rowmap : Memory (BitVec 16)
  /-- `cursor` (R29), unbounded -/
  cursor : Nat
  /-- `err_code` (R30) -/
  errCode : ErrCode
  /-- `err_info` (R30) -/
  errInfo : Word
  /-- CTRL.IRQ_EN (R33) -/
  irqEn : Bool
  /-- ROOT_CODE_SIZE.ROOT (R38) -/
  rootCodeSize : BitVec 8
  /-- IMG_LEFT (R39) -/
  imgLeft : BitVec 16
  /-- IMG_TOP (R39) -/
  imgTop : BitVec 16
  /-- IMG_WIDTH (R39) -/
  imgWidth : BitVec 16
  /-- IMG_HEIGHT (R39) -/
  imgHeight : BitVec 16
  /-- IMG_CFG.INTERLACE (R40) -/
  interlace : Bool
  /-- SCREEN_WIDTH (R41) -/
  screenWidth : BitVec 16
  /-- SCREEN_HEIGHT (R41) -/
  screenHeight : BitVec 16
  /-- CANVAS_BASE (R42) -/
  canvasBase : BitVec 32
  /-- CANVAS_CFG.FMT_RGBA (R42) -/
  fmtRgba : Bool
  /-- PAL_CFG.SIZE_LOG2M1 (R43) -/
  palSizeLog2m1 : BitVec 3
  /-- the canvas bytes the block has written (R51, R56); an unlisted byte holds `P_CANVAS_INIT` (R117) -/
  canvas : List Host.Cell
  /-- the model's own: the value the last register read returned to the host (R119) -/
  rdData : Word
  /-- the model's own: the host's events in the order of the interleaving of R63, oldest first -/
  env : List HostEvent
  deriving DecidableEq, Repr

/-- Why the model stops with a fault. No state that keeps `State.Inv` (Safety.lean) reaches one. -/
inductive Fault where
  /-- Raised by a read of a dictionary entry whose content the spec calls unspecified and never read: at
  `clear_code`, at `eoi_code`, at or above `ct_used`, or never written (R26; 93_implementation_defined.md:
  "a model that reads one has a bug and should `fault`"). Safe: the model stops where the spec gives no
  value. -/
  | undefinedDictEntry
  /-- Raised by a canvas write at an address of more than `P_ADDR_BITS` bits (R56: CMD START_IMAGE refuses a canvas
  that does not fit, so no rule issues one). Safe. -/
  | canvasOutOfRange
  deriving DecidableEq, Repr

/-- Why an instruction has no meaning. -/
inductive Refusal where
  /-- Raised by `exec` for an instruction without a meaning. Safe. -/
  | notModelled (mnemonic : String)
  /-- Raised by the meaning of a row that asks something of the block's state or of its own field (the
  opcode table's conditions, R70, R72, R73, R76) when that does not hold: the decoder never selects the
  instruction there and the spec gives it no effect. No step reaches it. Safe. -/
  | notSelected
  deriving DecidableEq, Repr

/-- A step's outcome. -/
abbrev Result := Host.Outcome State Fault Refusal

/-- After hardware reset of "this hardware" (R8, R53): every value the spec gives; the canvas and the row-order
table a draw at every address, so nothing listed, and the dictionary unspecified, so nothing listed (log
entries 1 to 3); no host event offered and nothing read yet (entries 4 and 5). -/
def State.reset : State where
  params := Config.thisHardware
  seq := .idle
  frameRem := 0
  bytesIn := 0
  eoiFlag := false
  oldValid := false
  irqPend := false
  root := 0
  width := 0
  ctUsed := 0
  oldCode := 0
  pendVal := 0
  pendCnt := 0
  dict := []
  pal := Vector.replicate 256 { r := 0, g := 0, b := 0, a := 255 }
  rowmap := []
  cursor := 0
  errCode := .none
  errInfo := 0
  irqEn := false
  rootCodeSize := 0
  imgLeft := 0
  imgTop := 0
  imgWidth := 0
  imgHeight := 0
  interlace := false
  screenWidth := 0
  screenHeight := 0
  canvasBase := 0
  fmtRgba := false
  palSizeLog2m1 := 0
  canvas := []
  rdData := 0
  env := []

end Sys2Proof.Machine
end

