-- ==== Sys2Proof/Machine/Ops.lean ====
section
/-! DEFINITION. The shared operations over memory, the ports and the state: reading and writing an address
space, taking the next host event, the fatal error (R130) and the ways out of it (R124, R142). -/

namespace Sys2Proof.Machine

/-- Continue after an operation that gives a next state; a fault or a refusal ends the step. -/
def andThen (r : Result) (k : State → Result) : Result :=
  match r with
  | .next s => k s
  | .fault f => .fault f
  | .refused x => .refused x

/-! ### Address spaces -/

/-- The content of an address; none where nothing is listed. -/
def Memory.read {α : Type} : Memory α → Nat → Option α
  | [], _ => none
  | (k, v) :: m, a => if a = k then some v else Memory.read m a

/-- Write one address, keeping the addresses rising. -/
def Memory.write {α : Type} : Memory α → Nat → α → Memory α
  | [], a, v => [(a, v)]
  | (k, w) :: m, a, v =>
    if a < k then (a, v) :: (k, w) :: m
    else if a = k then (a, v) :: m
    else (k, w) :: Memory.write m a v

/-- The contents of a list at rising addresses from `n`. -/
def Memory.numbered {α : Type} : Nat → List α → Memory α
  | _, [] => []
  | n, v :: vs => (n, v) :: Memory.numbered (n + 1) vs

/-- Write the addresses `0 .. vs.length - 1`; the addresses above keep what they hold. -/
def Memory.fill {α : Type} (m : Memory α) (vs : List α) : Memory α :=
  Memory.numbered 0 vs ++ m.filter (fun cell => decide (vs.length ≤ cell.1))

/-- A canvas byte as the host reads it (R60): what the block last wrote there, or `P_CANVAS_INIT` (R117). -/
def State.canvasByte (s : State) (a : Nat) : Byte :=
  (Memory.read s.canvas a).getD (Config.canvasInit a)

/-- The content of a row-order entry: what RowMapBuild last wrote there, or a free value (R28, R53). -/
def State.rowEntry (s : State) (i : Nat) : BitVec 16 :=
  (Memory.read s.rowmap i).getD (Config.rowmapInit i)

/-- `MemWrite(addr, 1, v)` on the canvas port (R10, R56). -/
def State.canvasWrite (s : State) (a : Nat) (v : Byte) : Result :=
  if a < 2 ^ s.params.addrBits then .next { s with canvas := Memory.write s.canvas a v }
  else .fault .canvasOutOfRange

/-- The content of a dictionary entry that the spec defines: below `ct_used`, not at `clear_code` or
`eoi_code` (R23, R26). -/
def State.entry (s : State) (e : Code) : Option DictEntry :=
  if e.toNat < s.ctUsed.toNat ∧ e.toNat ≠ clearCodeOf s.root ∧ e.toNat ≠ eoiCodeOf s.root then
    Memory.read s.dict e.toNat
  else none

/-! ### The ports -/

/-- What the decoder reads of the state and of the part (R8, R16, R77). -/
def State.ctx (s : State) : DecodeCtx :=
  { seq := s.seq, root := s.root, ctUsed := s.ctUsed, oldValid := s.oldValid
    windowBytes := s.params.windowBytes }

/-- A reading state (R16). -/
def Seq.reading : Seq → Bool
  | .len => true
  | .data => true
  | .skipLen => true
  | .skipData => true
  | .idle => false
  | .done => false
  | .error => false

/-- `in_ready`, and BUSY: the block is in a reading state (R31, R55). -/
def State.inReady (s : State) : Bool :=
  Seq.reading s.seq

/-- The next host event the block takes, with the events left. The events are taken in order; a byte offered
while `in_ready = 0` is not accepted and stays with the host, and so does what follows it on the byte port,
while the register port and the reset input go on (R55, R148; log entry 4). `held` says that a byte ahead
stays. -/
def pickEvent (ready held : Bool) : List HostEvent → Option (HostEvent × List HostEvent)
  | [] => none
  | .port (.byte b) :: rest =>
    if ready && !held then some (.port (.byte b), rest)
    else (pickEvent ready true rest).map fun x => (x.1, .port (.byte b) :: x.2)
  | .port .fail :: rest =>
    if held then (pickEvent ready held rest).map fun x => (x.1, .port .fail :: x.2)
    else some (.port .fail, rest)
  | .port (.read o) :: rest => some (.port (.read o), rest)
  | .port (.write o d) :: rest => some (.port (.write o d), rest)
  | .reset :: rest => some (.reset, rest)

/-- Take the next host event: the event, and the state without it. -/
def State.takeEvent (s : State) : Option (HostEvent × State) :=
  (pickEvent s.inReady false s.env).map fun x => (x.1, { s with env := x.2 })

/-- Offer a port event as the next one. A byte is a token only in a reading state, so the block is put in
LEN for it, the state of `tableCtx` (log entry 6). -/
def State.offer (s : State) (e : PortEvent) : State :=
  match e with
  | .byte b => { s with seq := .len, env := .port (.byte b) :: s.env }
  | .fail => { s with env := .port .fail :: s.env }
  | .read o => { s with env := .port (.read o) :: s.env }
  | .write o d => { s with env := .port (.write o d) :: s.env }

/-! ### The fatal error and the ways out of it -/

/-- `raise Error(code, info)` (R130). The rule that raises it ends with this state. -/
def State.raiseError (s : State) (code : ErrCode) (info : Word) : State :=
  { s with errCode := code, errInfo := info, frameRem := 0, seq := .error, irqPend := true }

/-- CMD RESET, the soft reset (R124). -/
def State.softReset (s : State) : State :=
  { s with
    seq := .idle
    frameRem := 0
    bytesIn := 0
    eoiFlag := false
    oldValid := false
    irqPend := false
    errCode := .none
    errInfo := 0
    root := 0
    width := 0
    ctUsed := 0
    oldCode := 0
    pendVal := 0
    pendCnt := 0
    cursor := 0 }

/-- Hardware reset (R142): the values of R53; the canvas memory is not written, the part and
the host's side stay. -/
def State.hardwareReset (s : State) : State :=
  { State.reset with
    params := s.params, canvas := s.canvas, rdData := s.rdData, env := s.env }

end Sys2Proof.Machine
end

