-- ==== Sys2Proof/Machine/Flags.lean ====
section
/-! DEFINITION. The flags, the status word and the outputs computed from them (R16, R20, R35, R135), and the
width scheduler's test (R92). -/

namespace Sys2Proof.Machine

/-- The encoding of `state` (R16). -/
def Seq.bits : Seq → BitVec 3
  | .idle => 0
  | .len => 1
  | .data => 2
  | .skipLen => 3
  | .skipData => 4
  | .done => 5
  | .error => 6

/-- The encoding of `err_code` (R128). -/
def ErrCode.bits : ErrCode → BitVec 4
  | .none => 0
  | .io => 1
  | .formatMinCodeSize => 2
  | .decode => 3
  | .resource => 4
  | .illegalCmd => 5

/-- STATUS (R35): STATE [2:0], BUSY [3], IRQ_PEND [4], EOI_SEEN [5], OLD_VALID [6]. -/
def State.statusWord (s : State) : Word :=
  0#25 ++ BitVec.ofBool s.oldValid ++ BitVec.ofBool s.eoiFlag ++ BitVec.ofBool s.irqPend
    ++ BitVec.ofBool s.inReady ++ Seq.bits s.seq

/-- The interrupt output (R135). -/
def State.irq (s : State) : Bool :=
  s.irqEn && s.irqPend

/-- A write to STATUS: bit 4 written 1 clears `irq_pend`, the other bits are read-only (R35). -/
def State.writeStatus (s : State) (d : Word) : State :=
  if d.getLsbD 4 then { s with irqPend := false } else s

/-- The occupancies at which the code width grows (R92). -/
def growsAt : List Nat :=
  [8, 16, 32, 64, 128, 256, 512, 1024, 2048]

/-- `GrowCheck()` (R92). -/
def State.growCheck (s : State) : State :=
  if growsAt.contains s.ctUsed.toNat then { s with width := s.width + 1 } else s

end Sys2Proof.Machine
end

