-- ==== Sys2Proof/Machine/Operands.lean ====
section
/-! DEFINITION. The operand forms: the bits of a byte (R57), the values the configuration registers stand for
(R42, R43, R56), and the fields of every host register, read and written (R32 to R50). -/

namespace Sys2Proof.Machine

/-- The bits of a payload byte in the order they are received, bit 0 first (R57). -/
def bitsOf (b : Byte) : List Bool :=
  (List.range 8).map fun i => b.getLsbD i

/-- `num_root` (R21). -/
def State.numRoot (s : State) : Nat :=
  2 ^ s.root.toNat

/-- `pal_size` (R43). -/
def State.palSize (s : State) : Nat :=
  2 ^ (s.palSizeLog2m1.toNat + 1)

/-- `bpp`, bytes per canvas pixel (R42). -/
def State.bpp (s : State) : Nat :=
  if s.fmtRgba then 4 else 3

/-- The byte address of the pixel at screen position `(x, y)`, computed without wrap (R56). -/
def State.pixelAddr (s : State) (x y : Nat) : Nat :=
  s.canvasBase.toNat + (y * s.screenWidth.toNat + x) * s.bpp

/-- The address after the last byte of the canvas (R122). -/
def State.canvasEnd (s : State) : Nat :=
  s.canvasBase.toNat + s.screenWidth.toNat * s.screenHeight.toNat * s.bpp

/-- Field `lo .. lo + n - 1` of a written word. -/
def field (d : Word) (lo n : Nat) : BitVec n :=
  d.extractLsb' lo n

/-- A palette entry from a written word (R50): R [7:0], G [15:8], B [23:16], A [31:24]. -/
def Rgba.ofWord (d : Word) : Rgba :=
  { r := field d 0 8, g := field d 8 8, b := field d 16 8, a := field d 24 8 }

/-- The word of a palette entry (R50). -/
def Rgba.toWord (p : Rgba) : Word :=
  p.a ++ p.b ++ p.g ++ p.r

/-- The palette entry of an index (R27). -/
def State.palEntry (s : State) (i : BitVec 8) : Rgba :=
  s.pal[i.toNat]'i.isLt

/-- The value a host read of a register returns, reserved bits 0 (R32 to R50). -/
def State.readReg (s : State) : Reg → Word
  | .id => 0x4C5A5701
  | .ctrl => (BitVec.ofBool s.irqEn).setWidth 32
  | .cmd => 0
  | .status => s.statusWord
  | .errcode => (ErrCode.bits s.errCode).setWidth 32
  | .errinfo => s.errInfo
  | .rootCodeSize => s.rootCodeSize.setWidth 32
  | .imgLeft => s.imgLeft.setWidth 32
  | .imgTop => s.imgTop.setWidth 32
  | .imgWidth => s.imgWidth.setWidth 32
  | .imgHeight => s.imgHeight.setWidth 32
  | .imgCfg => (BitVec.ofBool s.interlace).setWidth 32
  | .screenWidth => s.screenWidth.setWidth 32
  | .screenHeight => s.screenHeight.setWidth 32
  | .canvasBase => s.canvasBase
  | .canvasCfg => (BitVec.ofBool s.fmtRgba).setWidth 32
  | .palCfg => s.palSizeLog2m1.setWidth 32
  | .cursor => BitVec.ofNat 32 (min s.cursor 0xFFFFFFFF)
  | .bytesIn => s.bytesIn
  | .lzwState => 0#11 ++ s.ctUsed ++ s.root ++ s.width
  | .lzwPend => 0#12 ++ s.pendCnt ++ 0#4 ++ s.pendVal
  | .lzwOld => s.oldCode.setWidth 32
  | .frame => s.frameRem.setWidth 32
  | .pal i => Rgba.toWord (s.palEntry i)

/-- A host read at a register index: 0 at a reserved offset (R119). -/
def State.readAt (s : State) (off : Nat) : Word :=
  match Reg.ofIndex off with
  | some r => s.readReg r
  | none => 0

/-- The registers a host writes only when the block is not busy (R120). -/
def Reg.isConfig : Reg → Bool
  | .rootCodeSize => true
  | .imgLeft => true
  | .imgTop => true
  | .imgWidth => true
  | .imgHeight => true
  | .imgCfg => true
  | .screenWidth => true
  | .screenHeight => true
  | .canvasBase => true
  | .canvasCfg => true
  | .palCfg => true
  | .pal _ => true
  | .id => false
  | .ctrl => false
  | .cmd => false
  | .status => false
  | .errcode => false
  | .errinfo => false
  | .cursor => false
  | .bytesIn => false
  | .lzwState => false
  | .lzwPend => false
  | .lzwOld => false
  | .frame => false

/-- Store the bits a configuration register's rule names (R38 to R43, R50); the other registers hold
nothing a store could change. -/
def State.storeReg (s : State) (d : Word) : Reg → State
  | .rootCodeSize => { s with rootCodeSize := field d 0 8 }
  | .imgLeft => { s with imgLeft := field d 0 16 }
  | .imgTop => { s with imgTop := field d 0 16 }
  | .imgWidth => { s with imgWidth := field d 0 16 }
  | .imgHeight => { s with imgHeight := field d 0 16 }
  | .imgCfg => { s with interlace := d.getLsbD 0 }
  | .screenWidth => { s with screenWidth := field d 0 16 }
  | .screenHeight => { s with screenHeight := field d 0 16 }
  | .canvasBase => { s with canvasBase := d }
  | .canvasCfg => { s with fmtRgba := d.getLsbD 0 }
  | .palCfg => { s with palSizeLog2m1 := field d 0 3 }
  | .pal i => { s with pal := s.pal.set i.toNat (Rgba.ofWord d) i.isLt }
  | .id => s
  | .ctrl => s
  | .cmd => s
  | .status => s
  | .errcode => s
  | .errinfo => s
  | .cursor => s
  | .bytesIn => s
  | .lzwState => s
  | .lzwPend => s
  | .lzwOld => s
  | .frame => s

/-- A write to a configuration register or a palette entry: ignored while busy (R120). -/
def State.writeConfig (s : State) (r : Reg) (d : Word) : State :=
  if s.inReady then s else s.storeReg d r

end Sys2Proof.Machine
end

