-- ==== Sys2Proof/Machine/Raster.lean ====
section
/-! DEFINITION. The raster reconstructor (43_raster.md): the row-order table and the placement of a pixel. -/

namespace Sys2Proof.Machine

/-- One pass: the rows `start, start + step, ...` below `h` (R109). -/
def passRows (start step h : Nat) : List Nat :=
  (List.range ((h - start + (step - 1)) / step)).map fun i => start + step * i

/-- The physical rows in the order the pixel stream visits them (R109). -/
def rowOrder (interlace : Bool) (h : Nat) : List Nat :=
  if interlace then passRows 0 8 h ++ passRows 4 8 h ++ passRows 2 4 h ++ passRows 1 2 h
  else List.range h

/-- `RowMapBuild()` (R109). -/
def State.rowMapBuild (s : State) : State :=
  { s with
    rowmap := Memory.fill s.rowmap
      ((rowOrder s.interlace s.imgHeight.toNat).map (BitVec.ofNat 16)) }

/-- `WritePixel(x, y, p)` (R115): channels r, g, b and, in RGBA, a at rising addresses. -/
def State.writePixel (s : State) (x y : Nat) (p : Rgba) : Result :=
  let base := s.pixelAddr x y
  andThen (s.canvasWrite base p.r) fun s1 =>
  andThen (s1.canvasWrite (base + 1) p.g) fun s2 =>
  andThen (s2.canvasWrite (base + 2) p.b) fun s3 =>
  if s.fmtRgba then s3.canvasWrite (base + 3) p.a else .next s3

/-- `ColorWrite(x, y, v)` (R114): a symbol outside the active palette, which has at most 256
entries, writes nothing. -/
def State.colorWrite (s : State) (x y : Nat) (v : Symbol) : Result :=
  if s.palSize ≤ v.toNat then .next s else s.writePixel x y (s.palEntry (v.setWidth 8))

/-- `Clip(x, y, v)` (R113): a pixel outside the logical screen is dropped. -/
def State.clip (s : State) (x y : Nat) (v : Symbol) : Result :=
  if s.screenWidth.toNat ≤ x ∨ s.screenHeight.toNat ≤ y then .next s else s.colorWrite x y v

/-- `Map(k, v)` (R112): the sums do not wrap. -/
def State.mapPixel (s : State) (k : Nat) (v : Symbol) : Result :=
  s.clip (s.imgLeft.toNat + k % s.imgWidth.toNat)
    (s.imgTop.toNat + (s.rowEntry (k / s.imgWidth.toNat)).toNat) v

/-- `PixelOut(k, v)` (R111): a pixel at or beyond `W * H` is dropped. -/
def State.pixelOut (s : State) (k : Nat) (v : Symbol) : Result :=
  if s.imgWidth.toNat * s.imgHeight.toNat ≤ k then .next s else s.mapPixel k v

end Sys2Proof.Machine
end

