-- ==== Sys2Proof/Machine/Dictionary.lean ====
section
/-! DEFINITION. The dictionary engine's operations (42_lzw_dictionary.md): set-up, reset, insertion, emission. -/

namespace Sys2Proof.Machine

/-- `trunc_P_SYMBOL_BITS(i)` (R96). -/
def truncSymbol (bits i : Nat) : Symbol :=
  BitVec.ofNat 12 (i % 2 ^ bits)

/-- The root entry of a code (R96): no parent, length 0, value the code's low symbol bits. -/
def rootEntry (bits i : Nat) : DictEntry :=
  { parent := 0, length := 0, value := truncSymbol bits i, firstchar := truncSymbol bits i }

/-- `DictInit()` (R96). -/
def State.dictInit (s : State) : State :=
  { s with dict := Memory.fill s.dict ((List.range s.numRoot).map (rootEntry s.params.symbolBits)) }

/-- `DictReset()` (R97). -/
def State.dictReset (s : State) : State :=
  { s with ctUsed := BitVec.ofNat 13 (s.numRoot + 2), width := s.root + 1, oldValid := false }

/-- Put an entry at the next free index (R106). -/
def State.addEntry (s : State) (d : DictEntry) : State :=
  { s with dict := Memory.write s.dict s.ctUsed.toNat d, ctUsed := s.ctUsed + 1 }

/-- The entry "(parent = `p`, value = `v`)", one longer than its parent (R106). -/
def childEntry (p : Code) (parent : DictEntry) (v : Symbol) : DictEntry :=
  { parent := p, length := parent.length + 1, value := v, firstchar := parent.firstchar }

/-- `Insert(p, v)` (R106): nothing when the dictionary is full. -/
def State.insert (s : State) (p : Code) (v : Symbol) : Result :=
  if s.ctUsed.toNat < Config.dictSize then
    match s.entry p with
    | none => .fault .undefinedDictEntry
    | some d => .next (s.addEntry (childEntry p d v)).growCheck
  else .next s

/-- The loop of `Emit` (R107) from offset `off` at entry `x`, down to offset 0. -/
def State.emitFrom (x : Code) (off : Nat) (s : State) : Result :=
  match s.entry x with
  | none => .fault .undefinedDictEntry
  | some d =>
    andThen (s.pixelOut (s.cursor + off) d.value) fun s1 =>
    match off with
    | 0 => .next s1
    | off' + 1 => State.emitFrom d.parent off' s1

/-- `Emit(e)` (R107). -/
def State.emit (s : State) (e : Code) : Result :=
  match s.entry e with
  | none => .fault .undefinedDictEntry
  | some d =>
    andThen (s.emitFrom e d.length.toNat) fun s1 =>
    .next { s1 with cursor := s1.cursor + d.length.toNat + 1 }

end Sys2Proof.Machine
end

