-- ==== Sys2Proof/Machine/Lzw.lean ====
section
/-! DEFINITION. The meanings of the code classes (R99 to R105), `ProcessCode` (R98) and the bitstream aligner
(R90). -/

namespace Sys2Proof.Machine

/-- The class of a code in a state (R76). -/
def State.classOf (s : State) (c : Code) : CodeClass :=
  classify s.ctx c

/-- `ERRINFO` of a DECODE error: sub-cause [31:16], code [11:0] (R128). -/
def decodeInfo (cause : BitVec 16) (c : Code) : Word :=
  cause ++ 0#4 ++ c

/-- LZW.EOI (R99). -/
def execLzwEoi (c : Code) (s : State) : Result :=
  if s.classOf c = .eoi then .next { s with eoiFlag := true } else .refused .notSelected

/-- LZW.CLEAR (R100). -/
def execLzwClear (c : Code) (s : State) : Result :=
  if s.classOf c = .clear then .next s.dictReset else .refused .notSelected

/-- LZW.FIRST (R101). -/
def execLzwFirst (c : Code) (s : State) : Result :=
  if s.classOf c = .first then
    andThen (s.emit c) fun s1 => .next { s1 with oldCode := c, oldValid := true }
  else .refused .notSelected

/-- LZW.BAD_FIRST (R102). -/
def execLzwBadFirst (c : Code) (s : State) : Result :=
  if s.classOf c = .badFirst then .next (s.raiseError .decode (decodeInfo 1 c))
  else .refused .notSelected

/-- `Insert(p, dict[c].firstchar)` (R103, R104). -/
def State.insertFirstcharOf (s : State) (p c : Code) : Result :=
  match s.entry c with
  | none => .fault .undefinedDictEntry
  | some d => s.insert p d.firstchar

/-- LZW.KNOWN (R103). -/
def execLzwKnown (c : Code) (s : State) : Result :=
  if s.classOf c = .known then
    andThen (s.emit c) fun s1 =>
    andThen (s1.insertFirstcharOf s1.oldCode c) fun s2 =>
    .next { s2 with oldCode := c }
  else .refused .notSelected

/-- LZW.PENDING (R104). -/
def execLzwPending (c : Code) (s : State) : Result :=
  if s.classOf c = .pending then
    andThen (s.insertFirstcharOf s.oldCode s.oldCode) fun s1 =>
    andThen (s1.emit c) fun s2 =>
    .next { s2 with oldCode := c }
  else .refused .notSelected

/-- LZW.BEYOND (R105). -/
def execLzwBeyond (c : Code) (s : State) : Result :=
  if s.classOf c = .beyond then .next (s.raiseError .decode (decodeInfo 2 c))
  else .refused .notSelected

/-- `ProcessCode(c)` (R98): the rule of the code's class, exactly one. -/
def processCode (c : Code) (s : State) : Result :=
  match s.classOf c with
  | .eoi => execLzwEoi c s
  | .clear => execLzwClear c s
  | .first => execLzwFirst c s
  | .badFirst => execLzwBadFirst c s
  | .known => execLzwKnown c s
  | .pending => execLzwPending c s
  | .beyond => execLzwBeyond c s

/-- One stream bit joins the accumulator; a full accumulator is a code (R90). -/
def State.acceptBit (s : State) (b : Bool) : Result :=
  let v := s.pendVal + ((BitVec.ofBool b).setWidth 12 <<< s.pendCnt.toNat)
  let n := s.pendCnt + 1
  if n = s.width then processCode v { s with pendVal := 0, pendCnt := 0 }
  else .next { s with pendVal := v, pendCnt := n }

/-- The bits of a byte in turn; bits after EOI or after an error are discarded (R90). -/
def acceptBits : List Bool → State → Result
  | [], s => .next s
  | b :: bs, s =>
    if s.eoiFlag = true ∨ s.seq = .error then .next s
    else andThen (s.acceptBit b) (acceptBits bs)

/-- `BitstreamByte(b)` (R90). -/
def State.bitstreamByte (s : State) (b : Byte) : Result :=
  acceptBits (bitsOf b) s

end Sys2Proof.Machine
end

