-- ==== Sys2Proof/Machine/SubBlock.lean ====
section
/-! DEFINITION. The meanings of the input tokens (40_subblock_reader.md). -/

namespace Sys2Proof.Machine

/-- An input byte is accepted: `bytes_in` counts it (R19). -/
def State.countByte (s : State) : State :=
  { s with bytesIn := s.bytesIn + 1 }

/-- A payload byte is accepted (R85, R88). -/
def State.countPayload (s : State) : State :=
  { s.countByte with frameRem := s.frameRem - 1 }

/-- SB.TERM (R83). -/
def execSbTerm (s : State) : Result :=
  if s.seq = .len then .next { s.countByte with seq := .done, irqPend := true }
  else .refused .notSelected

/-- SB.LEN (R84). -/
def execSbLen (n : Byte) (s : State) : Result :=
  if s.seq = .len ∧ n ≠ 0 then .next { s.countByte with frameRem := n, seq := .data }
  else .refused .notSelected

/-- The end-of-sub-block test of SB.DATA (R85). -/
def State.endOfSubBlock (s : State) : State :=
  if s.frameRem = 0 then
    if s.eoiFlag then { s with seq := .done, irqPend := true } else { s with seq := .len }
  else s

/-- SB.DATA (R85). -/
def execSbData (b : Byte) (s : State) : Result :=
  if s.seq = .data then
    let s1 := s.countPayload
    if s1.eoiFlag then .next s1.endOfSubBlock
    else
      andThen (s1.bitstreamByte b) fun s2 =>
      if s2.seq = .error then .next s2 else .next s2.endOfSubBlock
  else .refused .notSelected

/-- SB.SKIPTERM (R86). -/
def execSbSkipTerm (s : State) : Result :=
  if s.seq = .skipLen then .next { s.countByte with seq := .idle, irqPend := true }
  else .refused .notSelected

/-- SB.SKIPLEN (R87). -/
def execSbSkipLen (n : Byte) (s : State) : Result :=
  if s.seq = .skipLen ∧ n ≠ 0 then .next { s.countByte with frameRem := n, seq := .skipData }
  else .refused .notSelected

/-- SB.SKIPDATA (R88): the payload byte is ignored. -/
def execSbSkipData (_b : Byte) (s : State) : Result :=
  if s.seq = .skipData then
    let s1 := s.countPayload
    if s1.frameRem = 0 then .next { s1 with seq := .skipLen } else .next s1
  else .refused .notSelected

/-- IN.FAIL (R89): an I/O error in a reading state, no effect in the others. -/
def execInFail (s : State) : Result :=
  if s.inReady then .next (s.raiseError .io s.bytesIn) else .next s

end Sys2Proof.Machine
end

