-- ==== Sys2Proof/Machine/Cmd.lean ====
section
/-! DEFINITION. The meanings of the commands (R121 to R125). -/

namespace Sys2Proof.Machine

/-- CMD.NOP (R121). -/
def execCmdNop (s : State) : Result :=
  .next s

/-- The set-up of a decode once its checks have passed (R122). -/
def State.startImage (s : State) : State :=
  let s1 := ({ s with root := s.rootCodeSize.setWidth 4 } : State).dictInit.dictReset
  let s2 : State :=
    { s1 with
      oldCode := 0
      pendVal := 0
      pendCnt := 0
      eoiFlag := false
      cursor := 0
      bytesIn := 0
      frameRem := 0 }
  { s2.rowMapBuild with seq := .len }

/-- CMD.START_IMAGE (R122): the checks in their order, the first that fails is the one reported (R132). -/
def execCmdStartImage (s : State) : Result :=
  if s.seq = .error then .next s
  else if s.inReady then .next (s.raiseError .illegalCmd 1)
  else if s.rootCodeSize.toNat < 2 ∨ 11 < s.rootCodeSize.toNat then
    .next (s.raiseError .formatMinCodeSize (s.rootCodeSize.setWidth 32))
  else if s.params.maxRows < s.imgHeight.toNat then .next (s.raiseError .resource 1)
  else if 2 ^ s.params.addrBits < s.canvasEnd then .next (s.raiseError .resource 2)
  else .next s.startImage

/-- CMD.START_SKIP (R123). -/
def execCmdStartSkip (s : State) : Result :=
  if s.seq = .error then .next s
  else if s.inReady then .next (s.raiseError .illegalCmd 2)
  else .next { s with bytesIn := 0, frameRem := 0, seq := .skipLen }

/-- CMD.RESET (R124). -/
def execCmdReset (s : State) : Result :=
  .next s.softReset

/-- CMD.RESERVED (R125). -/
def execCmdReserved (cmd : BitVec 4) (s : State) : Result :=
  if cmd.toNat < 4 then .refused .notSelected
  else if s.seq = .error then .next s
  else .next (s.raiseError .illegalCmd (cmd.setWidth 32))

end Sys2Proof.Machine
end

