-- ==== Sys2Proof/Machine/HostAccess.lean ====
section
/-! DEFINITION. The meanings of the register accesses (R119, R120). -/

namespace Sys2Proof.Machine

/-- HOST.RD (R119): the value goes to the host; nothing of the block changes. -/
def execHostRd (off : Nat) (s : State) : Result :=
  .next { s with rdData := s.readAt off }

/-- `Command(d[3:0])` (R120, R70). -/
def command (cmd : BitVec 4) (s : State) : Result :=
  match Command.ofBits cmd with
  | .nop => execCmdNop s
  | .startImage => execCmdStartImage s
  | .startSkip => execCmdStartSkip s
  | .reset => execCmdReset s
  | .reserved k => execCmdReserved k s

/-- A write to a register of the map (R120). -/
def State.writeReg (s : State) (r : Reg) (d : Word) : Result :=
  match r with
  | .ctrl => .next { s with irqEn := d.getLsbD 0 }
  | .cmd => command (cmdField d) s
  | .status => .next (s.writeStatus d)
  | r => if Reg.isConfig r then .next (s.writeConfig r d) else .next s

/-- HOST.WR (R120). -/
def execHostWr (off : Nat) (d : Word) (s : State) : Result :=
  match Reg.ofIndex off with
  | some r => s.writeReg r d
  | none => .next s

end Sys2Proof.Machine
end

