-- ==== Sys2Proof/Machine/Dispatch.lean ====
section
/-! DEFINITION. One arm per instruction, each a call of its meaning. -/

namespace Sys2Proof.Machine

def exec (i : Instr) (s : State) : Host.Outcome State Fault Refusal :=
  match i with
  | .cmdNop => Sys2Proof.Machine.execCmdNop s
  | .cmdStartImage => Sys2Proof.Machine.execCmdStartImage s
  | .cmdStartSkip => Sys2Proof.Machine.execCmdStartSkip s
  | .cmdReset => Sys2Proof.Machine.execCmdReset s
  | .cmdReserved cmd => Sys2Proof.Machine.execCmdReserved cmd s
  | .hostRd off => Sys2Proof.Machine.execHostRd off s
  | .hostWr off data => Sys2Proof.Machine.execHostWr off data s
  | .sbTerm => Sys2Proof.Machine.execSbTerm s
  | .sbLen n => Sys2Proof.Machine.execSbLen n s
  | .sbData b => Sys2Proof.Machine.execSbData b s
  | .sbSkipTerm => Sys2Proof.Machine.execSbSkipTerm s
  | .sbSkipLen n => Sys2Proof.Machine.execSbSkipLen n s
  | .sbSkipData b => Sys2Proof.Machine.execSbSkipData b s
  | .inFail => Sys2Proof.Machine.execInFail s
  | .lzwEoi c => Sys2Proof.Machine.execLzwEoi c s
  | .lzwClear c => Sys2Proof.Machine.execLzwClear c s
  | .lzwFirst c => Sys2Proof.Machine.execLzwFirst c s
  | .lzwBadFirst c => Sys2Proof.Machine.execLzwBadFirst c s
  | .lzwKnown c => Sys2Proof.Machine.execLzwKnown c s
  | .lzwPending c => Sys2Proof.Machine.execLzwPending c s
  | .lzwBeyond c => Sys2Proof.Machine.execLzwBeyond c s

end Sys2Proof.Machine
end

