-- ==== Sys2Proof/Machine/Step.lean ====
section
/-! DEFINITION. One step: the block takes the next host event, or waits. -/

namespace Sys2Proof.Machine

/-- One host event (R11: its whole rule is one step). The reset input is R142; any other event is decoded
and its instruction run. -/
def perform (e : HostEvent) (s : State) : Host.Outcome State Fault Refusal :=
  match e with
  | .reset => .next s.hardwareReset
  | .port p =>
    match decode s.ctx (.event p) with
    | .ok i => exec i s
    | .error _ => .next s

/-- One step of the block (R63). With no event it can take, the block waits (R142, R148). -/
def step (s : State) : Host.Outcome State Fault Refusal :=
  match s.takeEvent with
  | none => .next s
  | some (e, s') => perform e s'

/-- The state with a table word's event offered as the next one (log entry 6). -/
def State.withFetchWord (s : State) (nbits w : Nat) : State :=
  match eventOfTableWord nbits w with
  | none => s
  | some e => s.offer e

end Sys2Proof.Machine
end

