-- ==== Sys2Proof/Safety.lean ====
section
/-! DEFINITION. What holds of every state a run can reach: the invariant of the block, from the spec's own
statements about its state (R16 to R30, R94, R108, R56). -/

namespace Sys2Proof.Machine

/-- An image is being decoded (R21: `state` in {LEN, DATA}). -/
def State.streaming (s : State) : Prop :=
  s.seq = .len ∨ s.seq = .data

/-- An index the dictionary defines (R23): below `ct_used`, not `clear_code` or `eoi_code`. -/
def State.defines (s : State) (e : Nat) : Prop :=
  e < s.ctUsed.toNat ∧ e ≠ clearCodeOf s.root ∧ e ≠ eoiCodeOf s.root

/-- The symbols the dictionary holds have at most `P_SYMBOL_BITS` bits (R26). -/
abbrev State.SymbolsFit (s : State) : Prop :=
  ∀ cell ∈ s.dict, cell.2.value.toNat < 2 ^ s.params.symbolBits ∧
    cell.2.firstchar.toNat < 2 ^ s.params.symbolBits

/-- The roots are as DictInit left them (R96). -/
def State.RootsOk (s : State) : Prop :=
  ∀ i, i < s.numRoot → Memory.read s.dict i = some (rootEntry s.params.symbolBits i)

/-- The laws of an inserted entry (R108): its parent is a defined, earlier entry, one shorter, with the same
`firstchar`, and its length is at most `e - num_root - 1`. -/
def State.ChainOk (s : State) (e : Nat) : Prop :=
  ∃ d p, Memory.read s.dict e = some d ∧ Memory.read s.dict d.parent.toNat = some p ∧
    d.parent.toNat < e ∧ s.defines d.parent.toNat ∧
    d.length.toNat = p.length.toNat + 1 ∧ d.firstchar = p.firstchar ∧
    d.length.toNat + s.numRoot + 1 ≤ e

/-- The width law (R94): `min(12, floor(log2 ct_used) + 1)`. -/
def widthLaw (ctUsed : Nat) : Nat :=
  min 12 (Nat.log2 ctUsed + 1)

/-- The `length + 1` symbols an entry stands for, first to last, from its chain of `n` parents (R26, R107). -/
def State.expansion (s : State) : Nat → Code → List Symbol
  | 0, x =>
    match s.entry x with
    | some d => [d.value]
    | none => []
  | n + 1, x =>
    match s.entry x with
    | some d => State.expansion s n d.parent ++ [d.value]
    | none => []

/-- The bits a configuration register's rule names (R38 to R43, R50); the others are reserved. -/
def Reg.storedBits : Reg → Word
  | .rootCodeSize => 0xFF
  | .imgLeft => 0xFFFF
  | .imgTop => 0xFFFF
  | .imgWidth => 0xFFFF
  | .imgHeight => 0xFFFF
  | .imgCfg => 0x1
  | .screenWidth => 0xFFFF
  | .screenHeight => 0xFFFF
  | .canvasBase => 0xFFFFFFFF
  | .canvasCfg => 0x1
  | .palCfg => 0x7
  | .pal _ => 0xFFFFFFFF
  | .id => 0
  | .ctrl => 0x1
  | .cmd => 0
  | .status => 0
  | .errcode => 0
  | .errinfo => 0
  | .cursor => 0
  | .bytesIn => 0
  | .lzwState => 0
  | .lzwPend => 0
  | .lzwOld => 0
  | .frame => 0

/-- What holds while an image is being decoded. -/
structure State.StreamInv (s : State) : Prop where
  /-- R21 -/
  root_range : 2 ≤ s.root.toNat ∧ s.root.toNat ≤ 11
  /-- R23 -/
  ct_range : s.numRoot + 2 ≤ s.ctUsed.toNat ∧ s.ctUsed.toNat ≤ Config.dictSize
  /-- R97, R101: before the first code after a reset nothing has been inserted -/
  ct_first : s.oldValid = false → s.ctUsed.toNat = s.numRoot + 2
  /-- R94 -/
  width_law : s.width.toNat = widthLaw s.ctUsed.toNat
  /-- R25 -/
  pend_cnt : s.pendCnt.toNat < s.width.toNat
  /-- R25 -/
  pend_val : s.pendVal.toNat < 2 ^ s.pendCnt.toNat
  /-- R24 -/
  old_code : s.oldValid = true → s.defines s.oldCode.toNat
  /-- R96 -/
  roots : s.RootsOk
  /-- R108 -/
  chains : ∀ e, s.numRoot + 2 ≤ e → e < s.ctUsed.toNat → s.ChainOk e
  /-- R28, R109: the rows of the image are written, in the order of its passes -/
  rows : ∀ i, i < s.imgHeight.toNat → Memory.read s.rowmap i =
    ((rowOrder s.interlace s.imgHeight.toNat)[i]?).map (BitVec.ofNat 16)
  /-- R56, R122 -/
  canvas_fits : s.canvasEnd ≤ 2 ^ s.params.addrBits
  /-- R83: a length byte is never taken after EOI -/
  len_eoi : s.seq = .len → s.eoiFlag = false

/-- The invariant of the block. -/
structure State.Inv (s : State) : Prop where
  /-- the canvas is in its canonical form and holds only addresses of `P_ADDR_BITS` bits (R56) -/
  canvas_wf : Memory.wf s.canvas ∧ ∀ cell ∈ s.canvas, cell.1 < 2 ^ s.params.addrBits
  /-- the dictionary is in its canonical form and has at most 4096 entries (R26) -/
  dict_wf : Memory.wf s.dict ∧ ∀ cell ∈ s.dict, cell.1 < Config.dictSize
  /-- every symbol the dictionary holds has at most `P_SYMBOL_BITS` bits (R26) -/
  symbols_fit : s.SymbolsFit
  /-- the row-order table is in its canonical form and within its capacity (R28) -/
  rowmap_wf : Memory.wf s.rowmap ∧ ∀ cell ∈ s.rowmap, cell.1 < s.params.maxRows
  /-- payload bytes are due exactly in DATA and SKIP_DATA (R18) -/
  frame_rem : s.frameRem ≠ 0 ↔ (s.seq = .data ∨ s.seq = .skipData)
  /-- an error code is held exactly in ERROR (R30) -/
  err_code : s.errCode ≠ .none ↔ s.seq = .error
  /-- the error information is 0 outside ERROR (R30) -/
  err_info : s.seq ≠ .error → s.errInfo = 0
  /-- the root of a finished image (R21) -/
  done_root : s.seq = .done → 2 ≤ s.root.toNat ∧ s.root.toNat ≤ 11
  /-- the laws of an image in progress -/
  stream : s.streaming → s.StreamInv

end Sys2Proof.Machine
end

