-- ==== Sys2Proof/Certificates/Slice0/Obligations.lean ====
section
/-! DEFINITION. The statements for the provers, from the spec's numbered rules. -/

open Sys2Proof Sys2Proof.Machine

/-! ### Decoding -/

/-- R69 to R76: every well-formed instruction that a state selects is read back from its carrier, a register
access at every index of the part's window (R8, R54; for a window of another size than 4096 bytes, log entry
10). -/
def Obligations.DecodeOfEncode : Prop :=
  ∀ (x : DecodeCtx) (i : Instr), i.wellFormed = true → i.selectedIn x = true →
    i.onPort x.windowBytes = true → decode x (encode i) = .ok i

/-- R54, R69 to R76: the decoder answers only well-formed instructions that the state selects, at indexes of the
window, and loses of a carrier only the bits its format ignores (for a window of another size than 4096 bytes,
log entry 10). -/
def Obligations.EncodeOfDecode : Prop :=
  ∀ (x : DecodeCtx) (w : Carrier) (i : Instr), decode x w = .ok i →
    i.wellFormed = true ∧ i.selectedIn x = true ∧ i.onPort x.windowBytes = true ∧
      encode i = w.cleared x.windowBytes

/-- Words written out from R54, R70 to R74 and R76 decode to the instructions they stand for (root 2: clear 4,
EOI 5; the window of 4096 bytes, and at the end one of 8192, DEDUCED: log entry 10). -/
def Obligations.SampleWordsDecode : Prop :=
  let idle : DecodeCtx :=
    { seq := .idle, root := 0, ctUsed := 0, oldValid := false, windowBytes := 4096 }
  let len : DecodeCtx :=
    { seq := .len, root := 2, ctUsed := 6, oldValid := false, windowBytes := 4096 }
  let data : DecodeCtx :=
    { seq := .data, root := 2, ctUsed := 7, oldValid := true, windowBytes := 4096 }
  let skip : DecodeCtx :=
    { seq := .skipLen, root := 2, ctUsed := 7, oldValid := true, windowBytes := 4096 }
  let skipData : DecodeCtx := { skip with seq := .skipData }
  decode idle (.event (.write 0x008 0x00000001)) = .ok .cmdStartImage ∧
  decode idle (.event (.write 0x00B 0xFFFFFFF3)) = .ok .cmdReset ∧
  decode idle (.event (.write 0x008 0x0000000F)) = .ok (.cmdReserved 15) ∧
  decode idle (.event (.read 0x404)) = .ok (.hostRd 0x101) ∧
  decode idle (.event (.write 0x024 0x00012345)) = .ok (.hostWr 9 0x00012345) ∧
  decode idle (.event (.byte 0)) = .error .notReady ∧
  decode len (.event (.byte 0x00)) = .ok .sbTerm ∧
  decode len (.event (.byte 0xFF)) = .ok (.sbLen 255) ∧
  decode data (.event (.byte 0x00)) = .ok (.sbData 0) ∧
  decode skip (.event (.byte 0x04)) = .ok (.sbSkipLen 4) ∧
  decode skip (.event (.byte 0x00)) = .ok .sbSkipTerm ∧
  decode skip (.event .fail) = .ok .inFail ∧
  decode skipData (.event (.byte 0x00)) = .ok (.sbSkipData 0) ∧
  decode len (.code 5) = .ok (.lzwEoi 5) ∧
  decode len (.code 4) = .ok (.lzwClear 4) ∧
  decode len (.code 3) = .ok (.lzwFirst 3) ∧
  decode len (.code 6) = .ok (.lzwBadFirst 6) ∧
  decode data (.code 6) = .ok (.lzwKnown 6) ∧
  decode data (.code 7) = .ok (.lzwPending 7) ∧
  decode data (.code 8) = .ok (.lzwBeyond 8) ∧
  decode idle (.event (.write 0x1008 0x00000001)) = .ok .cmdStartImage ∧
  decode { idle with windowBytes := 8192 } (.event (.write 0x1008 0x00000001)) = .ok (.hostWr 0x402 1)

/-- R76: the class of a code is the first row of the table whose condition holds, and the consequences the
rule draws. -/
def Obligations.CodeMapFirstRow : Prop :=
  (∀ (x : DecodeCtx) (c : Code),
    let eoi := c.toNat = 2 ^ x.root.toNat + 1
    let clear := c.toNat = 2 ^ x.root.toNat
    (classify x c = .eoi ↔ eoi) ∧
    (classify x c = .clear ↔ ¬ eoi ∧ clear) ∧
    (classify x c = .first ↔ ¬ eoi ∧ ¬ clear ∧ x.oldValid = false ∧ c.toNat < x.ctUsed.toNat) ∧
    (classify x c = .badFirst ↔ ¬ eoi ∧ ¬ clear ∧ x.oldValid = false ∧ x.ctUsed.toNat ≤ c.toNat) ∧
    (classify x c = .known ↔ ¬ eoi ∧ ¬ clear ∧ x.oldValid = true ∧ c.toNat < x.ctUsed.toNat) ∧
    (classify x c = .pending ↔ ¬ eoi ∧ ¬ clear ∧ x.oldValid = true ∧ c.toNat = x.ctUsed.toNat) ∧
    (classify x c = .beyond ↔ ¬ eoi ∧ ¬ clear ∧ x.oldValid = true ∧ x.ctUsed.toNat < c.toNat)) ∧
  (∀ (s : State) (c : Code), s.StreamInv → s.classOf c = .first → c.toNat < 2 ^ s.root.toNat) ∧
  (∀ (x : DecodeCtx) (c : Code), x.ctUsed.toNat = 4096 →
    classify x c = .eoi ∨ classify x c = .clear ∨ classify x c = .first ∨ classify x c = .known)

/-- R98: processing a code is running the one instruction it decodes to. -/
def Obligations.ProcessCodeRunsDecodedClass : Prop :=
  ∀ (c : Code) (s : State), processCode c s = exec (decodeCode s.ctx c) s

/-! ### Steps, the ports and reset -/

/-- R11, R63: when the next event decodes, the step is the instruction's, with the event taken. -/
def Obligations.StepRunsDecodedInstruction : Prop :=
  ∀ (s : State) (p : PortEvent) (rest : List HostEvent) (i : Instr),
    s.env = .port p :: rest → decode s.ctx (.event p) = .ok i →
    step s = exec i { s with env := rest }

/-- The model's own (log entry 6): a table word that the decoder reads is run by the very next step. The table's
words have this hardware's 12 offset bits, so the part's window has at least them (log entry 10). -/
def Obligations.TableWordRunsNext : Prop :=
  ∀ (s : State) (nbits w : Nat) (i : Instr), 4096 ≤ s.params.windowBytes →
    decodeTableWord nbits w = some i →
    step (s.withFetchWord nbits w) = exec i (if nbits = 8 then { s with seq := .len } else s)

/-- R55, R148: a byte offered while `in_ready = 0` is not accepted and stays with the host; register accesses
and the reset input go on (log entry 4); a byte offered while `in_ready = 1` is taken. -/
def Obligations.UnacceptedByteStays : Prop :=
  (∀ (s : State) (b : Byte) (bs : List HostEvent), s.inReady = false →
    s.env = .port (.byte b) :: bs →
    (∀ e ∈ bs, e = .port .fail ∨ ∃ c, e = .port (.byte c)) → step s = .next s) ∧
  (∀ (s : State) (b : Byte) (bs rest : List HostEvent) (e : HostEvent), s.inReady = false →
    s.env = .port (.byte b) :: (bs ++ e :: rest) →
    (∀ f ∈ bs, f = .port .fail ∨ ∃ c, f = .port (.byte c)) →
    (e = .reset ∨ (∃ o, e = .port (.read o)) ∨ ∃ o d, e = .port (.write o d)) →
    step s = perform e { s with env := .port (.byte b) :: (bs ++ rest) }) ∧
  (∀ (s : State) (b : Byte) (rest : List HostEvent), s.inReady = true →
    s.env = .port (.byte b) :: rest →
    ∃ i, decode s.ctx (.event (.byte b)) = .ok i ∧ step s = exec i { s with env := rest })

/-- R142: hardware reset is one step to the values R53 gives; the canvas memory is not written; the interrupt
output and `in_ready` are 0. Three clauses of the equation are the model's choice, not the spec's: the
dictionary with nothing listed (log entry 2), the row-order table with nothing listed, so that it reads as a
free value (log entry 3; R53 calls both unspecified), and the last read value kept (log entry 5). The part's
parameters are no state of R53 and stay (log entry 10). -/
def Obligations.HardwareResetStep : Prop :=
  ∀ (s : State) (rest : List HostEvent), s.env = .reset :: rest →
    ∃ t, step s = .next t ∧
      t = { State.reset with
        params := s.params, canvas := s.canvas, rdData := s.rdData, env := rest } ∧
      t.seq = .idle ∧ t.irq = false ∧ t.inReady = false

/-- R53: what a host reads of every register offset after hardware reset. -/
def Obligations.ResetRegisterValues : Prop :=
  ∀ off : Nat, State.reset.readAt off =
    if off = 0 then 0x4C5A5701
    else if 256 ≤ off ∧ off < 512 then 0xFF000000
    else 0

/-- The invariant of the block holds after hardware reset. -/
def Obligations.ResetMeetsInvariant : Prop :=
  State.reset.Inv

/-- R18, R21 to R25, R28, R30, R56, R94, R96, R108: every step keeps the invariant of the block. -/
def Obligations.StepKeepsInvariant : Prop :=
  ∀ s t : State, s.Inv → step s = .next t → t.Inv

/-- R26, R56: from a state that keeps the invariant, no step stops: no unspecified dictionary entry is read, no
canvas address has more than `P_ADDR_BITS` bits, no instruction is refused. -/
def Obligations.StepNeverStops : Prop :=
  ∀ s : State, s.Inv → ∃ t, step s = .next t

/-- R55, R76, R78 and log entry 7: an instruction whose row asks a state the block is not in is refused, and one
that is well formed and selected never is. -/
def Obligations.RefusedExactlyWhenNotSelected : Prop :=
  (∀ (i : Instr) (s : State), i.selectedIn s.ctx = false → exec i s = .refused .notSelected) ∧
  (∀ (i : Instr) (s : State) (x : Refusal), i.wellFormed = true → i.selectedIn s.ctx = true →
    exec i s ≠ .refused x)

/-- R8: "this hardware" has the values of the rule's table, and no step changes a parameter, whatever values it
has (that they stand in the state is the model's choice, log entry 10). -/
def Obligations.ParametersNeverChange : Prop :=
  (State.reset.params.symbolBits = 8 ∧ State.reset.params.maxRows = 65535 ∧
    State.reset.params.addrBits = 32 ∧ State.reset.params.windowBytes = 4096) ∧
  ∀ s t : State, step s = .next t → t.params = s.params

/-! ### Whole-machine rules -/

/-- R56, R63, R64: a step changes a canvas byte only in DATA, and only inside the screen's rectangle. -/
def Obligations.CanvasWritesConfined : Prop :=
  ∀ (s t : State) (a : Nat), s.Inv → step s = .next t →
    Memory.read t.canvas a ≠ Memory.read s.canvas a →
    s.seq = .data ∧ s.canvasBase.toNat ≤ a ∧
      a < s.canvasBase.toNat +
        s.screenWidth.toNat * s.screenHeight.toNat * (if s.fmtRgba then 4 else 3)

/-- R135: `irq_pend` is cleared only by a write of 1 to STATUS bit 4, by CMD RESET and by hardware reset. -/
def Obligations.IrqPendClearedOnlyBy : Prop :=
  ∀ s t : State, step s = .next t → s.irqPend = true → t.irqPend = false →
    ∃ e s', s.takeEvent = some (e, s') ∧
      (e = .reset ∨ ∃ o d, e = .port (.write o d) ∧
        ((regIndexOf s.params.windowBytes o = 3 ∧ d.getLsbD 4 = true) ∨
          (regIndexOf s.params.windowBytes o = 2 ∧ cmdField d = 3)))

/-- R135: entry to DONE, entry to ERROR and the end of a skipped chain set `irq_pend`, and the interrupt
output is `IRQ_EN` and `irq_pend`. -/
def Obligations.EventsSetIrqPend : Prop :=
  (∀ s t : State, step s = .next t → t.seq ≠ s.seq → (t.seq = .done ∨ t.seq = .error) →
    t.irqPend = true) ∧
  (∀ (s : State) (rest : List HostEvent), s.seq = .skipLen → s.env = .port (.byte 0) :: rest →
    ∃ t, step s = .next t ∧ t.seq = .idle ∧ t.irqPend = true) ∧
  (∀ s : State, s.irq = true ↔ s.irqEn = true ∧ s.irqPend = true)

/-- R133: ERROR is left only by CMD RESET and hardware reset, and until then the first error's code and
information stay. -/
def Obligations.ErrorLeftOnlyByReset : Prop :=
  ∀ s t : State, s.seq = .error → step s = .next t →
    (t.seq = .error ∧ t.errCode = s.errCode ∧ t.errInfo = s.errInfo) ∨
    (t.seq = .idle ∧ t.errCode = .none ∧ t.errInfo = 0 ∧
      ∃ e s', s.takeEvent = some (e, s') ∧
        (e = .reset ∨ ∃ o d, e = .port (.write o d) ∧ regIndexOf s.params.windowBytes o = 2 ∧
          cmdField d = 3))

/-- R120, R146: while the block is busy no event of a port changes a configuration register or a palette
entry. -/
def Obligations.ConfigFrozenWhileBusy : Prop :=
  ∀ (s s' t : State) (p : PortEvent), s.inReady = true → s.takeEvent = some (.port p, s') →
    step s = .next t → ∀ r : Reg, Reg.isConfig r = true → t.readReg r = s.readReg r

/-- R29: the cursor only grows, but for the events that set it to 0: CMD START_IMAGE, CMD RESET and hardware
reset. -/
def Obligations.CursorOnlyGrows : Prop :=
  ∀ s t : State, step s = .next t → t.cursor < s.cursor →
    t.cursor = 0 ∧ ∃ e s', s.takeEvent = some (e, s') ∧
      (e = .reset ∨ ∃ o d, e = .port (.write o d) ∧ regIndexOf s.params.windowBytes o = 2 ∧
        (cmdField d = 1 ∨ cmdField d = 3))

/-- R17, R19: every accepted input byte is taken from the host and advances `bytes_in` by exactly one. -/
def Obligations.EveryByteCounted : Prop :=
  ∀ (s t : State) (b : Byte) (rest : List HostEvent), s.inReady = true →
    s.env = .port (.byte b) :: rest → step s = .next t →
    t.bytesIn = s.bytesIn + 1 ∧ t.env = rest

/-- R94: the width law's consequences: the width is at least `root + 1`, at most 12, and holds the next free
code. -/
def Obligations.WidthHoldsNextFreeCode : Prop :=
  ∀ s : State, s.StreamInv →
    s.width.toNat = min 12 (Nat.log2 s.ctUsed.toNat + 1) ∧
    s.root.toNat + 1 ≤ s.width.toNat ∧ s.width.toNat ≤ 12 ∧
    (s.ctUsed.toNat < 4096 → s.ctUsed.toNat < 2 ^ s.width.toNat)

/-! ### The fatal error and the commands -/

/-- R130: what the error entry writes and what it keeps, and that an instruction that raises it ends there. -/
def Obligations.ErrorEntryWrites : Prop :=
  ∀ (s : State) (code : ErrCode) (info : Word) (bs : List Bool),
    s.raiseError code info = { s with
      errCode := code, errInfo := info, frameRem := 0, seq := .error, irqPend := true } ∧
    (s.raiseError code info).inReady = false ∧
    exec .inFail (s.raiseError code info) = .next (s.raiseError code info) ∧
    acceptBits bs (s.raiseError code info) = .next (s.raiseError code info)

/-- R121: CMD.NOP has no effect in any state, and bits [31:4] of the written data are ignored. -/
def Obligations.NopHasNoEffect : Prop :=
  ∀ (x : DecodeCtx) (s : State) (d : Word),
    decode x (.event (.write 0x008 (d &&& 0xFFFFFFF0))) = .ok .cmdNop ∧ exec .cmdNop s = .next s

/-- R122, R132: the checks of CMD.START_IMAGE in their order; a failing check changes nothing but the error
state, and in ERROR the command is ignored. The capacity is `P_MAX_ROWS` and the address space has
`P_ADDR_BITS` bits (R8; log entry 10). -/
def Obligations.StartImageChecks : Prop :=
  ∀ s : State,
    (s.seq = .error → exec .cmdStartImage s = .next s) ∧
    (s.inReady = true → exec .cmdStartImage s = .next (s.raiseError .illegalCmd 1)) ∧
    (s.seq = .idle ∨ s.seq = .done →
      (s.rootCodeSize.toNat < 2 ∨ 11 < s.rootCodeSize.toNat →
        exec .cmdStartImage s = .next (s.raiseError .formatMinCodeSize
          (BitVec.ofNat 32 s.rootCodeSize.toNat))) ∧
      (2 ≤ s.rootCodeSize.toNat → s.rootCodeSize.toNat ≤ 11 → s.params.maxRows < s.imgHeight.toNat →
        exec .cmdStartImage s = .next (s.raiseError .resource 1)) ∧
      (2 ≤ s.rootCodeSize.toNat → s.rootCodeSize.toNat ≤ 11 → s.imgHeight.toNat ≤ s.params.maxRows →
        2 ^ s.params.addrBits < s.canvasBase.toNat +
          s.screenWidth.toNat * s.screenHeight.toNat * (if s.fmtRgba then 4 else 3) →
        exec .cmdStartImage s = .next (s.raiseError .resource 2)))

/-- R122: CMD.START_IMAGE with every check passed. -/
def Obligations.StartImageSetsUp : Prop :=
  ∀ s : State, s.seq = .idle ∨ s.seq = .done →
    2 ≤ s.rootCodeSize.toNat → s.rootCodeSize.toNat ≤ 11 → s.imgHeight.toNat ≤ s.params.maxRows →
    s.canvasBase.toNat + s.screenWidth.toNat * s.screenHeight.toNat * (if s.fmtRgba then 4 else 3)
      ≤ 2 ^ s.params.addrBits →
    ∃ t, exec .cmdStartImage s = .next t ∧
      t = { s with
        seq := .len, root := t.root, width := t.width, ctUsed := t.ctUsed, dict := t.dict
        rowmap := t.rowmap, oldValid := false, oldCode := 0, pendVal := 0, pendCnt := 0
        eoiFlag := false, cursor := 0, bytesIn := 0, frameRem := 0 } ∧
      t.root.toNat = s.rootCodeSize.toNat ∧
      t.width.toNat = s.rootCodeSize.toNat + 1 ∧
      t.ctUsed.toNat = 2 ^ s.rootCodeSize.toNat + 2 ∧
      (∀ i, Memory.read t.dict i =
        if i < 2 ^ s.rootCodeSize.toNat then
          some { parent := 0, length := 0, value := BitVec.ofNat 12 (i % 2 ^ s.params.symbolBits)
                 firstchar := BitVec.ofNat 12 (i % 2 ^ s.params.symbolBits) }
        else Memory.read s.dict i) ∧
      (∀ i, i < s.imgHeight.toNat → Memory.read t.rowmap i =
        ((rowOrder s.interlace s.imgHeight.toNat)[i]?).map (BitVec.ofNat 16)) ∧
      (∀ i, s.imgHeight.toNat ≤ i → Memory.read t.rowmap i = Memory.read s.rowmap i)

/-- R123: CMD.START_SKIP in every state. -/
def Obligations.StartSkipRule : Prop :=
  ∀ s : State,
    (s.seq = .idle ∨ s.seq = .done →
      exec .cmdStartSkip s = .next { s with bytesIn := 0, frameRem := 0, seq := .skipLen }) ∧
    (s.inReady = true → exec .cmdStartSkip s = .next (s.raiseError .illegalCmd 2)) ∧
    (s.seq = .error → exec .cmdStartSkip s = .next s)

/-- R124, R143: CMD.RESET in every state: what it clears and what it keeps; the host then reads STATUS,
ERRCODE, ERRINFO, CURSOR, BYTES_IN, LZW_STATE, LZW_PEND, LZW_OLD and FRAME as 0 and every other register as
before. -/
def Obligations.SoftResetRule : Prop :=
  ∀ s : State, ∃ t, exec .cmdReset s = .next t ∧
    t = { s with
      seq := .idle, frameRem := 0, bytesIn := 0, eoiFlag := false, oldValid := false
      irqPend := false, errCode := .none, errInfo := 0, root := 0, width := 0, ctUsed := 0
      oldCode := 0, pendVal := 0, pendCnt := 0, cursor := 0 } ∧
    t.irq = false ∧
    (∀ r ∈ [Reg.status, .errcode, .errinfo, .cursor, .bytesIn, .lzwState, .lzwPend, .lzwOld, .frame],
      t.readReg r = 0) ∧
    (∀ r : Reg, Reg.isConfig r = true ∨ r = .ctrl → t.readReg r = s.readReg r)

/-- R125: CMD.RESERVED for each of the twelve numbers. -/
def Obligations.ReservedCommandRule : Prop :=
  ∀ (cmd : BitVec 4) (s : State), 4 ≤ cmd.toNat →
    decodeCmd cmd = .cmdReserved cmd ∧
    exec (.cmdReserved cmd) s =
      .next (if s.seq = .error then s else s.raiseError .illegalCmd (BitVec.ofNat 32 cmd.toNat))

/-- R127: the command laws, but for what it says of `root`, which R124 writes too. -/
def Obligations.CommandLaws : Prop :=
  ∀ (cmd : BitVec 4) (s t : State), exec (decodeCmd cmd) s = .next t →
    t.canvas = s.canvas ∧
    (s.seq = .error → cmd ≠ 3 → t = s) ∧
    (s.inReady = true → t.inReady = true → t = s) ∧
    (cmd ≠ 1 → t.dict = s.dict ∧ t.rowmap = s.rowmap)

/-! ### The register port -/

/-- R119, R31: a host read returns the register's value, or 0 at a reserved offset, and changes nothing; offset
bits [1:0] and what lies above the window are ignored (R54; for a window of another size than 4096 bytes, log entry 10);
the registers stand at the byte offsets of the map. -/
def Obligations.HostReadReturns : Prop :=
  (∀ (s : State) (r : Reg), exec (.hostRd r.index) s = .next { s with rdData := s.readReg r }) ∧
  (∀ (s : State) (off : Nat), (∀ r : Reg, r.index ≠ off) →
    exec (.hostRd off) s = .next { s with rdData := 0 }) ∧
  (∀ (x : DecodeCtx) (o : Nat),
    decode x (.event (.read o)) = .ok (.hostRd (o % max 0x800 x.windowBytes / 4))) ∧
  (∀ m ∈ [(Reg.id, 0x000), (.ctrl, 0x004), (.cmd, 0x008), (.status, 0x00C), (.errcode, 0x010),
      (.errinfo, 0x014), (.rootCodeSize, 0x018), (.imgLeft, 0x01C), (.imgTop, 0x020),
      (.imgWidth, 0x024), (.imgHeight, 0x028), (.imgCfg, 0x02C), (.screenWidth, 0x030),
      (.screenHeight, 0x034), (.canvasBase, 0x038), (.canvasCfg, 0x03C), (.palCfg, 0x040),
      (.cursor, 0x044), (.bytesIn, 0x048), (.lzwState, 0x04C), (.lzwPend, 0x050), (.lzwOld, 0x054),
      (.frame, 0x058)], 4 * Reg.index m.1 = m.2) ∧
  (∀ i : BitVec 8, 4 * Reg.index (.pal i) = 0x400 + 4 * i.toNat)

/-- R32, R34 to R37, R44 to R50: the fields a host reads, as numbers, with the numbers of `state` (R16) and of
`err_code` (R128). -/
def Obligations.RegisterReadFields : Prop :=
  ∀ s : State,
    s.readReg .id = 0x4C5A5701 ∧ s.readReg .cmd = 0 ∧
    (s.readReg .status).toNat =
      (match s.seq with
        | .idle => 0 | .len => 1 | .data => 2 | .skipLen => 3 | .skipData => 4 | .done => 5 | .error => 6)
      + (if s.seq = .len ∨ s.seq = .data ∨ s.seq = .skipLen ∨ s.seq = .skipData then 8 else 0)
      + 16 * s.irqPend.toNat + 32 * s.eoiFlag.toNat + 64 * s.oldValid.toNat ∧
    (s.readReg .errcode).toNat =
      (match s.errCode with
        | .none => 0 | .io => 1 | .formatMinCodeSize => 2 | .decode => 3 | .resource => 4
        | .illegalCmd => 5) ∧
    (s.readReg .errinfo) = s.errInfo ∧
    (s.readReg .cursor).toNat = min s.cursor 0xFFFFFFFF ∧
    (s.readReg .bytesIn) = s.bytesIn ∧
    (s.readReg .lzwState).toNat = s.width.toNat + 2 ^ 4 * s.root.toNat + 2 ^ 8 * s.ctUsed.toNat ∧
    (s.readReg .lzwPend).toNat = s.pendVal.toNat + 2 ^ 16 * s.pendCnt.toNat ∧
    (s.readReg .lzwOld).toNat = s.oldCode.toNat ∧
    (s.readReg .frame).toNat = s.frameRem.toNat ∧
    (∀ i : BitVec 8, (s.readReg (.pal i)).toNat = (s.palEntry i).r.toNat +
      2 ^ 8 * (s.palEntry i).g.toNat + 2 ^ 16 * (s.palEntry i).b.toNat +
      2 ^ 24 * (s.palEntry i).a.toNat)

/-- R33, R38 to R43, R50, R27: CTRL, the configuration registers and the palette read as the state that the
rules of the decode read, one equation per register, and CMD reads 0 (R34). -/
def Obligations.ConfigReadFields : Prop :=
  ∀ s : State,
    (s.readReg .ctrl).toNat = s.irqEn.toNat ∧ s.readReg .cmd = 0 ∧
    (s.readReg .rootCodeSize).toNat = s.rootCodeSize.toNat ∧
    (s.readReg .imgLeft).toNat = s.imgLeft.toNat ∧
    (s.readReg .imgTop).toNat = s.imgTop.toNat ∧
    (s.readReg .imgWidth).toNat = s.imgWidth.toNat ∧
    (s.readReg .imgHeight).toNat = s.imgHeight.toNat ∧
    (s.readReg .imgCfg).toNat = s.interlace.toNat ∧
    (s.readReg .screenWidth).toNat = s.screenWidth.toNat ∧
    (s.readReg .screenHeight).toNat = s.screenHeight.toNat ∧
    (s.readReg .canvasBase).toNat = s.canvasBase.toNat ∧
    (s.readReg .canvasCfg).toNat = s.fmtRgba.toNat ∧
    (s.readReg .palCfg).toNat = s.palSizeLog2m1.toNat ∧
    (∀ i : BitVec 8,
      (s.readReg (.pal i)).toNat % 2 ^ 8 = (s.pal[i.toNat]'i.isLt).r.toNat ∧
      (s.readReg (.pal i)).toNat / 2 ^ 8 % 2 ^ 8 = (s.pal[i.toNat]'i.isLt).g.toNat ∧
      (s.readReg (.pal i)).toNat / 2 ^ 16 % 2 ^ 8 = (s.pal[i.toNat]'i.isLt).b.toNat ∧
      (s.readReg (.pal i)).toNat / 2 ^ 24 = (s.pal[i.toNat]'i.isLt).a.toNat)

/-- R120, R38 to R43, R50: a write to a configuration register or a palette entry while the block is not busy
stores the bits the register's rule names and changes nothing else. -/
def Obligations.HostWriteStores : Prop :=
  ∀ (s : State) (r : Reg) (d : Word), s.inReady = false → Reg.isConfig r = true →
    ∃ t, exec (.hostWr r.index d) s = .next t ∧
      t.readReg r = d &&& Reg.storedBits r ∧
      (∀ r', r' ≠ r → t.readReg r' = s.readReg r') ∧
      t.cursor = s.cursor ∧ t.dict = s.dict ∧ t.rowmap = s.rowmap ∧ t.canvas = s.canvas ∧
      t.rdData = s.rdData ∧ t.env = s.env ∧ t.params = s.params

/-- R120, R33, R35: the other writes: CTRL and STATUS in every state, CMD as a command, a configuration write
while busy and a write to a read-only or reserved offset ignored. -/
def Obligations.HostWriteElsewhere : Prop :=
  ∀ (s : State) (d : Word),
    exec (.hostWr Reg.ctrl.index d) s = .next { s with irqEn := d.getLsbD 0 } ∧
    exec (.hostWr Reg.status.index d) s =
      .next { s with irqPend := s.irqPend && !d.getLsbD 4 } ∧
    exec (.hostWr Reg.cmd.index d) s = exec (decodeCmd (cmdField d)) s ∧
    (∀ r : Reg, s.inReady = true → Reg.isConfig r = true → exec (.hostWr r.index d) s = .next s) ∧
    (∀ r ∈ [Reg.id, .errcode, .errinfo, .cursor, .bytesIn, .lzwState, .lzwPend, .lzwOld, .frame],
      exec (.hostWr r.index d) s = .next s) ∧
    (∀ off : Nat, (∀ r : Reg, r.index ≠ off) → exec (.hostWr off d) s = .next s)

/-! ### The sub-block reader -/

/-- R83: SB.TERM. -/
def Obligations.TerminatorEndsImage : Prop :=
  ∀ s : State, s.seq = .len →
    decode s.ctx (.event (.byte 0)) = .ok .sbTerm ∧
    exec .sbTerm s = .next { s with bytesIn := s.bytesIn + 1, seq := .done, irqPend := true } ∧
    (s.Inv → s.eoiFlag = false)

/-- R84: SB.LEN. -/
def Obligations.LengthByteOpensSubBlock : Prop :=
  ∀ (s : State) (n : Byte), s.seq = .len → n ≠ 0 →
    decode s.ctx (.event (.byte n)) = .ok (.sbLen n) ∧
    exec (.sbLen n) s = .next { s with bytesIn := s.bytesIn + 1, frameRem := n, seq := .data }

/-- R86, R87, R88: skipping. -/
def Obligations.SkipRules : Prop :=
  (∀ s : State, s.seq = .skipLen →
    decode s.ctx (.event (.byte 0)) = .ok .sbSkipTerm ∧
    exec .sbSkipTerm s = .next { s with bytesIn := s.bytesIn + 1, seq := .idle, irqPend := true }) ∧
  (∀ (s : State) (n : Byte), s.seq = .skipLen → n ≠ 0 →
    decode s.ctx (.event (.byte n)) = .ok (.sbSkipLen n) ∧
    exec (.sbSkipLen n) s =
      .next { s with bytesIn := s.bytesIn + 1, frameRem := n, seq := .skipData }) ∧
  (∀ (s : State) (b : Byte), s.seq = .skipData →
    decode s.ctx (.event (.byte b)) = .ok (.sbSkipData b) ∧
    exec (.sbSkipData b) s = .next { s with
      bytesIn := s.bytesIn + 1, frameRem := s.frameRem - 1
      seq := if s.frameRem = 1 then .skipLen else .skipData })

/-- R89: IN.FAIL in every state. -/
def Obligations.SourceFailureRule : Prop :=
  ∀ s : State,
    exec .inFail s =
      .next (if s.seq = .len ∨ s.seq = .data ∨ s.seq = .skipLen ∨ s.seq = .skipData then
        { s with errCode := .io, errInfo := s.bytesIn, frameRem := 0, seq := .error, irqPend := true }
      else s)

/-- R85: SB.DATA completes in DATA; it counts the byte, runs the bit loop unless EOI was seen, changes the
sequencing state as the end-of-sub-block test says, and leaves everything but the decode's own fields. -/
def Obligations.PayloadByteRule : Prop :=
  ∀ (s : State) (b : Byte), s.Inv → s.seq = .data →
    ∃ t u, exec (.sbData b) s = .next t ∧
      (if s.eoiFlag = true then u = { s with bytesIn := s.bytesIn + 1, frameRem := s.frameRem - 1 }
        else acceptBits (bitsOf b)
          { s with bytesIn := s.bytesIn + 1, frameRem := s.frameRem - 1 } = .next u) ∧
      t = (if u.seq = .error then u
        else if s.frameRem ≠ 1 then u
        else if u.eoiFlag = true then { u with seq := .done, irqPend := true }
        else { u with seq := .len }) ∧
      (u.seq = .error → s.eoiFlag = false ∧ u.errCode = .decode ∧ u.frameRem = 0 ∧ u.irqPend = true) ∧
      (u.seq ≠ .error → u.seq = .data ∧ u.frameRem = s.frameRem - 1 ∧ u.irqPend = s.irqPend) ∧
      t = { s with
        bytesIn := s.bytesIn + 1
        seq := t.seq, frameRem := t.frameRem, eoiFlag := t.eoiFlag, oldValid := t.oldValid
        irqPend := t.irqPend, width := t.width, ctUsed := t.ctUsed, oldCode := t.oldCode
        pendVal := t.pendVal, pendCnt := t.pendCnt, dict := t.dict, cursor := t.cursor
        errCode := t.errCode, errInfo := t.errInfo, canvas := t.canvas }

/-! ### The bitstream aligner and the code classes -/

/-- R75, R90: bits are taken bit 0 of a byte first; a code is `width` bits, its first-received bit bit 0, whether
the first of them already wait in the accumulator or not; fewer bits wait; and bits that arrive in two parts
(two bytes, two sub-blocks: R25, R57) are accepted as if they came together. `value` is the number that
waits plus the sum of the new bits at the places above it. -/
def Obligations.CodeAssembly : Prop :=
  (∀ b : Byte, bitsOf b = [b.getLsbD 0, b.getLsbD 1, b.getLsbD 2, b.getLsbD 3,
    b.getLsbD 4, b.getLsbD 5, b.getLsbD 6, b.getLsbD 7]) ∧
  (∀ (s : State) (bits : List Bool), s.pendCnt.toNat < s.width.toNat → s.width.toNat ≤ 12 →
    s.eoiFlag = false → s.seq ≠ .error →
    let value := s.pendVal.toNat + ((List.range bits.length).map fun i =>
      (bits.getD i false).toNat * 2 ^ (s.pendCnt.toNat + i)).sum
    (s.pendCnt.toNat + bits.length < s.width.toNat → acceptBits bits s = .next { s with
      pendVal := BitVec.ofNat 12 value, pendCnt := BitVec.ofNat 4 (s.pendCnt.toNat + bits.length) }) ∧
    (s.pendCnt.toNat + bits.length = s.width.toNat →
      acceptBits bits s = processCode (BitVec.ofNat 12 value) { s with pendVal := 0, pendCnt := 0 })) ∧
  (∀ (as bs : List Bool) (s : State),
    acceptBits (as ++ bs) s = andThen (acceptBits as s) (acceptBits bs))

/-- R99: LZW.EOI, whatever `old_valid` is; the bits after it are discarded, the rest of its sub-block is
consumed without effect, and the stream ends at the end of that sub-block. -/
def Obligations.EoiEndsStream : Prop :=
  (∀ (s : State) (c : Code), c.toNat = 2 ^ s.root.toNat + 1 →
    exec (.lzwEoi c) s = .next { s with eoiFlag := true }) ∧
  (∀ (s : State) (bs : List Bool), s.eoiFlag = true → acceptBits bs s = .next s) ∧
  (∀ (s : State) (b : Byte), s.eoiFlag = true → s.seq = .data →
    exec (.sbData b) s = .next { s with
      bytesIn := s.bytesIn + 1, frameRem := s.frameRem - 1
      seq := if s.frameRem = 1 then .done else .data
      irqPend := if s.frameRem = 1 then true else s.irqPend })

/-- R97, R100: LZW.CLEAR; two in a row are the same as one. -/
def Obligations.ClearResetsDictionary : Prop :=
  ∀ (s : State) (c : Code), c.toNat = 2 ^ s.root.toNat →
    ∃ t, exec (.lzwClear c) s = .next t ∧
      t = { s with
        ctUsed := BitVec.ofNat 13 (2 ^ s.root.toNat + 2)
        width := BitVec.ofNat 4 (s.root.toNat + 1), oldValid := false } ∧
      exec (.lzwClear c) t = .next t

/-- R101: LZW.FIRST: the code is a root; its one symbol, the code modulo `2^P_SYMBOL_BITS` (R96; 256 on this
hardware), is placed at the cursor. -/
def Obligations.FirstCodeRule : Prop :=
  ∀ (s : State) (c : Code), s.StreamInv → s.oldValid = false → s.defines c.toNat →
    c.toNat < 2 ^ s.root.toNat ∧
    ∃ m, s.pixelOut s.cursor (BitVec.ofNat 12 (c.toNat % 2 ^ s.params.symbolBits)) = .next { s with canvas := m } ∧
      exec (.lzwFirst c) s =
        .next { s with canvas := m, cursor := s.cursor + 1, oldCode := c, oldValid := true }

/-- R102, R105: LZW.BAD_FIRST and LZW.BEYOND raise DECODE with sub-cause 1 and 2 and touch nothing else. -/
def Obligations.BadCodesRaiseDecode : Prop :=
  ∀ (s : State) (c : Code), c.toNat ≠ 2 ^ s.root.toNat → c.toNat ≠ 2 ^ s.root.toNat + 1 →
    (s.oldValid = false → s.ctUsed.toNat ≤ c.toNat → exec (.lzwBadFirst c) s = .next { s with
      errCode := .decode, errInfo := BitVec.ofNat 32 (1 * 2 ^ 16 + c.toNat)
      frameRem := 0, seq := .error, irqPend := true }) ∧
    (s.oldValid = true → s.ctUsed.toNat < c.toNat → exec (.lzwBeyond c) s = .next { s with
      errCode := .decode, errInfo := BitVec.ofNat 32 (2 * 2 ^ 16 + c.toNat)
      frameRem := 0, seq := .error, irqPend := true })

/-- R92, R93, R106: `Insert`: the entry, the occupancy, the growth of the width at the nine occupancies; a full
dictionary takes nothing. -/
def Obligations.InsertionRule : Prop :=
  ∀ (s : State) (p : Code) (v : Symbol),
    (s.ctUsed.toNat < 4096 → ∀ d, s.entry p = some d →
      s.insert p v = .next { s with
        dict := Memory.write s.dict s.ctUsed.toNat
          { parent := p, length := d.length + 1, value := v, firstchar := d.firstchar }
        ctUsed := s.ctUsed + 1
        width := if s.ctUsed.toNat + 1 ∈ [8, 16, 32, 64, 128, 256, 512, 1024, 2048] then s.width + 1
          else s.width }) ∧
    (s.ctUsed.toNat = 4096 → s.insert p v = .next s)

/-- R103: LZW.KNOWN: emit the code's entry, insert (old code, its `firstchar`) unless the dictionary is full,
and the code becomes the old code. -/
def Obligations.KnownCodeRule : Prop :=
  ∀ (s : State) (c : Code), s.StreamInv → s.oldValid = true → s.defines c.toNat →
    ∃ dc dp m, Memory.read s.dict c.toNat = some dc ∧
      Memory.read s.dict s.oldCode.toNat = some dp ∧
      s.emit c = .next { s with canvas := m, cursor := s.cursor + dc.length.toNat + 1 } ∧
      exec (.lzwKnown c) s = .next
        (if s.ctUsed.toNat < 4096 then
          { s with
            canvas := m, cursor := s.cursor + dc.length.toNat + 1, oldCode := c
            dict := Memory.write s.dict s.ctUsed.toNat
              { parent := s.oldCode, length := dp.length + 1, value := dc.firstchar
                firstchar := dp.firstchar }
            ctUsed := s.ctUsed + 1
            width := if s.ctUsed.toNat + 1 ∈ [8, 16, 32, 64, 128, 256, 512, 1024, 2048]
              then s.width + 1 else s.width }
        else { s with canvas := m, cursor := s.cursor + dc.length.toNat + 1, oldCode := c })

/-- R104: LZW.PENDING: insert (old code, the old code's `firstchar`), emit the new entry, one symbol longer
than the old code's, and the code becomes the old code. -/
def Obligations.PendingCodeRule : Prop :=
  ∀ (s : State) (c : Code), s.StreamInv → s.oldValid = true → c.toNat = s.ctUsed.toNat →
    ∃ dp m, Memory.read s.dict s.oldCode.toNat = some dp ∧
      let u : State := { s with
        dict := Memory.write s.dict c.toNat
          { parent := s.oldCode, length := dp.length + 1, value := dp.firstchar
            firstchar := dp.firstchar }
        ctUsed := s.ctUsed + 1
        width := if s.ctUsed.toNat + 1 ∈ [8, 16, 32, 64, 128, 256, 512, 1024, 2048] then s.width + 1
          else s.width }
      u.emit c = .next { u with canvas := m, cursor := s.cursor + dp.length.toNat + 2 } ∧
      exec (.lzwPending c) s =
        .next { u with canvas := m, cursor := s.cursor + dp.length.toNat + 2, oldCode := c }

/-- R107, R108: `Emit` places the `length + 1` symbols the entry stands for, the first being its `firstchar` and
the last its `value`, at the pixels from the cursor on, highest first, and advances the cursor past them. -/
def Obligations.EmissionRule : Prop :=
  ∀ (s : State) (e : Code), s.StreamInv → s.defines e.toNat →
    ∃ d, Memory.read s.dict e.toNat = some d ∧
      let syms := s.expansion d.length.toNat e
      syms.length = d.length.toNat + 1 ∧ syms.head? = some d.firstchar ∧
      syms.getLast? = some d.value ∧
      ∃ m, s.emit e = .next { s with canvas := m, cursor := s.cursor + d.length.toNat + 1 } ∧
        (List.range (d.length.toNat + 1)).reverse.foldl
          (fun r off => andThen r fun t => t.pixelOut (s.cursor + off) (syms.getD off 0)) (.next s) =
          .next { s with canvas := m }

/-- R131: errors are precise: the state in ERROR is the one the bits before the failing code's last bit left,
with the accumulator empty and the error entered; the failing code, of class BAD_FIRST or BEYOND, changed
nothing, and no later bit was processed. -/
def Obligations.DecodeErrorsArePrecise : Prop :=
  ∀ (s t : State) (b : Byte), s.Inv → s.seq = .data → exec (.sbData b) s = .next t →
    t.seq = .error →
    ∃ n u, n < 8 ∧
      acceptBits ((bitsOf b).take n)
        { s with bytesIn := s.bytesIn + 1, frameRem := s.frameRem - 1 } = .next u ∧
      u.seq = .data ∧ u.eoiFlag = false ∧ u.pendCnt.toNat + 1 = u.width.toNat ∧
      let c := u.pendVal.toNat + (b.getLsbD n).toNat * 2 ^ u.pendCnt.toNat
      c < 4096 ∧
      ((u.classOf (BitVec.ofNat 12 c) = .badFirst ∧ t.errInfo = BitVec.ofNat 32 (1 * 2 ^ 16 + c)) ∨
        (u.classOf (BitVec.ofNat 12 c) = .beyond ∧ t.errInfo = BitVec.ofNat 32 (2 * 2 ^ 16 + c))) ∧
      t = ({ u with pendVal := 0, pendCnt := 0 } : State).raiseError .decode t.errInfo

/-! ### The raster reconstructor -/

/-- R111 to R115, R56: where a pixel goes, what is dropped, which bytes are written and that no other byte
changes. A palette has at most 256 entries, so a symbol that is not dropped has 8 bits. -/
def Obligations.PixelPlacement : Prop :=
  ∀ (s : State) (k : Nat) (v : Symbol),
    (s.imgWidth.toNat * s.imgHeight.toNat ≤ k → s.pixelOut k v = .next s) ∧
    (k < s.imgWidth.toNat * s.imgHeight.toNat →
      s.canvasBase.toNat + s.screenWidth.toNat * s.screenHeight.toNat * (if s.fmtRgba then 4 else 3)
        ≤ 2 ^ s.params.addrBits →
      let row := s.rowEntry (k / s.imgWidth.toNat)
      let x := s.imgLeft.toNat + k % s.imgWidth.toNat
      let y := s.imgTop.toNat + row.toNat
      let bpp := if s.fmtRgba then 4 else 3
      let base := s.canvasBase.toNat + (y * s.screenWidth.toNat + x) * bpp
      if s.screenWidth.toNat ≤ x ∨ s.screenHeight.toNat ≤ y ∨
          2 ^ (s.palSizeLog2m1.toNat + 1) ≤ v.toNat then s.pixelOut k v = .next s
      else ∃ m, s.pixelOut k v = .next { s with canvas := m } ∧
        Memory.read m base = some (s.palEntry (v.setWidth 8)).r ∧
        Memory.read m (base + 1) = some (s.palEntry (v.setWidth 8)).g ∧
        Memory.read m (base + 2) = some (s.palEntry (v.setWidth 8)).b ∧
        (s.fmtRgba = true → Memory.read m (base + 3) = some (s.palEntry (v.setWidth 8)).a) ∧
        ∀ a, a < base ∨ base + bpp ≤ a → Memory.read m a = Memory.read s.canvas a)

/-- R110: the row order is a permutation of `[0, H)`, its closed form, that distinct pixel indices reach
distinct image and screen positions, and the rule's examples. -/
def Obligations.RowOrderPermutation : Prop :=
  (∀ (il : Bool) (h : Nat), (rowOrder il h).Perm (List.range h)) ∧
  (∀ h i : Nat, i < h →
    let n1 := (h + 7) / 8
    let n2 := (h - 4 + 7) / 8
    let n3 := (h - 2 + 3) / 4
    n1 + n2 + n3 + h / 2 = h ∧
    (rowOrder true h)[i]? = some
      (if i < n1 then 8 * i
        else if i < n1 + n2 then 8 * (i - n1) + 4
        else if i < n1 + n2 + n3 then 4 * (i - n1 - n2) + 2
        else 2 * (i - n1 - n2 - n3) + 1)) ∧
  (∀ (il : Bool) (w h left top k k' : Nat), k < w * h → k' < w * h → k ≠ k' →
    ∃ row row', (rowOrder il h)[k / w]? = some row ∧ (rowOrder il h)[k' / w]? = some row' ∧
      (k % w, row) ≠ (k' % w, row') ∧
      (left + k % w, top + row) ≠ (left + k' % w, top + row')) ∧
  rowOrder true 4 = [0, 2, 1, 3] ∧ rowOrder true 8 = [0, 4, 2, 6, 1, 3, 5, 7] ∧
  rowOrder true 10 = [0, 8, 4, 2, 6, 1, 3, 5, 7, 9] ∧ rowOrder true 1 = [0] ∧
  rowOrder true 2 = [0, 1]

/-- R118, for one pixel: symbol `k` of an interlaced image is painted exactly as symbol
`rowmap[k / W] * W + k mod W` of the equivalent image in final row order. -/
def Obligations.InterlaceChangesOrderOnly : Prop :=
  ∀ (s : State) (k row : Nat) (v : Symbol) (m : List Host.Cell),
    k < s.imgWidth.toNat * s.imgHeight.toNat →
    (rowOrder true s.imgHeight.toNat)[k / s.imgWidth.toNat]? = some row →
    let i := ({ s with interlace := true } : State).rowMapBuild
    let n := ({ s with interlace := false } : State).rowMapBuild
    (i.pixelOut k v = .next { i with canvas := m } ↔
      n.pixelOut (row * s.imgWidth.toNat + k % s.imgWidth.toNat) v = .next { n with canvas := m })
end

