-- ==== Sys2Proof/Laws/Memory.lean ====
section
/-! SUPPORT. The laws of an address space: read after write, read after fill, and that both keep the canonical
form and any bound on the addresses. -/

namespace Sys2Proof.Machine

theorem Memory.read_write_same {α : Type} (m : Memory α) (a : Nat) (v : α) :
    Memory.read (Memory.write m a v) a = some v := by
  induction m with
  | nil => simp [Memory.write, Memory.read]
  | cons kw m ih =>
    obtain ⟨k, w⟩ := kw
    simp only [Memory.write]
    split
    · simp [Memory.read]
    · split
      · simp [Memory.read]
      · rename_i _ h
        simp [Memory.read, h, ih]

theorem Memory.read_write_other {α : Type} (m : Memory α) {a b : Nat} (v : α) (h : b ≠ a) :
    Memory.read (Memory.write m a v) b = Memory.read m b := by
  induction m with
  | nil => simp [Memory.write, Memory.read, h]
  | cons kw m ih =>
    obtain ⟨k, w⟩ := kw
    simp only [Memory.write]
    split
    · simp [Memory.read, h]
    · split
      · rename_i _ hk
        subst hk
        simp [Memory.read, h]
      · simp [Memory.read, ih]

theorem Memory.read_write {α : Type} (m : Memory α) (a b : Nat) (v : α) :
    Memory.read (Memory.write m a v) b = if b = a then some v else Memory.read m b := by
  split
  · rename_i h
    subst h
    exact Memory.read_write_same m b v
  · rename_i h
    exact Memory.read_write_other m v h

/-- What is read is listed. -/
theorem Memory.mem_of_read {α : Type} {m : Memory α} {a : Nat} {v : α}
    (h : Memory.read m a = some v) : (a, v) ∈ m := by
  induction m with
  | nil => cases h
  | cons kw m ih =>
    obtain ⟨k, w⟩ := kw
    simp only [Memory.read] at h
    split at h
    · rename_i hk
      rw [hk, Option.some.inj h]
      exact List.mem_cons_self
    · exact List.mem_cons_of_mem _ (ih h)

/-- The cells of a write are old ones and the one written. -/
theorem Memory.mem_write {α : Type} {m : Memory α} {a : Nat} {v : α} {cell : Nat × α}
    (h : cell ∈ Memory.write m a v) : cell = (a, v) ∨ cell ∈ m := by
  induction m with
  | nil =>
    exact .inl (List.mem_singleton.mp h)
  | cons kw m ih =>
    obtain ⟨k, w⟩ := kw
    simp only [Memory.write] at h
    split at h
    · rcases List.mem_cons.mp h with h | h
      · exact .inl h
      · exact .inr h
    · split at h
      · rcases List.mem_cons.mp h with h | h
        · exact .inl h
        · exact .inr (List.mem_cons_of_mem _ h)
      · rcases List.mem_cons.mp h with h | h
        · exact .inr (by rw [h]; exact List.mem_cons_self)
        · exact (ih h).imp id (List.mem_cons_of_mem _)

/-- The canonical form at a cell: every address after it is higher. -/
theorem Memory.wf_cons {α : Type} (k : Nat) (w : α) (m : Memory α) :
    Memory.wf ((k, w) :: m) ↔ (∀ cell ∈ m, k < cell.1) ∧ Memory.wf m := by
  simp [Memory.wf, List.pairwise_cons]

theorem Memory.wf_write {α : Type} {m : Memory α} (a : Nat) (v : α) (h : Memory.wf m) :
    Memory.wf (Memory.write m a v) := by
  induction m with
  | nil => simp [Memory.write, Memory.wf]
  | cons kw m ih =>
    obtain ⟨k, w⟩ := kw
    obtain ⟨hk, hm⟩ := (Memory.wf_cons k w m).mp h
    simp only [Memory.write]
    split
    · rename_i hlt
      refine (Memory.wf_cons _ _ _).mpr ⟨fun cell hc => ?_, h⟩
      rcases List.mem_cons.mp hc with hc | hc
      · rw [hc]; exact hlt
      · exact Nat.lt_trans hlt (hk cell hc)
    · split
      · rename_i _ heq
        subst heq
        exact (Memory.wf_cons _ _ _).mpr ⟨hk, hm⟩
      · rename_i h1 h2
        refine (Memory.wf_cons _ _ _).mpr ⟨fun cell hc => ?_, ih hm⟩
        rcases Memory.mem_write hc with hc | hc
        · rw [hc]
          simp only
          omega
        · exact hk cell hc

theorem Memory.write_below {α : Type} {m : Memory α} {a n : Nat} (v : α)
    (h : ∀ cell ∈ m, cell.1 < n) (ha : a < n) : ∀ cell ∈ Memory.write m a v, cell.1 < n := by
  intro cell hc
  rcases Memory.mem_write hc with hc | hc
  · rw [hc]
    exact ha
  · exact h cell hc

/-! ### `Memory.numbered` and `Memory.fill` -/

theorem Memory.read_numbered {α : Type} (vs : List α) (n i : Nat) :
    Memory.read (Memory.numbered n vs) i = if n ≤ i then vs[i - n]? else none := by
  induction vs generalizing n with
  | nil => simp [Memory.numbered, Memory.read]
  | cons v vs ih =>
    simp only [Memory.numbered, Memory.read, ih]
    rcases Nat.lt_trichotomy i n with h | h | h
    · simp [Nat.ne_of_lt h, show ¬ n + 1 ≤ i by omega, show ¬ n ≤ i by omega]
    · subst h; simp
    · obtain ⟨d, rfl⟩ : ∃ d, i = n + d + 1 := ⟨i - n - 1, by omega⟩
      simp [show n + d + 1 ≠ n by omega, show n + 1 ≤ n + d + 1 by omega,
        show n ≤ n + d + 1 by omega, show n + d + 1 - n = d + 1 by omega,
        show n + d + 1 - (n + 1) = d by omega]

theorem Memory.mem_numbered {α : Type} {vs : List α} {n : Nat} {cell : Nat × α}
    (h : cell ∈ Memory.numbered n vs) : n ≤ cell.1 ∧ cell.1 < n + vs.length := by
  induction vs generalizing n with
  | nil => simp [Memory.numbered] at h
  | cons v vs ih =>
    rcases List.mem_cons.mp h with h | h
    · rw [h]; simp
    · have := ih h
      simp only [List.length_cons]
      omega

theorem Memory.content_mem_numbered {α : Type} {vs : List α} {n : Nat} {cell : Nat × α}
    (h : cell ∈ Memory.numbered n vs) : cell.2 ∈ vs := by
  induction vs generalizing n with
  | nil => simp [Memory.numbered] at h
  | cons v vs ih =>
    rcases List.mem_cons.mp h with h | h
    · rw [h]; exact List.mem_cons_self
    · exact List.mem_cons_of_mem _ (ih h)

theorem Memory.wf_numbered {α : Type} (vs : List α) (n : Nat) : Memory.wf (Memory.numbered n vs) := by
  induction vs generalizing n with
  | nil => simp [Memory.numbered, Memory.wf]
  | cons v vs ih =>
    refine (Memory.wf_cons _ _ _).mpr ⟨fun cell hc => ?_, ih (n + 1)⟩
    have := Memory.mem_numbered hc
    omega

theorem Memory.read_append {α : Type} (m m' : Memory α) (i : Nat) :
    Memory.read (m ++ m') i = (Memory.read m i).or (Memory.read m' i) := by
  induction m with
  | nil => simp [Memory.read]
  | cons kw m ih =>
    obtain ⟨k, w⟩ := kw
    simp only [List.cons_append, Memory.read]
    split
    · simp
    · exact ih

theorem Memory.read_filter {α : Type} (m : Memory α) (p : Nat → Bool) (i : Nat) :
    Memory.read (m.filter fun cell => p cell.1) i = if p i then Memory.read m i else none := by
  induction m with
  | nil => simp [Memory.read]
  | cons kw m ih =>
    obtain ⟨k, w⟩ := kw
    by_cases hk : p k <;> by_cases hi : i = k
    · subst hi; simp [Memory.read, hk]
    · simp [Memory.read, hk, hi, ih]
    · subst hi; simp [hk, ih]
    · simp [Memory.read, hk, hi, ih]

/-- A fill gives the listed contents below the list's length and keeps the addresses above. -/
theorem Memory.read_fill {α : Type} (m : Memory α) (vs : List α) (i : Nat) :
    Memory.read (Memory.fill m vs) i = if i < vs.length then vs[i]? else Memory.read m i := by
  unfold Memory.fill
  rw [Memory.read_append, Memory.read_numbered,
    Memory.read_filter m (fun k => decide (vs.length ≤ k)) i]
  by_cases h : i < vs.length
  · simp [h, show ¬ vs.length ≤ i by omega]
  · simp [h, show vs.length ≤ i by omega]

theorem Memory.wf_fill {α : Type} {m : Memory α} (vs : List α) (h : Memory.wf m) :
    Memory.wf (Memory.fill m vs) := by
  have hf : Memory.wf (m.filter fun cell => decide (vs.length ≤ cell.1)) :=
    List.Pairwise.sublist (List.Sublist.map _ List.filter_sublist) h
  have hn := Memory.wf_numbered vs 0
  unfold Memory.wf Memory.fill at *
  rw [List.map_append, List.pairwise_append]
  refine ⟨hn, hf, ?_⟩
  intro a ha b hb
  obtain ⟨x, hx, rfl⟩ := List.mem_map.mp ha
  obtain ⟨y, hy, rfl⟩ := List.mem_map.mp hb
  have h1 := (Memory.mem_numbered hx).2
  have h2 : vs.length ≤ y.1 := by simpa using (List.mem_filter.mp hy).2
  omega

/-- The cells of a fill are old ones and cells with the listed contents. -/
theorem Memory.mem_fill {α : Type} {m : Memory α} {vs : List α} {cell : Nat × α}
    (h : cell ∈ Memory.fill m vs) : cell.2 ∈ vs ∨ cell ∈ m :=
  (List.mem_append.mp h).imp Memory.content_mem_numbered fun h => (List.mem_filter.mp h).1

theorem Memory.fill_below {α : Type} {m : Memory α} {vs : List α} {n : Nat}
    (h : ∀ cell ∈ m, cell.1 < n) (hv : vs.length ≤ n) : ∀ cell ∈ Memory.fill m vs, cell.1 < n := by
  intro cell hc
  rcases List.mem_append.mp hc with hc | hc
  · have := (Memory.mem_numbered hc).2
    omega
  · exact h cell (List.mem_filter.mp hc).1

end Sys2Proof.Machine
end

