-- ==== Sys2Proof/Laws/State.lean ====
section
/-! SUPPORT. One lemma per field for each named update of the state. -/

namespace Sys2Proof.Machine

/-! ### `State.raiseError` -/

@[simp] theorem State.raiseError_params (s : State) (code : ErrCode) (info : Word) : (s.raiseError code info).params = s.params := rfl
@[simp] theorem State.raiseError_seq (s : State) (code : ErrCode) (info : Word) : (s.raiseError code info).seq = .error := rfl
@[simp] theorem State.raiseError_frameRem (s : State) (code : ErrCode) (info : Word) : (s.raiseError code info).frameRem = 0 := rfl
@[simp] theorem State.raiseError_bytesIn (s : State) (code : ErrCode) (info : Word) : (s.raiseError code info).bytesIn = s.bytesIn := rfl
@[simp] theorem State.raiseError_eoiFlag (s : State) (code : ErrCode) (info : Word) : (s.raiseError code info).eoiFlag = s.eoiFlag := rfl
@[simp] theorem State.raiseError_oldValid (s : State) (code : ErrCode) (info : Word) : (s.raiseError code info).oldValid = s.oldValid := rfl
@[simp] theorem State.raiseError_irqPend (s : State) (code : ErrCode) (info : Word) : (s.raiseError code info).irqPend = true := rfl
@[simp] theorem State.raiseError_root (s : State) (code : ErrCode) (info : Word) : (s.raiseError code info).root = s.root := rfl
@[simp] theorem State.raiseError_width (s : State) (code : ErrCode) (info : Word) : (s.raiseError code info).width = s.width := rfl
@[simp] theorem State.raiseError_ctUsed (s : State) (code : ErrCode) (info : Word) : (s.raiseError code info).ctUsed = s.ctUsed := rfl
@[simp] theorem State.raiseError_oldCode (s : State) (code : ErrCode) (info : Word) : (s.raiseError code info).oldCode = s.oldCode := rfl
@[simp] theorem State.raiseError_pendVal (s : State) (code : ErrCode) (info : Word) : (s.raiseError code info).pendVal = s.pendVal := rfl
@[simp] theorem State.raiseError_pendCnt (s : State) (code : ErrCode) (info : Word) : (s.raiseError code info).pendCnt = s.pendCnt := rfl
@[simp] theorem State.raiseError_dict (s : State) (code : ErrCode) (info : Word) : (s.raiseError code info).dict = s.dict := rfl
@[simp] theorem State.raiseError_pal (s : State) (code : ErrCode) (info : Word) : (s.raiseError code info).pal = s.pal := rfl
@[simp] theorem State.raiseError_rowmap (s : State) (code : ErrCode) (info : Word) : (s.raiseError code info).rowmap = s.rowmap := rfl
@[simp] theorem State.raiseError_cursor (s : State) (code : ErrCode) (info : Word) : (s.raiseError code info).cursor = s.cursor := rfl
@[simp] theorem State.raiseError_errCode (s : State) (code : ErrCode) (info : Word) : (s.raiseError code info).errCode = code := rfl
@[simp] theorem State.raiseError_errInfo (s : State) (code : ErrCode) (info : Word) : (s.raiseError code info).errInfo = info := rfl
@[simp] theorem State.raiseError_irqEn (s : State) (code : ErrCode) (info : Word) : (s.raiseError code info).irqEn = s.irqEn := rfl
@[simp] theorem State.raiseError_rootCodeSize (s : State) (code : ErrCode) (info : Word) : (s.raiseError code info).rootCodeSize = s.rootCodeSize := rfl
@[simp] theorem State.raiseError_imgLeft (s : State) (code : ErrCode) (info : Word) : (s.raiseError code info).imgLeft = s.imgLeft := rfl
@[simp] theorem State.raiseError_imgTop (s : State) (code : ErrCode) (info : Word) : (s.raiseError code info).imgTop = s.imgTop := rfl
@[simp] theorem State.raiseError_imgWidth (s : State) (code : ErrCode) (info : Word) : (s.raiseError code info).imgWidth = s.imgWidth := rfl
@[simp] theorem State.raiseError_imgHeight (s : State) (code : ErrCode) (info : Word) : (s.raiseError code info).imgHeight = s.imgHeight := rfl
@[simp] theorem State.raiseError_interlace (s : State) (code : ErrCode) (info : Word) : (s.raiseError code info).interlace = s.interlace := rfl
@[simp] theorem State.raiseError_screenWidth (s : State) (code : ErrCode) (info : Word) : (s.raiseError code info).screenWidth = s.screenWidth := rfl
@[simp] theorem State.raiseError_screenHeight (s : State) (code : ErrCode) (info : Word) : (s.raiseError code info).screenHeight = s.screenHeight := rfl
@[simp] theorem State.raiseError_canvasBase (s : State) (code : ErrCode) (info : Word) : (s.raiseError code info).canvasBase = s.canvasBase := rfl
@[simp] theorem State.raiseError_fmtRgba (s : State) (code : ErrCode) (info : Word) : (s.raiseError code info).fmtRgba = s.fmtRgba := rfl
@[simp] theorem State.raiseError_palSizeLog2m1 (s : State) (code : ErrCode) (info : Word) : (s.raiseError code info).palSizeLog2m1 = s.palSizeLog2m1 := rfl
@[simp] theorem State.raiseError_canvas (s : State) (code : ErrCode) (info : Word) : (s.raiseError code info).canvas = s.canvas := rfl
@[simp] theorem State.raiseError_rdData (s : State) (code : ErrCode) (info : Word) : (s.raiseError code info).rdData = s.rdData := rfl
@[simp] theorem State.raiseError_env (s : State) (code : ErrCode) (info : Word) : (s.raiseError code info).env = s.env := rfl

/-! ### `State.softReset` -/

@[simp] theorem State.softReset_params (s : State) : s.softReset.params = s.params := rfl
@[simp] theorem State.softReset_seq (s : State) : s.softReset.seq = .idle := rfl
@[simp] theorem State.softReset_frameRem (s : State) : s.softReset.frameRem = 0 := rfl
@[simp] theorem State.softReset_bytesIn (s : State) : s.softReset.bytesIn = 0 := rfl
@[simp] theorem State.softReset_eoiFlag (s : State) : s.softReset.eoiFlag = false := rfl
@[simp] theorem State.softReset_oldValid (s : State) : s.softReset.oldValid = false := rfl
@[simp] theorem State.softReset_irqPend (s : State) : s.softReset.irqPend = false := rfl
@[simp] theorem State.softReset_root (s : State) : s.softReset.root = 0 := rfl
@[simp] theorem State.softReset_width (s : State) : s.softReset.width = 0 := rfl
@[simp] theorem State.softReset_ctUsed (s : State) : s.softReset.ctUsed = 0 := rfl
@[simp] theorem State.softReset_oldCode (s : State) : s.softReset.oldCode = 0 := rfl
@[simp] theorem State.softReset_pendVal (s : State) : s.softReset.pendVal = 0 := rfl
@[simp] theorem State.softReset_pendCnt (s : State) : s.softReset.pendCnt = 0 := rfl
@[simp] theorem State.softReset_dict (s : State) : s.softReset.dict = s.dict := rfl
@[simp] theorem State.softReset_pal (s : State) : s.softReset.pal = s.pal := rfl
@[simp] theorem State.softReset_rowmap (s : State) : s.softReset.rowmap = s.rowmap := rfl
@[simp] theorem State.softReset_cursor (s : State) : s.softReset.cursor = 0 := rfl
@[simp] theorem State.softReset_errCode (s : State) : s.softReset.errCode = .none := rfl
@[simp] theorem State.softReset_errInfo (s : State) : s.softReset.errInfo = 0 := rfl
@[simp] theorem State.softReset_irqEn (s : State) : s.softReset.irqEn = s.irqEn := rfl
@[simp] theorem State.softReset_rootCodeSize (s : State) : s.softReset.rootCodeSize = s.rootCodeSize := rfl
@[simp] theorem State.softReset_imgLeft (s : State) : s.softReset.imgLeft = s.imgLeft := rfl
@[simp] theorem State.softReset_imgTop (s : State) : s.softReset.imgTop = s.imgTop := rfl
@[simp] theorem State.softReset_imgWidth (s : State) : s.softReset.imgWidth = s.imgWidth := rfl
@[simp] theorem State.softReset_imgHeight (s : State) : s.softReset.imgHeight = s.imgHeight := rfl
@[simp] theorem State.softReset_interlace (s : State) : s.softReset.interlace = s.interlace := rfl
@[simp] theorem State.softReset_screenWidth (s : State) : s.softReset.screenWidth = s.screenWidth := rfl
@[simp] theorem State.softReset_screenHeight (s : State) : s.softReset.screenHeight = s.screenHeight := rfl
@[simp] theorem State.softReset_canvasBase (s : State) : s.softReset.canvasBase = s.canvasBase := rfl
@[simp] theorem State.softReset_fmtRgba (s : State) : s.softReset.fmtRgba = s.fmtRgba := rfl
@[simp] theorem State.softReset_palSizeLog2m1 (s : State) : s.softReset.palSizeLog2m1 = s.palSizeLog2m1 := rfl
@[simp] theorem State.softReset_canvas (s : State) : s.softReset.canvas = s.canvas := rfl
@[simp] theorem State.softReset_rdData (s : State) : s.softReset.rdData = s.rdData := rfl
@[simp] theorem State.softReset_env (s : State) : s.softReset.env = s.env := rfl

/-! ### `State.rowMapBuild` -/

@[simp] theorem State.rowMapBuild_params (s : State) : s.rowMapBuild.params = s.params := rfl
@[simp] theorem State.rowMapBuild_seq (s : State) : s.rowMapBuild.seq = s.seq := rfl
@[simp] theorem State.rowMapBuild_frameRem (s : State) : s.rowMapBuild.frameRem = s.frameRem := rfl
@[simp] theorem State.rowMapBuild_bytesIn (s : State) : s.rowMapBuild.bytesIn = s.bytesIn := rfl
@[simp] theorem State.rowMapBuild_eoiFlag (s : State) : s.rowMapBuild.eoiFlag = s.eoiFlag := rfl
@[simp] theorem State.rowMapBuild_oldValid (s : State) : s.rowMapBuild.oldValid = s.oldValid := rfl
@[simp] theorem State.rowMapBuild_irqPend (s : State) : s.rowMapBuild.irqPend = s.irqPend := rfl
@[simp] theorem State.rowMapBuild_root (s : State) : s.rowMapBuild.root = s.root := rfl
@[simp] theorem State.rowMapBuild_width (s : State) : s.rowMapBuild.width = s.width := rfl
@[simp] theorem State.rowMapBuild_ctUsed (s : State) : s.rowMapBuild.ctUsed = s.ctUsed := rfl
@[simp] theorem State.rowMapBuild_oldCode (s : State) : s.rowMapBuild.oldCode = s.oldCode := rfl
@[simp] theorem State.rowMapBuild_pendVal (s : State) : s.rowMapBuild.pendVal = s.pendVal := rfl
@[simp] theorem State.rowMapBuild_pendCnt (s : State) : s.rowMapBuild.pendCnt = s.pendCnt := rfl
@[simp] theorem State.rowMapBuild_dict (s : State) : s.rowMapBuild.dict = s.dict := rfl
@[simp] theorem State.rowMapBuild_pal (s : State) : s.rowMapBuild.pal = s.pal := rfl
@[simp] theorem State.rowMapBuild_rowmap (s : State) : s.rowMapBuild.rowmap = Memory.fill s.rowmap ((rowOrder s.interlace s.imgHeight.toNat).map (BitVec.ofNat 16)) := rfl
@[simp] theorem State.rowMapBuild_cursor (s : State) : s.rowMapBuild.cursor = s.cursor := rfl
@[simp] theorem State.rowMapBuild_errCode (s : State) : s.rowMapBuild.errCode = s.errCode := rfl
@[simp] theorem State.rowMapBuild_errInfo (s : State) : s.rowMapBuild.errInfo = s.errInfo := rfl
@[simp] theorem State.rowMapBuild_irqEn (s : State) : s.rowMapBuild.irqEn = s.irqEn := rfl
@[simp] theorem State.rowMapBuild_rootCodeSize (s : State) : s.rowMapBuild.rootCodeSize = s.rootCodeSize := rfl
@[simp] theorem State.rowMapBuild_imgLeft (s : State) : s.rowMapBuild.imgLeft = s.imgLeft := rfl
@[simp] theorem State.rowMapBuild_imgTop (s : State) : s.rowMapBuild.imgTop = s.imgTop := rfl
@[simp] theorem State.rowMapBuild_imgWidth (s : State) : s.rowMapBuild.imgWidth = s.imgWidth := rfl
@[simp] theorem State.rowMapBuild_imgHeight (s : State) : s.rowMapBuild.imgHeight = s.imgHeight := rfl
@[simp] theorem State.rowMapBuild_interlace (s : State) : s.rowMapBuild.interlace = s.interlace := rfl
@[simp] theorem State.rowMapBuild_screenWidth (s : State) : s.rowMapBuild.screenWidth = s.screenWidth := rfl
@[simp] theorem State.rowMapBuild_screenHeight (s : State) : s.rowMapBuild.screenHeight = s.screenHeight := rfl
@[simp] theorem State.rowMapBuild_canvasBase (s : State) : s.rowMapBuild.canvasBase = s.canvasBase := rfl
@[simp] theorem State.rowMapBuild_fmtRgba (s : State) : s.rowMapBuild.fmtRgba = s.fmtRgba := rfl
@[simp] theorem State.rowMapBuild_palSizeLog2m1 (s : State) : s.rowMapBuild.palSizeLog2m1 = s.palSizeLog2m1 := rfl
@[simp] theorem State.rowMapBuild_canvas (s : State) : s.rowMapBuild.canvas = s.canvas := rfl
@[simp] theorem State.rowMapBuild_rdData (s : State) : s.rowMapBuild.rdData = s.rdData := rfl
@[simp] theorem State.rowMapBuild_env (s : State) : s.rowMapBuild.env = s.env := rfl

/-! ### `State.dictInit` -/

@[simp] theorem State.dictInit_params (s : State) : s.dictInit.params = s.params := rfl
@[simp] theorem State.dictInit_seq (s : State) : s.dictInit.seq = s.seq := rfl
@[simp] theorem State.dictInit_frameRem (s : State) : s.dictInit.frameRem = s.frameRem := rfl
@[simp] theorem State.dictInit_bytesIn (s : State) : s.dictInit.bytesIn = s.bytesIn := rfl
@[simp] theorem State.dictInit_eoiFlag (s : State) : s.dictInit.eoiFlag = s.eoiFlag := rfl
@[simp] theorem State.dictInit_oldValid (s : State) : s.dictInit.oldValid = s.oldValid := rfl
@[simp] theorem State.dictInit_irqPend (s : State) : s.dictInit.irqPend = s.irqPend := rfl
@[simp] theorem State.dictInit_root (s : State) : s.dictInit.root = s.root := rfl
@[simp] theorem State.dictInit_width (s : State) : s.dictInit.width = s.width := rfl
@[simp] theorem State.dictInit_ctUsed (s : State) : s.dictInit.ctUsed = s.ctUsed := rfl
@[simp] theorem State.dictInit_oldCode (s : State) : s.dictInit.oldCode = s.oldCode := rfl
@[simp] theorem State.dictInit_pendVal (s : State) : s.dictInit.pendVal = s.pendVal := rfl
@[simp] theorem State.dictInit_pendCnt (s : State) : s.dictInit.pendCnt = s.pendCnt := rfl
@[simp] theorem State.dictInit_dict (s : State) : s.dictInit.dict = Memory.fill s.dict ((List.range s.numRoot).map (rootEntry s.params.symbolBits)) := rfl
@[simp] theorem State.dictInit_pal (s : State) : s.dictInit.pal = s.pal := rfl
@[simp] theorem State.dictInit_rowmap (s : State) : s.dictInit.rowmap = s.rowmap := rfl
@[simp] theorem State.dictInit_cursor (s : State) : s.dictInit.cursor = s.cursor := rfl
@[simp] theorem State.dictInit_errCode (s : State) : s.dictInit.errCode = s.errCode := rfl
@[simp] theorem State.dictInit_errInfo (s : State) : s.dictInit.errInfo = s.errInfo := rfl
@[simp] theorem State.dictInit_irqEn (s : State) : s.dictInit.irqEn = s.irqEn := rfl
@[simp] theorem State.dictInit_rootCodeSize (s : State) : s.dictInit.rootCodeSize = s.rootCodeSize := rfl
@[simp] theorem State.dictInit_imgLeft (s : State) : s.dictInit.imgLeft = s.imgLeft := rfl
@[simp] theorem State.dictInit_imgTop (s : State) : s.dictInit.imgTop = s.imgTop := rfl
@[simp] theorem State.dictInit_imgWidth (s : State) : s.dictInit.imgWidth = s.imgWidth := rfl
@[simp] theorem State.dictInit_imgHeight (s : State) : s.dictInit.imgHeight = s.imgHeight := rfl
@[simp] theorem State.dictInit_interlace (s : State) : s.dictInit.interlace = s.interlace := rfl
@[simp] theorem State.dictInit_screenWidth (s : State) : s.dictInit.screenWidth = s.screenWidth := rfl
@[simp] theorem State.dictInit_screenHeight (s : State) : s.dictInit.screenHeight = s.screenHeight := rfl
@[simp] theorem State.dictInit_canvasBase (s : State) : s.dictInit.canvasBase = s.canvasBase := rfl
@[simp] theorem State.dictInit_fmtRgba (s : State) : s.dictInit.fmtRgba = s.fmtRgba := rfl
@[simp] theorem State.dictInit_palSizeLog2m1 (s : State) : s.dictInit.palSizeLog2m1 = s.palSizeLog2m1 := rfl
@[simp] theorem State.dictInit_canvas (s : State) : s.dictInit.canvas = s.canvas := rfl
@[simp] theorem State.dictInit_rdData (s : State) : s.dictInit.rdData = s.rdData := rfl
@[simp] theorem State.dictInit_env (s : State) : s.dictInit.env = s.env := rfl

/-! ### `State.dictReset` -/

@[simp] theorem State.dictReset_params (s : State) : s.dictReset.params = s.params := rfl
@[simp] theorem State.dictReset_seq (s : State) : s.dictReset.seq = s.seq := rfl
@[simp] theorem State.dictReset_frameRem (s : State) : s.dictReset.frameRem = s.frameRem := rfl
@[simp] theorem State.dictReset_bytesIn (s : State) : s.dictReset.bytesIn = s.bytesIn := rfl
@[simp] theorem State.dictReset_eoiFlag (s : State) : s.dictReset.eoiFlag = s.eoiFlag := rfl
@[simp] theorem State.dictReset_oldValid (s : State) : s.dictReset.oldValid = false := rfl
@[simp] theorem State.dictReset_irqPend (s : State) : s.dictReset.irqPend = s.irqPend := rfl
@[simp] theorem State.dictReset_root (s : State) : s.dictReset.root = s.root := rfl
@[simp] theorem State.dictReset_width (s : State) : s.dictReset.width = s.root + 1 := rfl
@[simp] theorem State.dictReset_ctUsed (s : State) : s.dictReset.ctUsed = BitVec.ofNat 13 (s.numRoot + 2) := rfl
@[simp] theorem State.dictReset_oldCode (s : State) : s.dictReset.oldCode = s.oldCode := rfl
@[simp] theorem State.dictReset_pendVal (s : State) : s.dictReset.pendVal = s.pendVal := rfl
@[simp] theorem State.dictReset_pendCnt (s : State) : s.dictReset.pendCnt = s.pendCnt := rfl
@[simp] theorem State.dictReset_dict (s : State) : s.dictReset.dict = s.dict := rfl
@[simp] theorem State.dictReset_pal (s : State) : s.dictReset.pal = s.pal := rfl
@[simp] theorem State.dictReset_rowmap (s : State) : s.dictReset.rowmap = s.rowmap := rfl
@[simp] theorem State.dictReset_cursor (s : State) : s.dictReset.cursor = s.cursor := rfl
@[simp] theorem State.dictReset_errCode (s : State) : s.dictReset.errCode = s.errCode := rfl
@[simp] theorem State.dictReset_errInfo (s : State) : s.dictReset.errInfo = s.errInfo := rfl
@[simp] theorem State.dictReset_irqEn (s : State) : s.dictReset.irqEn = s.irqEn := rfl
@[simp] theorem State.dictReset_rootCodeSize (s : State) : s.dictReset.rootCodeSize = s.rootCodeSize := rfl
@[simp] theorem State.dictReset_imgLeft (s : State) : s.dictReset.imgLeft = s.imgLeft := rfl
@[simp] theorem State.dictReset_imgTop (s : State) : s.dictReset.imgTop = s.imgTop := rfl
@[simp] theorem State.dictReset_imgWidth (s : State) : s.dictReset.imgWidth = s.imgWidth := rfl
@[simp] theorem State.dictReset_imgHeight (s : State) : s.dictReset.imgHeight = s.imgHeight := rfl
@[simp] theorem State.dictReset_interlace (s : State) : s.dictReset.interlace = s.interlace := rfl
@[simp] theorem State.dictReset_screenWidth (s : State) : s.dictReset.screenWidth = s.screenWidth := rfl
@[simp] theorem State.dictReset_screenHeight (s : State) : s.dictReset.screenHeight = s.screenHeight := rfl
@[simp] theorem State.dictReset_canvasBase (s : State) : s.dictReset.canvasBase = s.canvasBase := rfl
@[simp] theorem State.dictReset_fmtRgba (s : State) : s.dictReset.fmtRgba = s.fmtRgba := rfl
@[simp] theorem State.dictReset_palSizeLog2m1 (s : State) : s.dictReset.palSizeLog2m1 = s.palSizeLog2m1 := rfl
@[simp] theorem State.dictReset_canvas (s : State) : s.dictReset.canvas = s.canvas := rfl
@[simp] theorem State.dictReset_rdData (s : State) : s.dictReset.rdData = s.rdData := rfl
@[simp] theorem State.dictReset_env (s : State) : s.dictReset.env = s.env := rfl

/-! ### `State.addEntry` -/

@[simp] theorem State.addEntry_params (s : State) (d : DictEntry) : (s.addEntry d).params = s.params := rfl
@[simp] theorem State.addEntry_seq (s : State) (d : DictEntry) : (s.addEntry d).seq = s.seq := rfl
@[simp] theorem State.addEntry_frameRem (s : State) (d : DictEntry) : (s.addEntry d).frameRem = s.frameRem := rfl
@[simp] theorem State.addEntry_bytesIn (s : State) (d : DictEntry) : (s.addEntry d).bytesIn = s.bytesIn := rfl
@[simp] theorem State.addEntry_eoiFlag (s : State) (d : DictEntry) : (s.addEntry d).eoiFlag = s.eoiFlag := rfl
@[simp] theorem State.addEntry_oldValid (s : State) (d : DictEntry) : (s.addEntry d).oldValid = s.oldValid := rfl
@[simp] theorem State.addEntry_irqPend (s : State) (d : DictEntry) : (s.addEntry d).irqPend = s.irqPend := rfl
@[simp] theorem State.addEntry_root (s : State) (d : DictEntry) : (s.addEntry d).root = s.root := rfl
@[simp] theorem State.addEntry_width (s : State) (d : DictEntry) : (s.addEntry d).width = s.width := rfl
@[simp] theorem State.addEntry_ctUsed (s : State) (d : DictEntry) : (s.addEntry d).ctUsed = s.ctUsed + 1 := rfl
@[simp] theorem State.addEntry_oldCode (s : State) (d : DictEntry) : (s.addEntry d).oldCode = s.oldCode := rfl
@[simp] theorem State.addEntry_pendVal (s : State) (d : DictEntry) : (s.addEntry d).pendVal = s.pendVal := rfl
@[simp] theorem State.addEntry_pendCnt (s : State) (d : DictEntry) : (s.addEntry d).pendCnt = s.pendCnt := rfl
@[simp] theorem State.addEntry_dict (s : State) (d : DictEntry) : (s.addEntry d).dict = Memory.write s.dict s.ctUsed.toNat d := rfl
@[simp] theorem State.addEntry_pal (s : State) (d : DictEntry) : (s.addEntry d).pal = s.pal := rfl
@[simp] theorem State.addEntry_rowmap (s : State) (d : DictEntry) : (s.addEntry d).rowmap = s.rowmap := rfl
@[simp] theorem State.addEntry_cursor (s : State) (d : DictEntry) : (s.addEntry d).cursor = s.cursor := rfl
@[simp] theorem State.addEntry_errCode (s : State) (d : DictEntry) : (s.addEntry d).errCode = s.errCode := rfl
@[simp] theorem State.addEntry_errInfo (s : State) (d : DictEntry) : (s.addEntry d).errInfo = s.errInfo := rfl
@[simp] theorem State.addEntry_irqEn (s : State) (d : DictEntry) : (s.addEntry d).irqEn = s.irqEn := rfl
@[simp] theorem State.addEntry_rootCodeSize (s : State) (d : DictEntry) : (s.addEntry d).rootCodeSize = s.rootCodeSize := rfl
@[simp] theorem State.addEntry_imgLeft (s : State) (d : DictEntry) : (s.addEntry d).imgLeft = s.imgLeft := rfl
@[simp] theorem State.addEntry_imgTop (s : State) (d : DictEntry) : (s.addEntry d).imgTop = s.imgTop := rfl
@[simp] theorem State.addEntry_imgWidth (s : State) (d : DictEntry) : (s.addEntry d).imgWidth = s.imgWidth := rfl
@[simp] theorem State.addEntry_imgHeight (s : State) (d : DictEntry) : (s.addEntry d).imgHeight = s.imgHeight := rfl
@[simp] theorem State.addEntry_interlace (s : State) (d : DictEntry) : (s.addEntry d).interlace = s.interlace := rfl
@[simp] theorem State.addEntry_screenWidth (s : State) (d : DictEntry) : (s.addEntry d).screenWidth = s.screenWidth := rfl
@[simp] theorem State.addEntry_screenHeight (s : State) (d : DictEntry) : (s.addEntry d).screenHeight = s.screenHeight := rfl
@[simp] theorem State.addEntry_canvasBase (s : State) (d : DictEntry) : (s.addEntry d).canvasBase = s.canvasBase := rfl
@[simp] theorem State.addEntry_fmtRgba (s : State) (d : DictEntry) : (s.addEntry d).fmtRgba = s.fmtRgba := rfl
@[simp] theorem State.addEntry_palSizeLog2m1 (s : State) (d : DictEntry) : (s.addEntry d).palSizeLog2m1 = s.palSizeLog2m1 := rfl
@[simp] theorem State.addEntry_canvas (s : State) (d : DictEntry) : (s.addEntry d).canvas = s.canvas := rfl
@[simp] theorem State.addEntry_rdData (s : State) (d : DictEntry) : (s.addEntry d).rdData = s.rdData := rfl
@[simp] theorem State.addEntry_env (s : State) (d : DictEntry) : (s.addEntry d).env = s.env := rfl

/-! ### `State.countByte` -/

@[simp] theorem State.countByte_params (s : State) : s.countByte.params = s.params := rfl
@[simp] theorem State.countByte_seq (s : State) : s.countByte.seq = s.seq := rfl
@[simp] theorem State.countByte_frameRem (s : State) : s.countByte.frameRem = s.frameRem := rfl
@[simp] theorem State.countByte_bytesIn (s : State) : s.countByte.bytesIn = s.bytesIn + 1 := rfl
@[simp] theorem State.countByte_eoiFlag (s : State) : s.countByte.eoiFlag = s.eoiFlag := rfl
@[simp] theorem State.countByte_oldValid (s : State) : s.countByte.oldValid = s.oldValid := rfl
@[simp] theorem State.countByte_irqPend (s : State) : s.countByte.irqPend = s.irqPend := rfl
@[simp] theorem State.countByte_root (s : State) : s.countByte.root = s.root := rfl
@[simp] theorem State.countByte_width (s : State) : s.countByte.width = s.width := rfl
@[simp] theorem State.countByte_ctUsed (s : State) : s.countByte.ctUsed = s.ctUsed := rfl
@[simp] theorem State.countByte_oldCode (s : State) : s.countByte.oldCode = s.oldCode := rfl
@[simp] theorem State.countByte_pendVal (s : State) : s.countByte.pendVal = s.pendVal := rfl
@[simp] theorem State.countByte_pendCnt (s : State) : s.countByte.pendCnt = s.pendCnt := rfl
@[simp] theorem State.countByte_dict (s : State) : s.countByte.dict = s.dict := rfl
@[simp] theorem State.countByte_pal (s : State) : s.countByte.pal = s.pal := rfl
@[simp] theorem State.countByte_rowmap (s : State) : s.countByte.rowmap = s.rowmap := rfl
@[simp] theorem State.countByte_cursor (s : State) : s.countByte.cursor = s.cursor := rfl
@[simp] theorem State.countByte_errCode (s : State) : s.countByte.errCode = s.errCode := rfl
@[simp] theorem State.countByte_errInfo (s : State) : s.countByte.errInfo = s.errInfo := rfl
@[simp] theorem State.countByte_irqEn (s : State) : s.countByte.irqEn = s.irqEn := rfl
@[simp] theorem State.countByte_rootCodeSize (s : State) : s.countByte.rootCodeSize = s.rootCodeSize := rfl
@[simp] theorem State.countByte_imgLeft (s : State) : s.countByte.imgLeft = s.imgLeft := rfl
@[simp] theorem State.countByte_imgTop (s : State) : s.countByte.imgTop = s.imgTop := rfl
@[simp] theorem State.countByte_imgWidth (s : State) : s.countByte.imgWidth = s.imgWidth := rfl
@[simp] theorem State.countByte_imgHeight (s : State) : s.countByte.imgHeight = s.imgHeight := rfl
@[simp] theorem State.countByte_interlace (s : State) : s.countByte.interlace = s.interlace := rfl
@[simp] theorem State.countByte_screenWidth (s : State) : s.countByte.screenWidth = s.screenWidth := rfl
@[simp] theorem State.countByte_screenHeight (s : State) : s.countByte.screenHeight = s.screenHeight := rfl
@[simp] theorem State.countByte_canvasBase (s : State) : s.countByte.canvasBase = s.canvasBase := rfl
@[simp] theorem State.countByte_fmtRgba (s : State) : s.countByte.fmtRgba = s.fmtRgba := rfl
@[simp] theorem State.countByte_palSizeLog2m1 (s : State) : s.countByte.palSizeLog2m1 = s.palSizeLog2m1 := rfl
@[simp] theorem State.countByte_canvas (s : State) : s.countByte.canvas = s.canvas := rfl
@[simp] theorem State.countByte_rdData (s : State) : s.countByte.rdData = s.rdData := rfl
@[simp] theorem State.countByte_env (s : State) : s.countByte.env = s.env := rfl

/-! ### `State.countPayload` -/

@[simp] theorem State.countPayload_params (s : State) : s.countPayload.params = s.params := rfl
@[simp] theorem State.countPayload_seq (s : State) : s.countPayload.seq = s.seq := rfl
@[simp] theorem State.countPayload_frameRem (s : State) : s.countPayload.frameRem = s.frameRem - 1 := rfl
@[simp] theorem State.countPayload_bytesIn (s : State) : s.countPayload.bytesIn = s.bytesIn + 1 := rfl
@[simp] theorem State.countPayload_eoiFlag (s : State) : s.countPayload.eoiFlag = s.eoiFlag := rfl
@[simp] theorem State.countPayload_oldValid (s : State) : s.countPayload.oldValid = s.oldValid := rfl
@[simp] theorem State.countPayload_irqPend (s : State) : s.countPayload.irqPend = s.irqPend := rfl
@[simp] theorem State.countPayload_root (s : State) : s.countPayload.root = s.root := rfl
@[simp] theorem State.countPayload_width (s : State) : s.countPayload.width = s.width := rfl
@[simp] theorem State.countPayload_ctUsed (s : State) : s.countPayload.ctUsed = s.ctUsed := rfl
@[simp] theorem State.countPayload_oldCode (s : State) : s.countPayload.oldCode = s.oldCode := rfl
@[simp] theorem State.countPayload_pendVal (s : State) : s.countPayload.pendVal = s.pendVal := rfl
@[simp] theorem State.countPayload_pendCnt (s : State) : s.countPayload.pendCnt = s.pendCnt := rfl
@[simp] theorem State.countPayload_dict (s : State) : s.countPayload.dict = s.dict := rfl
@[simp] theorem State.countPayload_pal (s : State) : s.countPayload.pal = s.pal := rfl
@[simp] theorem State.countPayload_rowmap (s : State) : s.countPayload.rowmap = s.rowmap := rfl
@[simp] theorem State.countPayload_cursor (s : State) : s.countPayload.cursor = s.cursor := rfl
@[simp] theorem State.countPayload_errCode (s : State) : s.countPayload.errCode = s.errCode := rfl
@[simp] theorem State.countPayload_errInfo (s : State) : s.countPayload.errInfo = s.errInfo := rfl
@[simp] theorem State.countPayload_irqEn (s : State) : s.countPayload.irqEn = s.irqEn := rfl
@[simp] theorem State.countPayload_rootCodeSize (s : State) : s.countPayload.rootCodeSize = s.rootCodeSize := rfl
@[simp] theorem State.countPayload_imgLeft (s : State) : s.countPayload.imgLeft = s.imgLeft := rfl
@[simp] theorem State.countPayload_imgTop (s : State) : s.countPayload.imgTop = s.imgTop := rfl
@[simp] theorem State.countPayload_imgWidth (s : State) : s.countPayload.imgWidth = s.imgWidth := rfl
@[simp] theorem State.countPayload_imgHeight (s : State) : s.countPayload.imgHeight = s.imgHeight := rfl
@[simp] theorem State.countPayload_interlace (s : State) : s.countPayload.interlace = s.interlace := rfl
@[simp] theorem State.countPayload_screenWidth (s : State) : s.countPayload.screenWidth = s.screenWidth := rfl
@[simp] theorem State.countPayload_screenHeight (s : State) : s.countPayload.screenHeight = s.screenHeight := rfl
@[simp] theorem State.countPayload_canvasBase (s : State) : s.countPayload.canvasBase = s.canvasBase := rfl
@[simp] theorem State.countPayload_fmtRgba (s : State) : s.countPayload.fmtRgba = s.fmtRgba := rfl
@[simp] theorem State.countPayload_palSizeLog2m1 (s : State) : s.countPayload.palSizeLog2m1 = s.palSizeLog2m1 := rfl
@[simp] theorem State.countPayload_canvas (s : State) : s.countPayload.canvas = s.canvas := rfl
@[simp] theorem State.countPayload_rdData (s : State) : s.countPayload.rdData = s.rdData := rfl
@[simp] theorem State.countPayload_env (s : State) : s.countPayload.env = s.env := rfl

/-! ### `State.growCheck` -/

@[simp] theorem State.growCheck_params (s : State) : s.growCheck.params = s.params := by
  unfold State.growCheck; split <;> rfl
@[simp] theorem State.growCheck_seq (s : State) : s.growCheck.seq = s.seq := by
  unfold State.growCheck; split <;> rfl
@[simp] theorem State.growCheck_frameRem (s : State) : s.growCheck.frameRem = s.frameRem := by
  unfold State.growCheck; split <;> rfl
@[simp] theorem State.growCheck_bytesIn (s : State) : s.growCheck.bytesIn = s.bytesIn := by
  unfold State.growCheck; split <;> rfl
@[simp] theorem State.growCheck_eoiFlag (s : State) : s.growCheck.eoiFlag = s.eoiFlag := by
  unfold State.growCheck; split <;> rfl
@[simp] theorem State.growCheck_oldValid (s : State) : s.growCheck.oldValid = s.oldValid := by
  unfold State.growCheck; split <;> rfl
@[simp] theorem State.growCheck_irqPend (s : State) : s.growCheck.irqPend = s.irqPend := by
  unfold State.growCheck; split <;> rfl
@[simp] theorem State.growCheck_root (s : State) : s.growCheck.root = s.root := by
  unfold State.growCheck; split <;> rfl
@[simp] theorem State.growCheck_width (s : State) : s.growCheck.width = if growsAt.contains s.ctUsed.toNat then s.width + 1 else s.width := by
  unfold State.growCheck; split <;> rfl
@[simp] theorem State.growCheck_ctUsed (s : State) : s.growCheck.ctUsed = s.ctUsed := by
  unfold State.growCheck; split <;> rfl
@[simp] theorem State.growCheck_oldCode (s : State) : s.growCheck.oldCode = s.oldCode := by
  unfold State.growCheck; split <;> rfl
@[simp] theorem State.growCheck_pendVal (s : State) : s.growCheck.pendVal = s.pendVal := by
  unfold State.growCheck; split <;> rfl
@[simp] theorem State.growCheck_pendCnt (s : State) : s.growCheck.pendCnt = s.pendCnt := by
  unfold State.growCheck; split <;> rfl
@[simp] theorem State.growCheck_dict (s : State) : s.growCheck.dict = s.dict := by
  unfold State.growCheck; split <;> rfl
@[simp] theorem State.growCheck_pal (s : State) : s.growCheck.pal = s.pal := by
  unfold State.growCheck; split <;> rfl
@[simp] theorem State.growCheck_rowmap (s : State) : s.growCheck.rowmap = s.rowmap := by
  unfold State.growCheck; split <;> rfl
@[simp] theorem State.growCheck_cursor (s : State) : s.growCheck.cursor = s.cursor := by
  unfold State.growCheck; split <;> rfl
@[simp] theorem State.growCheck_errCode (s : State) : s.growCheck.errCode = s.errCode := by
  unfold State.growCheck; split <;> rfl
@[simp] theorem State.growCheck_errInfo (s : State) : s.growCheck.errInfo = s.errInfo := by
  unfold State.growCheck; split <;> rfl
@[simp] theorem State.growCheck_irqEn (s : State) : s.growCheck.irqEn = s.irqEn := by
  unfold State.growCheck; split <;> rfl
@[simp] theorem State.growCheck_rootCodeSize (s : State) : s.growCheck.rootCodeSize = s.rootCodeSize := by
  unfold State.growCheck; split <;> rfl
@[simp] theorem State.growCheck_imgLeft (s : State) : s.growCheck.imgLeft = s.imgLeft := by
  unfold State.growCheck; split <;> rfl
@[simp] theorem State.growCheck_imgTop (s : State) : s.growCheck.imgTop = s.imgTop := by
  unfold State.growCheck; split <;> rfl
@[simp] theorem State.growCheck_imgWidth (s : State) : s.growCheck.imgWidth = s.imgWidth := by
  unfold State.growCheck; split <;> rfl
@[simp] theorem State.growCheck_imgHeight (s : State) : s.growCheck.imgHeight = s.imgHeight := by
  unfold State.growCheck; split <;> rfl
@[simp] theorem State.growCheck_interlace (s : State) : s.growCheck.interlace = s.interlace := by
  unfold State.growCheck; split <;> rfl
@[simp] theorem State.growCheck_screenWidth (s : State) : s.growCheck.screenWidth = s.screenWidth := by
  unfold State.growCheck; split <;> rfl
@[simp] theorem State.growCheck_screenHeight (s : State) : s.growCheck.screenHeight = s.screenHeight := by
  unfold State.growCheck; split <;> rfl
@[simp] theorem State.growCheck_canvasBase (s : State) : s.growCheck.canvasBase = s.canvasBase := by
  unfold State.growCheck; split <;> rfl
@[simp] theorem State.growCheck_fmtRgba (s : State) : s.growCheck.fmtRgba = s.fmtRgba := by
  unfold State.growCheck; split <;> rfl
@[simp] theorem State.growCheck_palSizeLog2m1 (s : State) : s.growCheck.palSizeLog2m1 = s.palSizeLog2m1 := by
  unfold State.growCheck; split <;> rfl
@[simp] theorem State.growCheck_canvas (s : State) : s.growCheck.canvas = s.canvas := by
  unfold State.growCheck; split <;> rfl
@[simp] theorem State.growCheck_rdData (s : State) : s.growCheck.rdData = s.rdData := by
  unfold State.growCheck; split <;> rfl
@[simp] theorem State.growCheck_env (s : State) : s.growCheck.env = s.env := by
  unfold State.growCheck; split <;> rfl

/-! ### `State.writeStatus` -/

@[simp] theorem State.writeStatus_params (s : State) (d : Word) : (s.writeStatus d).params = s.params := by
  unfold State.writeStatus; split <;> rfl
@[simp] theorem State.writeStatus_seq (s : State) (d : Word) : (s.writeStatus d).seq = s.seq := by
  unfold State.writeStatus; split <;> rfl
@[simp] theorem State.writeStatus_frameRem (s : State) (d : Word) : (s.writeStatus d).frameRem = s.frameRem := by
  unfold State.writeStatus; split <;> rfl
@[simp] theorem State.writeStatus_bytesIn (s : State) (d : Word) : (s.writeStatus d).bytesIn = s.bytesIn := by
  unfold State.writeStatus; split <;> rfl
@[simp] theorem State.writeStatus_eoiFlag (s : State) (d : Word) : (s.writeStatus d).eoiFlag = s.eoiFlag := by
  unfold State.writeStatus; split <;> rfl
@[simp] theorem State.writeStatus_oldValid (s : State) (d : Word) : (s.writeStatus d).oldValid = s.oldValid := by
  unfold State.writeStatus; split <;> rfl
@[simp] theorem State.writeStatus_irqPend (s : State) (d : Word) : (s.writeStatus d).irqPend = if d.getLsbD 4 then false else s.irqPend := by
  unfold State.writeStatus; split <;> rfl
@[simp] theorem State.writeStatus_root (s : State) (d : Word) : (s.writeStatus d).root = s.root := by
  unfold State.writeStatus; split <;> rfl
@[simp] theorem State.writeStatus_width (s : State) (d : Word) : (s.writeStatus d).width = s.width := by
  unfold State.writeStatus; split <;> rfl
@[simp] theorem State.writeStatus_ctUsed (s : State) (d : Word) : (s.writeStatus d).ctUsed = s.ctUsed := by
  unfold State.writeStatus; split <;> rfl
@[simp] theorem State.writeStatus_oldCode (s : State) (d : Word) : (s.writeStatus d).oldCode = s.oldCode := by
  unfold State.writeStatus; split <;> rfl
@[simp] theorem State.writeStatus_pendVal (s : State) (d : Word) : (s.writeStatus d).pendVal = s.pendVal := by
  unfold State.writeStatus; split <;> rfl
@[simp] theorem State.writeStatus_pendCnt (s : State) (d : Word) : (s.writeStatus d).pendCnt = s.pendCnt := by
  unfold State.writeStatus; split <;> rfl
@[simp] theorem State.writeStatus_dict (s : State) (d : Word) : (s.writeStatus d).dict = s.dict := by
  unfold State.writeStatus; split <;> rfl
@[simp] theorem State.writeStatus_pal (s : State) (d : Word) : (s.writeStatus d).pal = s.pal := by
  unfold State.writeStatus; split <;> rfl
@[simp] theorem State.writeStatus_rowmap (s : State) (d : Word) : (s.writeStatus d).rowmap = s.rowmap := by
  unfold State.writeStatus; split <;> rfl
@[simp] theorem State.writeStatus_cursor (s : State) (d : Word) : (s.writeStatus d).cursor = s.cursor := by
  unfold State.writeStatus; split <;> rfl
@[simp] theorem State.writeStatus_errCode (s : State) (d : Word) : (s.writeStatus d).errCode = s.errCode := by
  unfold State.writeStatus; split <;> rfl
@[simp] theorem State.writeStatus_errInfo (s : State) (d : Word) : (s.writeStatus d).errInfo = s.errInfo := by
  unfold State.writeStatus; split <;> rfl
@[simp] theorem State.writeStatus_irqEn (s : State) (d : Word) : (s.writeStatus d).irqEn = s.irqEn := by
  unfold State.writeStatus; split <;> rfl
@[simp] theorem State.writeStatus_rootCodeSize (s : State) (d : Word) : (s.writeStatus d).rootCodeSize = s.rootCodeSize := by
  unfold State.writeStatus; split <;> rfl
@[simp] theorem State.writeStatus_imgLeft (s : State) (d : Word) : (s.writeStatus d).imgLeft = s.imgLeft := by
  unfold State.writeStatus; split <;> rfl
@[simp] theorem State.writeStatus_imgTop (s : State) (d : Word) : (s.writeStatus d).imgTop = s.imgTop := by
  unfold State.writeStatus; split <;> rfl
@[simp] theorem State.writeStatus_imgWidth (s : State) (d : Word) : (s.writeStatus d).imgWidth = s.imgWidth := by
  unfold State.writeStatus; split <;> rfl
@[simp] theorem State.writeStatus_imgHeight (s : State) (d : Word) : (s.writeStatus d).imgHeight = s.imgHeight := by
  unfold State.writeStatus; split <;> rfl
@[simp] theorem State.writeStatus_interlace (s : State) (d : Word) : (s.writeStatus d).interlace = s.interlace := by
  unfold State.writeStatus; split <;> rfl
@[simp] theorem State.writeStatus_screenWidth (s : State) (d : Word) : (s.writeStatus d).screenWidth = s.screenWidth := by
  unfold State.writeStatus; split <;> rfl
@[simp] theorem State.writeStatus_screenHeight (s : State) (d : Word) : (s.writeStatus d).screenHeight = s.screenHeight := by
  unfold State.writeStatus; split <;> rfl
@[simp] theorem State.writeStatus_canvasBase (s : State) (d : Word) : (s.writeStatus d).canvasBase = s.canvasBase := by
  unfold State.writeStatus; split <;> rfl
@[simp] theorem State.writeStatus_fmtRgba (s : State) (d : Word) : (s.writeStatus d).fmtRgba = s.fmtRgba := by
  unfold State.writeStatus; split <;> rfl
@[simp] theorem State.writeStatus_palSizeLog2m1 (s : State) (d : Word) : (s.writeStatus d).palSizeLog2m1 = s.palSizeLog2m1 := by
  unfold State.writeStatus; split <;> rfl
@[simp] theorem State.writeStatus_canvas (s : State) (d : Word) : (s.writeStatus d).canvas = s.canvas := by
  unfold State.writeStatus; split <;> rfl
@[simp] theorem State.writeStatus_rdData (s : State) (d : Word) : (s.writeStatus d).rdData = s.rdData := by
  unfold State.writeStatus; split <;> rfl
@[simp] theorem State.writeStatus_env (s : State) (d : Word) : (s.writeStatus d).env = s.env := by
  unfold State.writeStatus; split <;> rfl

/-! ### `State.startImage` -/

@[simp] theorem State.startImage_params (s : State) : s.startImage.params = s.params := rfl
@[simp] theorem State.startImage_seq (s : State) : s.startImage.seq = .len := rfl
@[simp] theorem State.startImage_frameRem (s : State) : s.startImage.frameRem = 0 := rfl
@[simp] theorem State.startImage_bytesIn (s : State) : s.startImage.bytesIn = 0 := rfl
@[simp] theorem State.startImage_eoiFlag (s : State) : s.startImage.eoiFlag = false := rfl
@[simp] theorem State.startImage_oldValid (s : State) : s.startImage.oldValid = false := rfl
@[simp] theorem State.startImage_irqPend (s : State) : s.startImage.irqPend = s.irqPend := rfl
@[simp] theorem State.startImage_root (s : State) : s.startImage.root = s.rootCodeSize.setWidth 4 := rfl
@[simp] theorem State.startImage_width (s : State) : s.startImage.width = s.rootCodeSize.setWidth 4 + 1 := rfl
@[simp] theorem State.startImage_ctUsed (s : State) : s.startImage.ctUsed = BitVec.ofNat 13 (2 ^ (s.rootCodeSize.setWidth 4).toNat + 2) := rfl
@[simp] theorem State.startImage_oldCode (s : State) : s.startImage.oldCode = 0 := rfl
@[simp] theorem State.startImage_pendVal (s : State) : s.startImage.pendVal = 0 := rfl
@[simp] theorem State.startImage_pendCnt (s : State) : s.startImage.pendCnt = 0 := rfl
@[simp] theorem State.startImage_dict (s : State) : s.startImage.dict = Memory.fill s.dict ((List.range (2 ^ (s.rootCodeSize.setWidth 4).toNat)).map (rootEntry s.params.symbolBits)) := rfl
@[simp] theorem State.startImage_pal (s : State) : s.startImage.pal = s.pal := rfl
@[simp] theorem State.startImage_rowmap (s : State) : s.startImage.rowmap = Memory.fill s.rowmap ((rowOrder s.interlace s.imgHeight.toNat).map (BitVec.ofNat 16)) := rfl
@[simp] theorem State.startImage_cursor (s : State) : s.startImage.cursor = 0 := rfl
@[simp] theorem State.startImage_errCode (s : State) : s.startImage.errCode = s.errCode := rfl
@[simp] theorem State.startImage_errInfo (s : State) : s.startImage.errInfo = s.errInfo := rfl
@[simp] theorem State.startImage_irqEn (s : State) : s.startImage.irqEn = s.irqEn := rfl
@[simp] theorem State.startImage_rootCodeSize (s : State) : s.startImage.rootCodeSize = s.rootCodeSize := rfl
@[simp] theorem State.startImage_imgLeft (s : State) : s.startImage.imgLeft = s.imgLeft := rfl
@[simp] theorem State.startImage_imgTop (s : State) : s.startImage.imgTop = s.imgTop := rfl
@[simp] theorem State.startImage_imgWidth (s : State) : s.startImage.imgWidth = s.imgWidth := rfl
@[simp] theorem State.startImage_imgHeight (s : State) : s.startImage.imgHeight = s.imgHeight := rfl
@[simp] theorem State.startImage_interlace (s : State) : s.startImage.interlace = s.interlace := rfl
@[simp] theorem State.startImage_screenWidth (s : State) : s.startImage.screenWidth = s.screenWidth := rfl
@[simp] theorem State.startImage_screenHeight (s : State) : s.startImage.screenHeight = s.screenHeight := rfl
@[simp] theorem State.startImage_canvasBase (s : State) : s.startImage.canvasBase = s.canvasBase := rfl
@[simp] theorem State.startImage_fmtRgba (s : State) : s.startImage.fmtRgba = s.fmtRgba := rfl
@[simp] theorem State.startImage_palSizeLog2m1 (s : State) : s.startImage.palSizeLog2m1 = s.palSizeLog2m1 := rfl
@[simp] theorem State.startImage_canvas (s : State) : s.startImage.canvas = s.canvas := rfl
@[simp] theorem State.startImage_rdData (s : State) : s.startImage.rdData = s.rdData := rfl
@[simp] theorem State.startImage_env (s : State) : s.startImage.env = s.env := rfl

/-! ### `State.hardwareReset` -/

@[simp] theorem State.hardwareReset_params (s : State) : s.hardwareReset.params = s.params := rfl
@[simp] theorem State.hardwareReset_seq (s : State) : s.hardwareReset.seq = State.reset.seq := rfl
@[simp] theorem State.hardwareReset_frameRem (s : State) : s.hardwareReset.frameRem = State.reset.frameRem := rfl
@[simp] theorem State.hardwareReset_bytesIn (s : State) : s.hardwareReset.bytesIn = State.reset.bytesIn := rfl
@[simp] theorem State.hardwareReset_eoiFlag (s : State) : s.hardwareReset.eoiFlag = State.reset.eoiFlag := rfl
@[simp] theorem State.hardwareReset_oldValid (s : State) : s.hardwareReset.oldValid = State.reset.oldValid := rfl
@[simp] theorem State.hardwareReset_irqPend (s : State) : s.hardwareReset.irqPend = State.reset.irqPend := rfl
@[simp] theorem State.hardwareReset_root (s : State) : s.hardwareReset.root = State.reset.root := rfl
@[simp] theorem State.hardwareReset_width (s : State) : s.hardwareReset.width = State.reset.width := rfl
@[simp] theorem State.hardwareReset_ctUsed (s : State) : s.hardwareReset.ctUsed = State.reset.ctUsed := rfl
@[simp] theorem State.hardwareReset_oldCode (s : State) : s.hardwareReset.oldCode = State.reset.oldCode := rfl
@[simp] theorem State.hardwareReset_pendVal (s : State) : s.hardwareReset.pendVal = State.reset.pendVal := rfl
@[simp] theorem State.hardwareReset_pendCnt (s : State) : s.hardwareReset.pendCnt = State.reset.pendCnt := rfl
@[simp] theorem State.hardwareReset_dict (s : State) : s.hardwareReset.dict = State.reset.dict := rfl
@[simp] theorem State.hardwareReset_pal (s : State) : s.hardwareReset.pal = State.reset.pal := rfl
@[simp] theorem State.hardwareReset_rowmap (s : State) : s.hardwareReset.rowmap = State.reset.rowmap := rfl
@[simp] theorem State.hardwareReset_cursor (s : State) : s.hardwareReset.cursor = State.reset.cursor := rfl
@[simp] theorem State.hardwareReset_errCode (s : State) : s.hardwareReset.errCode = State.reset.errCode := rfl
@[simp] theorem State.hardwareReset_errInfo (s : State) : s.hardwareReset.errInfo = State.reset.errInfo := rfl
@[simp] theorem State.hardwareReset_irqEn (s : State) : s.hardwareReset.irqEn = State.reset.irqEn := rfl
@[simp] theorem State.hardwareReset_rootCodeSize (s : State) : s.hardwareReset.rootCodeSize = State.reset.rootCodeSize := rfl
@[simp] theorem State.hardwareReset_imgLeft (s : State) : s.hardwareReset.imgLeft = State.reset.imgLeft := rfl
@[simp] theorem State.hardwareReset_imgTop (s : State) : s.hardwareReset.imgTop = State.reset.imgTop := rfl
@[simp] theorem State.hardwareReset_imgWidth (s : State) : s.hardwareReset.imgWidth = State.reset.imgWidth := rfl
@[simp] theorem State.hardwareReset_imgHeight (s : State) : s.hardwareReset.imgHeight = State.reset.imgHeight := rfl
@[simp] theorem State.hardwareReset_interlace (s : State) : s.hardwareReset.interlace = State.reset.interlace := rfl
@[simp] theorem State.hardwareReset_screenWidth (s : State) : s.hardwareReset.screenWidth = State.reset.screenWidth := rfl
@[simp] theorem State.hardwareReset_screenHeight (s : State) : s.hardwareReset.screenHeight = State.reset.screenHeight := rfl
@[simp] theorem State.hardwareReset_canvasBase (s : State) : s.hardwareReset.canvasBase = State.reset.canvasBase := rfl
@[simp] theorem State.hardwareReset_fmtRgba (s : State) : s.hardwareReset.fmtRgba = State.reset.fmtRgba := rfl
@[simp] theorem State.hardwareReset_palSizeLog2m1 (s : State) : s.hardwareReset.palSizeLog2m1 = State.reset.palSizeLog2m1 := rfl
@[simp] theorem State.hardwareReset_canvas (s : State) : s.hardwareReset.canvas = s.canvas := rfl
@[simp] theorem State.hardwareReset_rdData (s : State) : s.hardwareReset.rdData = s.rdData := rfl
@[simp] theorem State.hardwareReset_env (s : State) : s.hardwareReset.env = s.env := rfl

/-! ### `State.endOfSubBlock` -/

@[simp] theorem State.endOfSubBlock_params (s : State) : s.endOfSubBlock.params = s.params := by
  unfold State.endOfSubBlock; split <;> (try split) <;> rfl
@[simp] theorem State.endOfSubBlock_frameRem (s : State) : s.endOfSubBlock.frameRem = s.frameRem := by
  unfold State.endOfSubBlock; split <;> (try split) <;> rfl
@[simp] theorem State.endOfSubBlock_bytesIn (s : State) : s.endOfSubBlock.bytesIn = s.bytesIn := by
  unfold State.endOfSubBlock; split <;> (try split) <;> rfl
@[simp] theorem State.endOfSubBlock_eoiFlag (s : State) : s.endOfSubBlock.eoiFlag = s.eoiFlag := by
  unfold State.endOfSubBlock; split <;> (try split) <;> rfl
@[simp] theorem State.endOfSubBlock_oldValid (s : State) : s.endOfSubBlock.oldValid = s.oldValid := by
  unfold State.endOfSubBlock; split <;> (try split) <;> rfl
@[simp] theorem State.endOfSubBlock_root (s : State) : s.endOfSubBlock.root = s.root := by
  unfold State.endOfSubBlock; split <;> (try split) <;> rfl
@[simp] theorem State.endOfSubBlock_width (s : State) : s.endOfSubBlock.width = s.width := by
  unfold State.endOfSubBlock; split <;> (try split) <;> rfl
@[simp] theorem State.endOfSubBlock_ctUsed (s : State) : s.endOfSubBlock.ctUsed = s.ctUsed := by
  unfold State.endOfSubBlock; split <;> (try split) <;> rfl
@[simp] theorem State.endOfSubBlock_oldCode (s : State) : s.endOfSubBlock.oldCode = s.oldCode := by
  unfold State.endOfSubBlock; split <;> (try split) <;> rfl
@[simp] theorem State.endOfSubBlock_pendVal (s : State) : s.endOfSubBlock.pendVal = s.pendVal := by
  unfold State.endOfSubBlock; split <;> (try split) <;> rfl
@[simp] theorem State.endOfSubBlock_pendCnt (s : State) : s.endOfSubBlock.pendCnt = s.pendCnt := by
  unfold State.endOfSubBlock; split <;> (try split) <;> rfl
@[simp] theorem State.endOfSubBlock_dict (s : State) : s.endOfSubBlock.dict = s.dict := by
  unfold State.endOfSubBlock; split <;> (try split) <;> rfl
@[simp] theorem State.endOfSubBlock_pal (s : State) : s.endOfSubBlock.pal = s.pal := by
  unfold State.endOfSubBlock; split <;> (try split) <;> rfl
@[simp] theorem State.endOfSubBlock_rowmap (s : State) : s.endOfSubBlock.rowmap = s.rowmap := by
  unfold State.endOfSubBlock; split <;> (try split) <;> rfl
@[simp] theorem State.endOfSubBlock_cursor (s : State) : s.endOfSubBlock.cursor = s.cursor := by
  unfold State.endOfSubBlock; split <;> (try split) <;> rfl
@[simp] theorem State.endOfSubBlock_errCode (s : State) : s.endOfSubBlock.errCode = s.errCode := by
  unfold State.endOfSubBlock; split <;> (try split) <;> rfl
@[simp] theorem State.endOfSubBlock_errInfo (s : State) : s.endOfSubBlock.errInfo = s.errInfo := by
  unfold State.endOfSubBlock; split <;> (try split) <;> rfl
@[simp] theorem State.endOfSubBlock_irqEn (s : State) : s.endOfSubBlock.irqEn = s.irqEn := by
  unfold State.endOfSubBlock; split <;> (try split) <;> rfl
@[simp] theorem State.endOfSubBlock_rootCodeSize (s : State) : s.endOfSubBlock.rootCodeSize = s.rootCodeSize := by
  unfold State.endOfSubBlock; split <;> (try split) <;> rfl
@[simp] theorem State.endOfSubBlock_imgLeft (s : State) : s.endOfSubBlock.imgLeft = s.imgLeft := by
  unfold State.endOfSubBlock; split <;> (try split) <;> rfl
@[simp] theorem State.endOfSubBlock_imgTop (s : State) : s.endOfSubBlock.imgTop = s.imgTop := by
  unfold State.endOfSubBlock; split <;> (try split) <;> rfl
@[simp] theorem State.endOfSubBlock_imgWidth (s : State) : s.endOfSubBlock.imgWidth = s.imgWidth := by
  unfold State.endOfSubBlock; split <;> (try split) <;> rfl
@[simp] theorem State.endOfSubBlock_imgHeight (s : State) : s.endOfSubBlock.imgHeight = s.imgHeight := by
  unfold State.endOfSubBlock; split <;> (try split) <;> rfl
@[simp] theorem State.endOfSubBlock_interlace (s : State) : s.endOfSubBlock.interlace = s.interlace := by
  unfold State.endOfSubBlock; split <;> (try split) <;> rfl
@[simp] theorem State.endOfSubBlock_screenWidth (s : State) : s.endOfSubBlock.screenWidth = s.screenWidth := by
  unfold State.endOfSubBlock; split <;> (try split) <;> rfl
@[simp] theorem State.endOfSubBlock_screenHeight (s : State) : s.endOfSubBlock.screenHeight = s.screenHeight := by
  unfold State.endOfSubBlock; split <;> (try split) <;> rfl
@[simp] theorem State.endOfSubBlock_canvasBase (s : State) : s.endOfSubBlock.canvasBase = s.canvasBase := by
  unfold State.endOfSubBlock; split <;> (try split) <;> rfl
@[simp] theorem State.endOfSubBlock_fmtRgba (s : State) : s.endOfSubBlock.fmtRgba = s.fmtRgba := by
  unfold State.endOfSubBlock; split <;> (try split) <;> rfl
@[simp] theorem State.endOfSubBlock_palSizeLog2m1 (s : State) : s.endOfSubBlock.palSizeLog2m1 = s.palSizeLog2m1 := by
  unfold State.endOfSubBlock; split <;> (try split) <;> rfl
@[simp] theorem State.endOfSubBlock_canvas (s : State) : s.endOfSubBlock.canvas = s.canvas := by
  unfold State.endOfSubBlock; split <;> (try split) <;> rfl
@[simp] theorem State.endOfSubBlock_rdData (s : State) : s.endOfSubBlock.rdData = s.rdData := by
  unfold State.endOfSubBlock; split <;> (try split) <;> rfl
@[simp] theorem State.endOfSubBlock_env (s : State) : s.endOfSubBlock.env = s.env := by
  unfold State.endOfSubBlock; split <;> (try split) <;> rfl

end Sys2Proof.Machine
end

