-- ==== Sys2Proof/Laws/Ops.lean ====
section
/-! SUPPORT. The laws of sequencing, of the canvas port, of the event picker, and of a defined entry. -/

namespace Sys2Proof.Machine

@[simp] theorem andThen_next (s : State) (k : State → Result) : andThen (.next s) k = k s := rfl

@[simp] theorem andThen_fault (f : Fault) (k : State → Result) : andThen (.fault f) k = .fault f := rfl

@[simp] theorem andThen_refused (x : Refusal) (k : State → Result) :
    andThen (.refused x) k = .refused x := rfl

/-- A sequence answers a next state exactly when both parts do. -/
theorem andThen_eq_next {r : Result} {k : State → Result} {t : State} :
    andThen r k = .next t ↔ ∃ s, r = .next s ∧ k s = .next t := by
  cases r <;> simp

theorem andThen_assoc (r : Result) (k l : State → Result) :
    andThen (andThen r k) l = andThen r fun s => andThen (k s) l := by
  cases r <;> rfl

@[simp] theorem andThen_pure (r : Result) : andThen r (fun s => .next s) = r := by
  cases r <;> rfl

theorem State.canvasWrite_of_lt {s : State} {a : Nat} {v : Byte} (h : a < 2 ^ s.params.addrBits) :
    s.canvasWrite a v = .next { s with canvas := Memory.write s.canvas a v } := by
  simp only [State.canvasWrite, if_pos h]

theorem State.canvasWrite_eq_next {s t : State} {a : Nat} {v : Byte}
    (h : s.canvasWrite a v = .next t) :
    a < 2 ^ s.params.addrBits ∧ t = { s with canvas := Memory.write s.canvas a v } := by
  unfold State.canvasWrite at h
  split at h
  · rename_i ha
    exact ⟨ha, (Host.Outcome.next.inj h).symm⟩
  · cases h

/-- A defined entry is read from the dictionary. -/
theorem State.entry_of_defines {s : State} {e : Code} (h : s.defines e.toNat) :
    s.entry e = Memory.read s.dict e.toNat := by
  simp only [State.entry, State.defines] at *
  rw [if_pos h]

theorem State.entry_eq_some {s : State} {e : Code} {d : DictEntry} (h : s.entry e = some d) :
    s.defines e.toNat ∧ Memory.read s.dict e.toNat = some d := by
  unfold State.entry at h
  split at h
  · rename_i hd
    exact ⟨hd, h⟩
  · cases h

/-- A byte the block cannot take is never the next event. -/
theorem pickEvent_byte {ready held : Bool} {es rest : List HostEvent} {b : Byte}
    (h : pickEvent ready held es = some (.port (.byte b), rest)) : ready = true := by
  induction es generalizing held rest with
  | nil => simp [pickEvent] at h
  | cons e es ih =>
    cases e with
    | reset => simp [pickEvent] at h
    | port p =>
      cases p with
      | read o => simp [pickEvent] at h
      | write o d => simp [pickEvent] at h
      | byte c =>
        simp only [pickEvent] at h
        split at h
        · rename_i hr
          simp_all
        · obtain ⟨⟨e', r'⟩, hp, heq⟩ := Option.map_eq_some_iff.mp h
          simp only [Prod.mk.injEq] at heq
          rw [heq.1] at hp
          exact ih hp
      | fail =>
        simp only [pickEvent] at h
        split at h
        · obtain ⟨⟨e', r'⟩, hp, heq⟩ := Option.map_eq_some_iff.mp h
          simp only [Prod.mk.injEq] at heq
          rw [heq.1] at hp
          exact ih hp
        · simp at h

theorem State.takeEvent_eq_some {s s' : State} {e : HostEvent} (h : s.takeEvent = some (e, s')) :
    ∃ rest, pickEvent s.inReady false s.env = some (e, rest) ∧ s' = { s with env := rest } := by
  obtain ⟨⟨e', rest⟩, hp, heq⟩ := Option.map_eq_some_iff.mp h
  simp only [Prod.mk.injEq] at heq
  exact ⟨rest, by rw [hp, heq.1], heq.2.symm⟩

/-- Every event the block takes decodes, so a step is a hardware reset or one instruction. -/
theorem State.takeEvent_decodes {s s' : State} {p : PortEvent}
    (h : s.takeEvent = some (.port p, s')) : ∃ i, decode s'.ctx (.event p) = .ok i := by
  obtain ⟨rest, hp, rfl⟩ := State.takeEvent_eq_some h
  cases p with
  | read o => exact ⟨_, rfl⟩
  | write o d => exact ⟨_, rfl⟩
  | fail => exact ⟨_, rfl⟩
  | byte b =>
    have hr := pickEvent_byte hp
    simp only [decode, decodeEvent, decodeByte, State.ctx]
    cases hs : s.seq <;> simp_all [State.inReady, Seq.reading]

/-- Everything a step can do: wait, a hardware reset, or one decoded instruction. -/
theorem step_eq_next {s t : State} (h : step s = .next t) :
    (s.takeEvent = none ∧ t = s) ∨
    (∃ s', s.takeEvent = some (.reset, s') ∧ t = s'.hardwareReset) ∨
    (∃ p s' i, s.takeEvent = some (.port p, s') ∧ decode s'.ctx (.event p) = .ok i ∧
      exec i s' = .next t) := by
  unfold step at h
  split at h
  · rename_i hn
    exact .inl ⟨hn, (Host.Outcome.next.inj h).symm⟩
  · rename_i e s' he
    cases e with
    | reset => exact .inr (.inl ⟨s', he, (Host.Outcome.next.inj h).symm⟩)
    | port p =>
      obtain ⟨i, hi⟩ := State.takeEvent_decodes he
      simp only [perform, hi] at h
      exact .inr (.inr ⟨p, s', i, he, hi, h⟩)

end Sys2Proof.Machine
end

