-- ==== Sys2Proof/Laws/Raster.lean ====
section
/-! SUPPORT. What placing a pixel can do: it changes canvas bytes of the screen's rectangle and nothing else. -/

namespace Sys2Proof.Machine

/-- The canvas after a pixel's bytes are written at `base`. -/
def paintPixel (m : List Host.Cell) (base : Nat) (rgba : Bool) (p : Rgba) : List Host.Cell :=
  let m3 := Memory.write (Memory.write (Memory.write m base p.r) (base + 1) p.g) (base + 2) p.b
  if rgba then Memory.write m3 (base + 3) p.a else m3

/-- The state after a pixel is painted. -/
def State.painted (s : State) (x y : Nat) (p : Rgba) : State :=
  { s with canvas := paintPixel s.canvas (s.pixelAddr x y) s.fmtRgba p }

theorem read_paintPixel (m : List Host.Cell) (base : Nat) (rgba : Bool) (p : Rgba) (a : Nat) :
    Memory.read (paintPixel m base rgba p) a =
      if a = base then some p.r
      else if a = base + 1 then some p.g
      else if a = base + 2 then some p.b
      else if rgba = true ∧ a = base + 3 then some p.a
      else Memory.read m a := by
  unfold paintPixel
  cases rgba
  · simp only [Memory.read_write, Bool.false_eq_true, ↓reduceIte, false_and]
    repeat' split
    all_goals first | rfl | (exfalso; omega)
  · simp only [Memory.read_write, ↓reduceIte, true_and]
    repeat' split
    all_goals first | rfl | (exfalso; omega)

/-- `t` is `s` with more painted: only canvas bytes of the screen's rectangle differ, and the canonical form
and the address bound stay. -/
structure PaintOnly (s t : State) : Prop where
  frame : t = { s with canvas := t.canvas }
  wf : Memory.wf s.canvas → Memory.wf t.canvas
  below : (∀ cell ∈ s.canvas, cell.1 < 2 ^ s.params.addrBits) →
    ∀ cell ∈ t.canvas, cell.1 < 2 ^ s.params.addrBits
  outside : ∀ a, a < s.canvasBase.toNat ∨ s.canvasEnd ≤ a →
    Memory.read t.canvas a = Memory.read s.canvas a

theorem PaintOnly.refl (s : State) : PaintOnly s s :=
  ⟨rfl, id, id, fun _ _ => rfl⟩

theorem PaintOnly.trans {s t u : State} (h : PaintOnly s t) (k : PaintOnly t u) : PaintOnly s u := by
  have hp : t.params = s.params := by rw [h.frame]
  refine ⟨?_, fun w => k.wf (h.wf w), fun b => ?_, fun a ha => ?_⟩
  · have hk := k.frame
    rw [h.frame] at hk
    exact hk
  · have hb := k.below (hp ▸ h.below b)
    rwa [hp] at hb
  · have hb : t.canvasBase = s.canvasBase := by rw [h.frame]
    have he : t.canvasEnd = s.canvasEnd := by rw [h.frame]; rfl
    rw [k.outside a (by rw [hb, he]; exact ha), h.outside a ha]

/-- A pixel inside the screen ends below the end of the canvas. -/
theorem State.pixelAddr_end {s : State} {x y : Nat} (hx : x < s.screenWidth.toNat)
    (hy : y < s.screenHeight.toNat) : s.pixelAddr x y + s.bpp ≤ s.canvasEnd := by
  have h1 : (y * s.screenWidth.toNat + x) + 1 ≤ s.screenWidth.toNat * s.screenHeight.toNat := by
    have : (y + 1) * s.screenWidth.toNat ≤ s.screenHeight.toNat * s.screenWidth.toNat :=
      Nat.mul_le_mul_right _ hy
    rw [Nat.mul_comm s.screenWidth.toNat]
    rw [Nat.add_mul] at this
    omega
  have h2 := Nat.mul_le_mul_right s.bpp h1
  rw [Nat.add_mul] at h2
  unfold State.pixelAddr State.canvasEnd
  omega

/-- `WritePixel` where the pixel fits the address space. -/
theorem State.writePixel_of_fits {s : State} {x y : Nat} (p : Rgba)
    (h : s.pixelAddr x y + s.bpp ≤ 2 ^ s.params.addrBits) :
    s.writePixel x y p =
      .next (s.painted x y p) := by
  have h3 : 3 ≤ s.bpp := by unfold State.bpp; split <;> omega
  unfold State.writePixel
  dsimp only
  rw [State.canvasWrite_of_lt (by omega), andThen_next,
    State.canvasWrite_of_lt (by dsimp only; omega), andThen_next,
    State.canvasWrite_of_lt (by dsimp only; omega), andThen_next]
  by_cases hf : s.fmtRgba = true
  · have h4 : s.bpp = 4 := by simp [State.bpp, hf]
    rw [if_pos hf, State.canvasWrite_of_lt (by dsimp only; omega)]
    simp [State.painted, paintPixel, hf]
  · rw [if_neg hf]
    simp [State.painted, paintPixel, hf]

/-- `WritePixel` answers a next state only where the pixel fits the address space. -/
theorem State.writePixel_eq_next {s t : State} {x y : Nat} {p : Rgba}
    (h : s.writePixel x y p = .next t) :
    s.pixelAddr x y + s.bpp ≤ 2 ^ s.params.addrBits ∧
      t = s.painted x y p := by
  have hfit : s.pixelAddr x y + s.bpp ≤ 2 ^ s.params.addrBits := by
    unfold State.writePixel at h
    obtain ⟨s1, h1, h⟩ := andThen_eq_next.mp h
    obtain ⟨s2, h2, h⟩ := andThen_eq_next.mp h
    obtain ⟨s3, h3, h⟩ := andThen_eq_next.mp h
    obtain ⟨-, rfl⟩ := State.canvasWrite_eq_next h1
    obtain ⟨-, rfl⟩ := State.canvasWrite_eq_next h2
    obtain ⟨hlt, rfl⟩ := State.canvasWrite_eq_next h3
    dsimp only at hlt h
    split at h
    · rename_i hf
      have hlt := (State.canvasWrite_eq_next h).1
      dsimp only at hlt
      simp only [State.bpp, hf, ↓reduceIte]
      omega
    · rename_i hf
      simp only [State.bpp, hf]
      simp only [Bool.false_eq_true, ↓reduceIte]
      omega
  exact ⟨hfit, (Host.Outcome.next.inj ((State.writePixel_of_fits p hfit).symm.trans h)).symm⟩

theorem PaintOnly.pixel {s : State} {x y : Nat} (p : Rgba) (hx : x < s.screenWidth.toNat)
    (hy : y < s.screenHeight.toNat) (hfit : s.pixelAddr x y + s.bpp ≤ 2 ^ s.params.addrBits) :
    PaintOnly s (s.painted x y p) := by
  have hend := State.pixelAddr_end hx hy
  have h3 : 3 ≤ s.bpp := by unfold State.bpp; split <;> omega
  have h4 : s.fmtRgba = true → s.bpp = 4 := fun h => by simp [State.bpp, h]
  have hbase : s.canvasBase.toNat ≤ s.pixelAddr x y := by unfold State.pixelAddr; omega
  refine ⟨rfl, fun w => ?_, fun b => ?_, fun a ha => ?_⟩
  · unfold State.painted paintPixel
    dsimp only
    split
    · exact Memory.wf_write _ _ (Memory.wf_write _ _ (Memory.wf_write _ _ (Memory.wf_write _ _ w)))
    · exact Memory.wf_write _ _ (Memory.wf_write _ _ (Memory.wf_write _ _ w))
  · have b3 := Memory.write_below p.b (Memory.write_below p.g
      (Memory.write_below p.r b (a := s.pixelAddr x y) (by omega))
      (a := s.pixelAddr x y + 1) (by omega)) (a := s.pixelAddr x y + 2) (by omega)
    unfold State.painted paintPixel
    dsimp only
    split
    · rename_i hf
      have := h4 hf
      exact Memory.write_below p.a b3 (by omega)
    · exact b3
  · unfold State.painted
    dsimp only
    rw [read_paintPixel]
    rw [if_neg (by omega), if_neg (by omega), if_neg (by omega), if_neg]
    rintro ⟨hf, ha'⟩
    have := h4 hf
    omega

/-- Everything `PixelOut` can do when it answers a next state: drop the pixel, or paint it. -/
theorem State.pixelOut_eq_next {s t : State} {k : Nat} {v : Symbol}
    (h : s.pixelOut k v = .next t) :
    t = s ∨
    (k < s.imgWidth.toNat * s.imgHeight.toNat ∧
      let x := s.imgLeft.toNat + k % s.imgWidth.toNat
      let y := s.imgTop.toNat + (s.rowEntry (k / s.imgWidth.toNat)).toNat
      x < s.screenWidth.toNat ∧ y < s.screenHeight.toNat ∧ v.toNat < s.palSize ∧
        s.pixelAddr x y + s.bpp ≤ 2 ^ s.params.addrBits ∧
        t = s.painted x y (s.palEntry (v.setWidth 8))) := by
  unfold State.pixelOut at h
  split at h
  · exact .inl (Host.Outcome.next.inj h).symm
  rename_i hk
  unfold State.mapPixel State.clip at h
  split at h
  · exact .inl (Host.Outcome.next.inj h).symm
  rename_i hc
  unfold State.colorWrite at h
  split at h
  · exact .inl (Host.Outcome.next.inj h).symm
  rename_i hv
  obtain ⟨hfit, ht⟩ := State.writePixel_eq_next h
  exact .inr ⟨by omega, by omega, by omega, by omega, hfit, ht⟩

theorem State.pixelOut_paintOnly {s t : State} {k : Nat} {v : Symbol}
    (h : s.pixelOut k v = .next t) : PaintOnly s t := by
  rcases State.pixelOut_eq_next h with rfl | ⟨-, hx, hy, -, hfit, rfl⟩
  · exact PaintOnly.refl _
  · exact PaintOnly.pixel _ hx hy hfit

/-- `PixelOut` answers a next state when the canvas fits. -/
theorem State.pixelOut_answers {s : State} (k : Nat) (v : Symbol)
    (hfit : s.canvasEnd ≤ 2 ^ s.params.addrBits) : ∃ t, s.pixelOut k v = .next t := by
  unfold State.pixelOut
  split
  · exact ⟨_, rfl⟩
  unfold State.mapPixel State.clip
  split
  · exact ⟨_, rfl⟩
  rename_i hc
  unfold State.colorWrite
  split
  · exact ⟨_, rfl⟩
  exact ⟨_, State.writePixel_of_fits _ (Nat.le_trans
    (State.pixelAddr_end (by omega) (by omega)) hfit)⟩

end Sys2Proof.Machine
end

