-- ==== Sys2Proof/Laws/Dictionary.lean ====
section
/-! SUPPORT. What emission and insertion can do (R106, R107), and that an image's laws survive them (R108). -/

namespace Sys2Proof.Machine

/-- Every law of an image in progress is about fields other than the canvas. -/
theorem State.StreamInv.of_paintOnly {s t : State} (h : s.StreamInv) (p : PaintOnly s t) :
    t.StreamInv := by
  rw [p.frame]
  exact ⟨h.root_range, h.ct_range, h.ct_first, h.width_law, h.pend_cnt, h.pend_val, h.old_code,
    h.roots, h.chains, h.rows, h.canvas_fits, h.len_eoi⟩

/-- A truncated symbol has at most `P_SYMBOL_BITS` bits (R96). -/
theorem truncSymbol_toNat_lt (bits i : Nat) : (truncSymbol bits i).toNat < 2 ^ bits := by
  unfold truncSymbol
  rw [BitVec.toNat_ofNat]
  exact Nat.lt_of_le_of_lt (Nat.mod_le _ _) (Nat.mod_lt _ (Nat.two_pow_pos bits))

/-- DictInit writes symbols that fit (R26, R96). -/
theorem State.SymbolsFit.dictInit {s : State} (h : s.SymbolsFit) : s.dictInit.SymbolsFit := by
  intro cell hc
  rcases Memory.mem_fill hc with hc | hc
  · obtain ⟨i, -, hi⟩ := List.mem_map.mp hc
    rw [← hi]
    exact ⟨truncSymbol_toNat_lt _ _, truncSymbol_toNat_lt _ _⟩
  · exact h cell hc

theorem PaintOnly.entry_eq {s t : State} (p : PaintOnly s t) (e : Code) : t.entry e = s.entry e := by
  rw [p.frame]; rfl

theorem PaintOnly.defines_eq {s t : State} (p : PaintOnly s t) (e : Nat) :
    t.defines e = s.defines e := by
  rw [p.frame]; rfl

/-- A defined index is a root or an inserted entry (R23). -/
theorem State.StreamInv.defines_cases {s : State} {e : Nat} (hd : s.defines e) :
    e < s.numRoot ∨ (s.numRoot + 2 ≤ e ∧ e < s.ctUsed.toNat) := by
  obtain ⟨h1, h2, h3⟩ := hd
  unfold eoiCodeOf clearCodeOf at *
  unfold State.numRoot
  omega

/-- A defined entry is present; it is a root of length 0, or its parent is a defined entry one shorter with
the same `firstchar` (R108). -/
theorem State.StreamInv.entry_cases {s : State} (h : s.StreamInv) {e : Code}
    (hd : s.defines e.toNat) :
    ∃ d, s.entry e = some d ∧
      ((d.length.toNat = 0 ∧ d.value = d.firstchar) ∨
       ∃ p, s.entry d.parent = some p ∧ s.defines d.parent.toNat ∧
        d.length.toNat = p.length.toNat + 1 ∧ d.firstchar = p.firstchar) := by
  rw [State.entry_of_defines hd]
  rcases State.StreamInv.defines_cases hd with hr | ⟨h1, h2⟩
  · exact ⟨_, h.roots _ hr, .inl ⟨rfl, rfl⟩⟩
  · obtain ⟨d, p, hrd, hrp, -, hdp, hl, hf, -⟩ := h.chains _ h1 h2
    exact ⟨d, hrd, .inr ⟨p, by rw [State.entry_of_defines hdp, hrp], hdp, hl, hf⟩⟩

/-! ### Emission -/

theorem State.emitFrom_paintOnly {s t : State} {x : Code} {off : Nat}
    (h : s.emitFrom x off = .next t) : PaintOnly s t := by
  induction off generalizing s x with
  | zero =>
    unfold State.emitFrom at h
    split at h
    · cases h
    obtain ⟨s1, h1, h⟩ := andThen_eq_next.mp h
    rw [← Host.Outcome.next.inj h]
    exact State.pixelOut_paintOnly h1
  | succ off ih =>
    unfold State.emitFrom at h
    split at h
    · cases h
    obtain ⟨s1, h1, h⟩ := andThen_eq_next.mp h
    exact (State.pixelOut_paintOnly h1).trans (ih h)

/-- Everything `Emit` can do when it answers a next state: paint, and advance the cursor by the entry's
length plus one. -/
theorem State.emit_eq_next {s t : State} {e : Code} (h : s.emit e = .next t) :
    ∃ d u, s.entry e = some d ∧ PaintOnly s u ∧
      t = { u with cursor := s.cursor + d.length.toNat + 1 } := by
  unfold State.emit at h
  split at h
  · cases h
  rename_i d hd
  obtain ⟨u, hu, h⟩ := andThen_eq_next.mp h
  have hp := State.emitFrom_paintOnly hu
  refine ⟨d, u, hd, hp, ?_⟩
  have hc : u.cursor = s.cursor := by rw [hp.frame]
  rw [← hc]
  exact (Host.Outcome.next.inj h).symm

/-- The walk of `Emit` answers a next state on a defined entry (R108: it ends at a root). -/
theorem State.StreamInv.emitFrom_answers {s : State} (h : s.StreamInv) {x : Code} {off : Nat}
    {d : DictEntry} (hx : s.defines x.toNat) (hd : s.entry x = some d) (hoff : d.length.toNat = off) :
    ∃ t, s.emitFrom x off = .next t := by
  induction off generalizing s x d with
  | zero =>
    obtain ⟨t, ht⟩ := State.pixelOut_answers (s.cursor + 0) d.value h.canvas_fits
    refine ⟨t, ?_⟩
    unfold State.emitFrom
    rw [hd]
    simp only [ht, andThen_next]
  | succ off ih =>
    obtain ⟨t, ht⟩ := State.pixelOut_answers (s.cursor + (off + 1)) d.value h.canvas_fits
    have hp := State.pixelOut_paintOnly ht
    obtain ⟨d', hd', hcase⟩ := h.entry_cases hx
    rw [hd] at hd'
    obtain rfl := Option.some.inj hd'
    rcases hcase with ⟨h0, -⟩ | ⟨p, hpe, hdp, hl, -⟩
    · omega
    · obtain ⟨u, hu⟩ := ih (h.of_paintOnly hp) (x := d.parent) (d := p)
        (by rw [hp.defines_eq]; exact hdp) (by rw [hp.entry_eq]; exact hpe) (by omega)
      refine ⟨u, ?_⟩
      unfold State.emitFrom
      rw [hd]
      simp only [ht, andThen_next, hu]

/-- `Emit` answers a next state on a defined entry. -/
theorem State.StreamInv.emit_answers {s : State} (h : s.StreamInv) {e : Code}
    (he : s.defines e.toNat) :
    ∃ d u, s.entry e = some d ∧ PaintOnly s u ∧
      s.emit e = .next { u with cursor := s.cursor + d.length.toNat + 1 } := by
  obtain ⟨d, hd, -⟩ := h.entry_cases he
  obtain ⟨u, hu⟩ := h.emitFrom_answers he hd rfl
  have hp := State.emitFrom_paintOnly hu
  refine ⟨d, u, hd, hp, ?_⟩
  have hc : u.cursor = s.cursor := by rw [hp.frame]
  unfold State.emit
  rw [hd]
  simp only [hu, andThen_next, hc]

/-! ### Insertion -/

theorem State.insert_of_full {s : State} (p : Code) (v : Symbol)
    (h : Config.dictSize ≤ s.ctUsed.toNat) : s.insert p v = .next s := by
  unfold State.insert
  rw [if_neg (by omega)]

theorem State.insert_of_entry {s : State} {p : Code} {d : DictEntry} (v : Symbol)
    (hd : s.entry p = some d) (h : s.ctUsed.toNat < Config.dictSize) :
    s.insert p v = .next (s.addEntry (childEntry p d v)).growCheck := by
  unfold State.insert
  rw [if_pos h, hd]

/-- Everything `Insert` can do when it answers a next state. -/
theorem State.insert_eq_next {s t : State} {p : Code} {v : Symbol} (h : s.insert p v = .next t) :
    (Config.dictSize ≤ s.ctUsed.toNat ∧ t = s) ∨
    (s.ctUsed.toNat < Config.dictSize ∧ ∃ d, s.entry p = some d ∧
      t = (s.addEntry (childEntry p d v)).growCheck) := by
  unfold State.insert at h
  split at h
  · rename_i hlt
    split at h
    · cases h
    rename_i d hd
    exact .inr ⟨hlt, d, hd, (Host.Outcome.next.inj h).symm⟩
  · exact .inl ⟨by omega, (Host.Outcome.next.inj h).symm⟩

/-- The width law across one insertion (R92, R94): the threshold list is the powers of two from 8 to 2048. -/
theorem widthLaw_succ (n : Nat) (hn : n < Config.dictSize) (h6 : 6 ≤ n) :
    widthLaw (n + 1) = if growsAt.contains (n + 1) then widthLaw n + 1 else widthLaw n := by
  obtain ⟨k, hk⟩ : ∃ k, Nat.log2 n = k := ⟨_, rfl⟩
  obtain ⟨hlo, hhi⟩ := (Nat.log2_eq_iff (by omega)).mp hk
  have hk2 : 2 ≤ k := by
    by_contra hc
    have := Nat.pow_le_pow_right (n := 2) (by omega) (show k + 1 ≤ 2 by omega)
    omega
  have hk11 : k ≤ 11 := by
    by_contra hc
    have := Nat.pow_le_pow_right (n := 2) (by omega) (show 12 ≤ k by omega)
    simp only [Config.dictSize] at hn
    omega
  rcases Nat.lt_or_ge (n + 1) (2 ^ (k + 1)) with hlt | hge
  · have hs : Nat.log2 (n + 1) = k := (Nat.log2_eq_iff (by omega)).mpr ⟨by omega, hlt⟩
    have hc : growsAt.contains (n + 1) = false := by
      interval_cases k <;> simp [growsAt] <;> omega
    simp only [widthLaw, hs, hk, hc]
    simp
  · have he : n + 1 = 2 ^ (k + 1) := by omega
    have hs : Nat.log2 (n + 1) = k + 1 := by rw [he]; exact Nat.log2_two_pow
    simp only [widthLaw, hs, hk]
    rw [he]
    interval_cases k <;> decide

theorem widthLaw_le (n : Nat) : widthLaw n ≤ 12 := Nat.min_le_left _ _

theorem State.addEntry_ctUsed_toNat {s : State} (d : DictEntry)
    (h : s.ctUsed.toNat < Config.dictSize) : (s.addEntry d).ctUsed.toNat = s.ctUsed.toNat + 1 := by
  have h1 : (1 : BitVec 13).toNat = 1 := rfl
  simp only [State.addEntry_ctUsed, BitVec.toNat_add, h1]
  simp only [Config.dictSize] at h
  omega

/-- An image's laws survive an insertion whose parent is a defined entry (R106, R108). -/
theorem State.StreamInv.insert {s : State} (h : s.StreamInv) {p : Code} {d : DictEntry} (v : Symbol)
    (hd : s.entry p = some d) (hov : s.oldValid = true) (hct : s.ctUsed.toNat < Config.dictSize) :
    ((s.addEntry (childEntry p d v)).growCheck).StreamInv := by
  obtain ⟨hdef, hread⟩ := State.entry_eq_some hd
  have hct' := State.addEntry_ctUsed_toNat (childEntry p d v) hct
  have hnr : 4 ≤ s.numRoot := by
    have := Nat.pow_le_pow_right (n := 2) (by omega) h.root_range.1
    exact this
  have hother : ∀ e, e < s.ctUsed.toNat →
      Memory.read (s.addEntry (childEntry p d v)).growCheck.dict e = Memory.read s.dict e := by
    intro e he
    simp only [State.growCheck_dict, State.addEntry_dict]
    exact Memory.read_write_other _ _ (by omega)
  have hdefs : ∀ e, s.defines e → (s.addEntry (childEntry p d v)).growCheck.defines e := by
    intro e ⟨h1, h2, h3⟩
    refine ⟨?_, h2.trans_eq ?_, h3.trans_eq ?_⟩
    · simp only [State.growCheck_ctUsed, hct']; omega
    · simp
    · simp
  have hnumRoot : (s.addEntry (childEntry p d v)).growCheck.numRoot = s.numRoot := by
    simp [State.numRoot]
  have hwle : s.width.toNat ≤ 12 := by rw [h.width_law]; exact widthLaw_le _
  have hwidth : (s.addEntry (childEntry p d v)).growCheck.width.toNat =
      widthLaw (s.ctUsed.toNat + 1) := by
    rw [State.growCheck_width, hct', widthLaw_succ _ hct (by have := h.ct_range.1; omega)]
    split
    · have h1 : (1 : BitVec 4).toNat = 1 := rfl
      simp only [State.addEntry_width, BitVec.toNat_add, h1, ← h.width_law]
      omega
    · simp only [State.addEntry_width, h.width_law]
  refine ⟨by simpa using h.root_range, ?_, by simp [hov], ?_, ?_, by simpa using h.pend_val, ?_, ?_,
    ?_, by simpa using h.rows, ?_, by simpa using h.len_eoi⟩
  · rw [hnumRoot, State.growCheck_ctUsed, hct']
    have := h.ct_range
    omega
  · rw [hwidth, State.growCheck_ctUsed, hct']
  · rw [hwidth, State.growCheck_pendCnt, State.addEntry_pendCnt]
    refine Nat.lt_of_lt_of_le h.pend_cnt ?_
    rw [h.width_law, widthLaw_succ _ hct (by have := h.ct_range.1; omega)]
    split <;> omega
  · intro _
    rw [State.growCheck_oldCode, State.addEntry_oldCode]
    exact hdefs _ (h.old_code hov)
  · intro i hi
    rw [hnumRoot] at hi
    rw [hother i (by have := h.ct_range.1; omega), State.growCheck_params, State.addEntry_params]
    exact h.roots i hi
  · intro e he1 he2
    rw [hnumRoot] at he1
    rw [State.growCheck_ctUsed, hct'] at he2
    by_cases heq : e = s.ctUsed.toNat
    · subst heq
      refine ⟨childEntry p d v, d, ?_, ?_, hdef.1, hdefs _ hdef, ?_, rfl, ?_⟩
      · simp only [State.growCheck_dict, State.addEntry_dict]
        exact Memory.read_write_same _ _ _
      · rw [show (childEntry p d v).parent = p from rfl, hother _ hdef.1]
        exact hread
      all_goals
        have hlen : d.length.toNat + s.numRoot + 2 ≤ s.ctUsed.toNat := by
          rcases State.StreamInv.defines_cases hdef with hr | ⟨h1, h2⟩
          · have := h.roots _ hr
            rw [hread] at this
            obtain rfl := Option.some.inj this
            simp only [rootEntry]
            have := h.ct_range.1
            simpa using this
          · obtain ⟨d', p', hrd, -, -, -, -, -, hb⟩ := h.chains _ h1 h2
            rw [hread] at hrd
            obtain rfl := Option.some.inj hrd
            omega
        have hl1 : (childEntry p d v).length.toNat = d.length.toNat + 1 := by
          have h1 : (1 : BitVec 16).toNat = 1 := rfl
          simp only [childEntry, BitVec.toNat_add, h1]
          simp only [Config.dictSize] at hct
          omega
      · exact hl1
      · rw [hl1, hnumRoot]
        omega
    · obtain ⟨d', p', hrd, hrp, hlt, hdp, hl, hf, hb⟩ := h.chains e he1 (by omega)
      refine ⟨d', p', ?_, ?_, hlt, hdefs _ hdp, hl, hf, ?_⟩
      · rw [hother _ (by omega)]; exact hrd
      · rw [hother _ (by omega)]; exact hrp
      · rw [hnumRoot]; exact hb
  · simpa [State.canvasEnd, State.bpp] using h.canvas_fits

end Sys2Proof.Machine
end

