-- ==== Sys2Proof/Laws/Lzw.lean ====
section
/-! SUPPORT. What a code and a payload byte can do (R90, R98 to R105): they change the decode's own fields, they
paint, and they keep an image's laws or end in a DECODE error. -/

namespace Sys2Proof.Machine

/-- `t` is `s` after codes: the configuration, `root`, the palette, the row-order table, `bytes_in` and the
host's side are as they were; the canvas differs only inside the screen's rectangle. -/
structure CodeOnly (s t : State) : Prop where
  frame : t = { s with
    seq := t.seq, frameRem := t.frameRem, eoiFlag := t.eoiFlag, oldValid := t.oldValid
    irqPend := t.irqPend, width := t.width, ctUsed := t.ctUsed, oldCode := t.oldCode
    pendVal := t.pendVal, pendCnt := t.pendCnt, dict := t.dict, cursor := t.cursor
    errCode := t.errCode, errInfo := t.errInfo, canvas := t.canvas }
  wf : Memory.wf s.canvas → Memory.wf t.canvas
  below : (∀ cell ∈ s.canvas, cell.1 < 2 ^ s.params.addrBits) →
    ∀ cell ∈ t.canvas, cell.1 < 2 ^ s.params.addrBits
  outside : ∀ a, a < s.canvasBase.toNat ∨ s.canvasEnd ≤ a →
    Memory.read t.canvas a = Memory.read s.canvas a
  dict_wf : Memory.wf s.dict → Memory.wf t.dict
  dict_below : (∀ cell ∈ s.dict, cell.1 < Config.dictSize) → ∀ cell ∈ t.dict, cell.1 < Config.dictSize
  symbols_fit : s.SymbolsFit → t.SymbolsFit
  cursor_le : s.cursor ≤ t.cursor

theorem CodeOnly.refl (s : State) : CodeOnly s s :=
  ⟨rfl, id, id, fun _ _ => rfl, id, id, id, Nat.le_refl _⟩

theorem CodeOnly.trans {s t u : State} (h : CodeOnly s t) (k : CodeOnly t u) : CodeOnly s u := by
  have hp : t.params = s.params := by rw [h.frame]
  refine ⟨?_, fun w => k.wf (h.wf w), fun b => ?_, fun a ha => ?_,
    fun w => k.dict_wf (h.dict_wf w), fun b => k.dict_below (h.dict_below b),
    fun f => k.symbols_fit (h.symbols_fit f), Nat.le_trans h.cursor_le k.cursor_le⟩
  · have hk := k.frame
    rw [h.frame] at hk
    exact hk
  · have hb := k.below (hp ▸ h.below b)
    rwa [hp] at hb
  · have hb : t.canvasBase = s.canvasBase := by rw [h.frame]
    have he : t.canvasEnd = s.canvasEnd := by rw [h.frame]; rfl
    rw [k.outside a (by rw [hb, he]; exact ha), h.outside a ha]

/-- A change of the decode's own fields other than the canvas, the dictionary and the cursor. -/
theorem CodeOnly.of_eq {s t : State} (h : t = { s with
      seq := t.seq, frameRem := t.frameRem, eoiFlag := t.eoiFlag, oldValid := t.oldValid
      irqPend := t.irqPend, width := t.width, ctUsed := t.ctUsed, oldCode := t.oldCode
      pendVal := t.pendVal, pendCnt := t.pendCnt, errCode := t.errCode, errInfo := t.errInfo }) :
    CodeOnly s t := by
  have hc : t.canvas = s.canvas := by rw [h]
  have hd : t.dict = s.dict := by rw [h]
  have hu : t.cursor = s.cursor := by rw [h]
  have hp : t.params = s.params := by rw [h]
  refine ⟨?_, by rw [hc]; exact id, by rw [hc]; exact id, by rw [hc]; exact fun _ _ => rfl,
    by rw [hd]; exact id, by rw [hd]; exact id, by unfold State.SymbolsFit; rw [hd, hp]; exact id,
    by rw [hu]⟩
  rw [hc, hd, hu]
  exact h

theorem PaintOnly.codeOnly {s t : State} (h : PaintOnly s t) : CodeOnly s t := by
  have hf := h.frame
  refine ⟨?_, h.wf, h.below, h.outside, ?_, ?_, ?_, ?_⟩
  · have e : ∀ f : State → State, f { s with canvas := t.canvas } = f t := fun f => by rw [← hf]
    generalize t.canvas = m at hf
    subst hf
    rfl
  all_goals rw [hf]
  · exact id
  · exact id
  · exact id

theorem CodeOnly.advance (s : State) (n : Nat) : CodeOnly s { s with cursor := s.cursor + n } :=
  ⟨rfl, id, id, fun _ _ => rfl, id, id, id, Nat.le_add_right _ _⟩

theorem State.emit_codeOnly {s t : State} {e : Code} (h : s.emit e = .next t) : CodeOnly s t := by
  obtain ⟨d, u, -, hp, rfl⟩ := State.emit_eq_next h
  have hc : s.cursor = u.cursor := by rw [hp.frame]
  rw [hc, Nat.add_assoc]
  exact hp.codeOnly.trans (CodeOnly.advance u _)

theorem State.insertFirstcharOf_eq_next {s t : State} {p c : Code}
    (h : s.insertFirstcharOf p c = .next t) :
    ∃ d, s.entry c = some d ∧ s.insert p d.firstchar = .next t := by
  unfold State.insertFirstcharOf at h
  split at h
  · cases h
  · rename_i d hd
    exact ⟨d, hd, h⟩

/-- The symbols of a listed entry fit. -/
theorem State.SymbolsFit.of_entry {s : State} (h : s.SymbolsFit) {e : Code} {d : DictEntry}
    (hd : s.entry e = some d) : d.value.toNat < 2 ^ s.params.symbolBits ∧
      d.firstchar.toNat < 2 ^ s.params.symbolBits :=
  h _ (Memory.mem_of_read (State.entry_eq_some hd).2)

theorem State.insertFirstcharOf_codeOnly {s t : State} {p c : Code}
    (h : s.insertFirstcharOf p c = .next t) : CodeOnly s t := by
  obtain ⟨dc, hdc, h⟩ := State.insertFirstcharOf_eq_next h
  rcases State.insert_eq_next h with ⟨-, rfl⟩ | ⟨hct, d, hd, rfl⟩
  · exact CodeOnly.refl _
  refine ⟨?_, ?_, ?_, ?_, ?_, ?_, ?_, ?_⟩
  · unfold State.growCheck State.addEntry
    split <;> rfl
  · simp
  · simp
  · simp
  · simp only [State.growCheck_dict, State.addEntry_dict]
    exact Memory.wf_write _ _
  · simp only [State.growCheck_dict, State.addEntry_dict]
    exact fun b => Memory.write_below _ b hct
  · intro hf cell hc
    simp only [State.growCheck_dict, State.addEntry_dict] at hc
    simp only [State.growCheck_params, State.addEntry_params]
    rcases Memory.mem_write hc with rfl | hc
    · exact ⟨(hf.of_entry hdc).2, (hf.of_entry hd).2⟩
    · exact hf cell hc
  · simp

theorem State.raiseError_codeOnly (s : State) (code : ErrCode) (info : Word) :
    CodeOnly s (s.raiseError code info) :=
  CodeOnly.of_eq rfl

theorem State.dictReset_codeOnly (s : State) : CodeOnly s s.dictReset :=
  CodeOnly.of_eq rfl

/-- A code changes only what `CodeOnly` names. -/
theorem processCode_codeOnly {s t : State} {c : Code} (h : processCode c s = .next t) :
    CodeOnly s t := by
  unfold processCode at h
  split at h <;> rename_i hcl
  · simp only [execLzwEoi, hcl, ↓reduceIte, Host.Outcome.next.injEq] at h
    rw [← h]; exact CodeOnly.of_eq rfl
  · simp only [execLzwClear, hcl, ↓reduceIte, Host.Outcome.next.injEq] at h
    rw [← h]; exact State.dictReset_codeOnly s
  · simp only [execLzwFirst, hcl, ↓reduceIte] at h
    obtain ⟨s1, h1, h⟩ := andThen_eq_next.mp h
    rw [← Host.Outcome.next.inj h]
    exact (State.emit_codeOnly h1).trans (CodeOnly.of_eq rfl)
  · simp only [execLzwBadFirst, hcl, ↓reduceIte, Host.Outcome.next.injEq] at h
    rw [← h]; exact State.raiseError_codeOnly _ _ _
  · simp only [execLzwKnown, hcl, ↓reduceIte] at h
    obtain ⟨s1, h1, h⟩ := andThen_eq_next.mp h
    obtain ⟨s2, h2, h⟩ := andThen_eq_next.mp h
    rw [← Host.Outcome.next.inj h]
    exact ((State.emit_codeOnly h1).trans (State.insertFirstcharOf_codeOnly h2)).trans (CodeOnly.of_eq rfl)
  · simp only [execLzwPending, hcl, ↓reduceIte] at h
    obtain ⟨s1, h1, h⟩ := andThen_eq_next.mp h
    obtain ⟨s2, h2, h⟩ := andThen_eq_next.mp h
    rw [← Host.Outcome.next.inj h]
    exact ((State.insertFirstcharOf_codeOnly h1).trans (State.emit_codeOnly h2)).trans (CodeOnly.of_eq rfl)
  · simp only [execLzwBeyond, hcl, ↓reduceIte, Host.Outcome.next.injEq] at h
    rw [← h]; exact State.raiseError_codeOnly _ _ _

theorem State.acceptBit_codeOnly {s t : State} {b : Bool} (h : s.acceptBit b = .next t) :
    CodeOnly s t := by
  unfold State.acceptBit at h
  dsimp only at h
  split at h
  · exact (CodeOnly.of_eq rfl : CodeOnly s { s with pendVal := 0, pendCnt := 0 }).trans
      (processCode_codeOnly h)
  · rw [← Host.Outcome.next.inj h]
    exact CodeOnly.of_eq rfl

theorem acceptBits_codeOnly {bs : List Bool} {s t : State} (h : acceptBits bs s = .next t) :
    CodeOnly s t := by
  induction bs generalizing s with
  | nil =>
    rw [← Host.Outcome.next.inj h]
    exact CodeOnly.refl _
  | cons b bs ih =>
    unfold acceptBits at h
    split at h
    · rw [← Host.Outcome.next.inj h]
      exact CodeOnly.refl _
    · obtain ⟨s1, h1, h⟩ := andThen_eq_next.mp h
      exact (State.acceptBit_codeOnly h1).trans (ih h)

/-! ### The class of a code (R76) -/

theorem classify_eq_eoi (x : DecodeCtx) (c : Code) :
    classify x c = .eoi ↔ c.toNat = eoiCodeOf x.root := by
  unfold classify
  split_ifs <;> simp_all

theorem classify_eq_clear (x : DecodeCtx) (c : Code) :
    classify x c = .clear ↔ c.toNat = clearCodeOf x.root := by
  unfold classify
  split_ifs <;> simp_all [eoiCodeOf]

theorem classify_eq_first (x : DecodeCtx) (c : Code) :
    classify x c = .first ↔ x.oldValid = false ∧ c.toNat < x.ctUsed.toNat ∧
      c.toNat ≠ clearCodeOf x.root ∧ c.toNat ≠ eoiCodeOf x.root := by
  unfold classify
  split_ifs <;> simp_all

theorem classify_eq_badFirst (x : DecodeCtx) (c : Code) :
    classify x c = .badFirst ↔ x.oldValid = false ∧ x.ctUsed.toNat ≤ c.toNat ∧
      c.toNat ≠ clearCodeOf x.root ∧ c.toNat ≠ eoiCodeOf x.root := by
  unfold classify
  split_ifs <;> simp_all

theorem classify_eq_known (x : DecodeCtx) (c : Code) :
    classify x c = .known ↔ x.oldValid = true ∧ c.toNat < x.ctUsed.toNat ∧
      c.toNat ≠ clearCodeOf x.root ∧ c.toNat ≠ eoiCodeOf x.root := by
  unfold classify
  split_ifs <;> simp_all

theorem classify_eq_pending (x : DecodeCtx) (c : Code) :
    classify x c = .pending ↔ x.oldValid = true ∧ c.toNat = x.ctUsed.toNat ∧
      c.toNat ≠ clearCodeOf x.root ∧ c.toNat ≠ eoiCodeOf x.root := by
  unfold classify
  split_ifs <;> simp_all
  omega

theorem classify_eq_beyond (x : DecodeCtx) (c : Code) :
    classify x c = .beyond ↔ x.oldValid = true ∧ x.ctUsed.toNat < c.toNat ∧
      c.toNat ≠ clearCodeOf x.root ∧ c.toNat ≠ eoiCodeOf x.root := by
  unfold classify
  split_ifs <;> simp_all <;> omega

theorem State.classOf_eq_eoi {s : State} {c : Code} :
    s.classOf c = .eoi ↔ c.toNat = eoiCodeOf s.root :=
  classify_eq_eoi s.ctx c

theorem State.classOf_eq_clear {s : State} {c : Code} :
    s.classOf c = .clear ↔ c.toNat = clearCodeOf s.root :=
  classify_eq_clear s.ctx c

theorem State.classOf_eq_first {s : State} {c : Code} :
    s.classOf c = .first ↔ s.oldValid = false ∧ s.defines c.toNat :=
  classify_eq_first s.ctx c

theorem State.classOf_eq_badFirst {s : State} {c : Code} :
    s.classOf c = .badFirst ↔ s.oldValid = false ∧ s.ctUsed.toNat ≤ c.toNat ∧
      c.toNat ≠ clearCodeOf s.root ∧ c.toNat ≠ eoiCodeOf s.root :=
  classify_eq_badFirst s.ctx c

theorem State.classOf_eq_known {s : State} {c : Code} :
    s.classOf c = .known ↔ s.oldValid = true ∧ s.defines c.toNat :=
  classify_eq_known s.ctx c

theorem State.classOf_eq_pending {s : State} {c : Code} :
    s.classOf c = .pending ↔ s.oldValid = true ∧ c.toNat = s.ctUsed.toNat ∧
      c.toNat ≠ clearCodeOf s.root ∧ c.toNat ≠ eoiCodeOf s.root :=
  classify_eq_pending s.ctx c

theorem State.classOf_eq_beyond {s : State} {c : Code} :
    s.classOf c = .beyond ↔ s.oldValid = true ∧ s.ctUsed.toNat < c.toNat ∧
      c.toNat ≠ clearCodeOf s.root ∧ c.toNat ≠ eoiCodeOf s.root :=
  classify_eq_beyond s.ctx c

/-! ### An image's laws survive a code -/

/-- What a code leaves alone, and the laws it keeps, when it raises no error. -/
structure CodeGood (s t : State) : Prop where
  seq : t.seq = s.seq
  frameRem : t.frameRem = s.frameRem
  irqPend : t.irqPend = s.irqPend
  errCode : t.errCode = s.errCode
  errInfo : t.errInfo = s.errInfo
  pendVal : t.pendVal = s.pendVal
  pendCnt : t.pendCnt = s.pendCnt
  inv : t.StreamInv

theorem State.StreamInv.withCursor {s : State} (h : s.StreamInv) (n : Nat) :
    ({ s with cursor := n } : State).StreamInv :=
  ⟨h.root_range, h.ct_range, h.ct_first, h.width_law, h.pend_cnt, h.pend_val, h.old_code,
    h.roots, h.chains, h.rows, h.canvas_fits, h.len_eoi⟩

/-- The width law at a reset occupancy (R97). -/
theorem widthLaw_reset (r : Nat) (h : 2 ≤ r) (h' : r ≤ 11) : widthLaw (2 ^ r + 2) = r + 1 := by
  interval_cases r <;> decide

/-- An image's laws after a dictionary reset (R97, R100). -/
theorem State.StreamInv.dictReset {s : State} (h : s.StreamInv) (hp : s.pendCnt = 0)
    (hv : s.pendVal = 0) : s.dictReset.StreamInv := by
  obtain ⟨hr1, hr2⟩ := h.root_range
  have hnr : s.numRoot ≤ 2 ^ 11 := Nat.pow_le_pow_right (by omega) hr2
  have hct : s.dictReset.ctUsed.toNat = s.numRoot + 2 := by
    simp only [State.dictReset_ctUsed, BitVec.toNat_ofNat]
    omega
  have hw : s.dictReset.width.toNat = s.root.toNat + 1 := by
    have h1 : (1 : BitVec 4).toNat = 1 := rfl
    simp only [State.dictReset_width, BitVec.toNat_add, h1]
    omega
  have hn : s.dictReset.numRoot = s.numRoot := rfl
  refine ⟨h.root_range, ?_, ?_, ?_, ?_, ?_, by simp, h.roots, ?_, h.rows, h.canvas_fits, h.len_eoi⟩
  · rw [hct, hn]
    simp only [Config.dictSize]
    omega
  · intro _
    rw [hct, hn]
  · rw [hw, hct]
    exact (widthLaw_reset _ hr1 hr2).symm
  · rw [hw, State.dictReset_pendCnt, hp]
    exact Nat.succ_pos _
  · rw [State.dictReset_pendVal, State.dictReset_pendCnt, hp, hv]
    decide
  · intro e h1 h2
    rw [hct, hn] at *
    omega

/-- An image's laws when the previous code is set to a defined one (R24). -/
theorem State.StreamInv.withOldCode {s : State} (h : s.StreamInv) {c : Code}
    (hc : s.defines c.toNat) : ({ s with oldCode := c, oldValid := true } : State).StreamInv :=
  ⟨h.root_range, h.ct_range, (by intro hf; cases hf), h.width_law, h.pend_cnt, h.pend_val,
    fun _ => hc, h.roots, h.chains, h.rows, h.canvas_fits, h.len_eoi⟩

theorem State.StreamInv.withEoi {s : State} (h : s.StreamInv) (hs : s.seq = .data) :
    ({ s with eoiFlag := true } : State).StreamInv :=
  ⟨h.root_range, h.ct_range, h.ct_first, h.width_law, h.pend_cnt, h.pend_val, h.old_code,
    h.roots, h.chains, h.rows, h.canvas_fits, by intro hl; rw [hs] at hl; cases hl⟩

theorem State.StreamInv.withPend {s : State} (h : s.StreamInv) {v : BitVec 12} {n : BitVec 4}
    (hn : n.toNat < s.width.toNat) (hv : v.toNat < 2 ^ n.toNat) :
    ({ s with pendVal := v, pendCnt := n } : State).StreamInv :=
  ⟨h.root_range, h.ct_range, h.ct_first, h.width_law, hn, hv, h.old_code,
    h.roots, h.chains, h.rows, h.canvas_fits, h.len_eoi⟩

/-- `Emit` of a defined entry in an image in progress. -/
theorem State.StreamInv.emit_good {s : State} (h : s.StreamInv) {e : Code}
    (he : s.defines e.toNat) :
    ∃ t, s.emit e = .next t ∧ CodeGood s t ∧ (∀ x, t.defines x = s.defines x) ∧
      t.oldCode = s.oldCode ∧ t.oldValid = s.oldValid ∧ (∀ x, t.entry x = s.entry x) ∧
      t.ctUsed = s.ctUsed := by
  obtain ⟨d, u, -, hp, ht⟩ := h.emit_answers he
  have hu := h.of_paintOnly hp
  refine ⟨_, ht, ⟨?_, ?_, ?_, ?_, ?_, ?_, ?_, hu.withCursor _⟩, ?_, ?_, ?_, ?_, ?_⟩
  all_goals (rw [hp.frame]; try rfl)
  all_goals intro x; rfl

/-- Everything a code can do in an image in progress: keep its laws, or end in a DECODE error that changes
nothing else (R98, R130, R131). -/
theorem State.StreamInv.processCode {s : State} (h : s.StreamInv) (hs : s.seq = .data)
    (hp : s.pendCnt = 0) (hv : s.pendVal = 0) (c : Code) :
    (∃ t, processCode c s = .next t ∧ CodeGood s t) ∨
    (∃ info, processCode c s = .next (s.raiseError .decode info) ∧
      (s.classOf c = .badFirst ∨ s.classOf c = .beyond)) := by
  unfold Machine.processCode
  split <;> rename_i hcl
  · left
    simp only [execLzwEoi, hcl, ↓reduceIte]
    exact ⟨_, rfl, ⟨rfl, rfl, rfl, rfl, rfl, rfl, rfl, h.withEoi hs⟩⟩
  · left
    simp only [execLzwClear, hcl, ↓reduceIte]
    exact ⟨_, rfl, ⟨rfl, rfl, rfl, rfl, rfl, rfl, rfl, h.dictReset hp hv⟩⟩
  · left
    obtain ⟨-, hd⟩ := State.classOf_eq_first.mp hcl
    obtain ⟨t, ht, g, hdef, -⟩ := h.emit_good hd
    simp only [execLzwFirst, hcl, ↓reduceIte, ht, andThen_next]
    exact ⟨_, rfl, ⟨g.seq, g.frameRem, g.irqPend, g.errCode, g.errInfo, g.pendVal, g.pendCnt,
      g.inv.withOldCode (by rw [hdef]; exact hd)⟩⟩
  · right
    simp only [execLzwBadFirst, hcl, ↓reduceIte]
    exact ⟨_, rfl, .inl trivial⟩
  · left
    obtain ⟨hov, hd⟩ := State.classOf_eq_known.mp hcl
    obtain ⟨t, ht, g, hdef, hoc, hovt, hent, hctt⟩ := h.emit_good hd
    obtain ⟨dc, hdc, -⟩ := h.entry_cases hd
    obtain ⟨dp, hdp, -⟩ := h.entry_cases (h.old_code hov)
    simp only [execLzwKnown, hcl, ↓reduceIte, ht, andThen_next, State.insertFirstcharOf, hent, hdc]
    rcases Nat.lt_or_ge t.ctUsed.toNat Config.dictSize with hct | hct
    · have hdp' : t.entry t.oldCode = some dp := by rw [hent, hoc, hdp]
      rw [State.insert_of_entry _ hdp' hct]
      have hinv := g.inv.insert dc.firstchar hdp' (by rw [hovt, hov]) hct
      have hdc' : (t.addEntry (childEntry t.oldCode dp dc.firstchar)).growCheck.defines c.toNat := by
        have hl := State.addEntry_ctUsed_toNat (childEntry t.oldCode dp dc.firstchar) hct
        have hd' : t.defines c.toNat := by rw [hdef]; exact hd
        refine ⟨?_, by simpa using hd'.2.1, by simpa using hd'.2.2⟩
        rw [State.growCheck_ctUsed, hl]
        have := hd'.1
        omega
      have hfin := hinv.withOldCode hdc'
      have hovg : (t.addEntry (childEntry t.oldCode dp dc.firstchar)).growCheck.oldValid = true := by
        simp [hovt, hov]
      refine ⟨_, rfl, ⟨?_, ?_, ?_, ?_, ?_, ?_, ?_, ?_⟩⟩
      · simpa using g.seq
      · simpa using g.frameRem
      · simpa using g.irqPend
      · simpa using g.errCode
      · simpa using g.errInfo
      · simpa using g.pendVal
      · simpa using g.pendCnt
      · rw [← hovg] at hfin
        exact hfin
    · rw [State.insert_of_full _ _ hct]
      have hfin := g.inv.withOldCode (c := c) (by rw [hdef]; exact hd)
      refine ⟨_, rfl, ⟨g.seq, g.frameRem, g.irqPend, g.errCode, g.errInfo, g.pendVal, g.pendCnt, ?_⟩⟩
      rw [← hov, ← hovt] at hfin
      exact hfin
  · left
    obtain ⟨hov, hcc, hc1, hc2⟩ := State.classOf_eq_pending.mp hcl
    obtain ⟨dp, hdp, -⟩ := h.entry_cases (h.old_code hov)
    have hct : s.ctUsed.toNat < Config.dictSize := by rw [← hcc]; exact c.isLt
    simp only [execLzwPending, hcl, ↓reduceIte, State.insertFirstcharOf, hdp]
    rw [State.insert_of_entry _ hdp hct]
    simp only [andThen_next]
    have hinv := h.insert dp.firstchar hdp hov hct
    have hdc' : (s.addEntry (childEntry s.oldCode dp dp.firstchar)).growCheck.defines c.toNat := by
      have hl := State.addEntry_ctUsed_toNat (childEntry s.oldCode dp dp.firstchar) hct
      refine ⟨?_, by simpa using hc1, by simpa using hc2⟩
      rw [State.growCheck_ctUsed, hl]
      omega
    obtain ⟨t, ht, g, hdef, hoc, hovt, -, -⟩ := hinv.emit_good hdc'
    simp only [ht, andThen_next]
    have hfin := g.inv.withOldCode (c := c) (by rw [hdef]; exact hdc')
    have hovg : t.oldValid = true := by rw [hovt]; simp [hov]
    rw [← hovg] at hfin
    refine ⟨_, rfl, ⟨?_, ?_, ?_, ?_, ?_, ?_, ?_, hfin⟩⟩
    · simpa using g.seq
    · simpa using g.frameRem
    · simpa using g.irqPend
    · simpa using g.errCode
    · simpa using g.errInfo
    · simpa using g.pendVal
    · simpa using g.pendCnt
  · right
    simp only [execLzwBeyond, hcl, ↓reduceIte]
    exact ⟨_, rfl, .inr trivial⟩

end Sys2Proof.Machine
end

