-- ==== Sys2Proof/Laws/Bitstream.lean ====
section
/-! SUPPORT. What the bits of a payload byte can do in an image in progress (R90, R131). -/

namespace Sys2Proof.Machine

/-- What a run of stream bits leaves alone, and the laws it keeps, when it raises no error. -/
structure BitsGood (s t : State) : Prop where
  seq : t.seq = s.seq
  frameRem : t.frameRem = s.frameRem
  irqPend : t.irqPend = s.irqPend
  errCode : t.errCode = s.errCode
  errInfo : t.errInfo = s.errInfo
  inv : t.StreamInv

/-- What a DECODE error entered from a run of stream bits holds (R130). -/
structure BitsError (t : State) : Prop where
  seq : t.seq = .error
  frameRem : t.frameRem = 0
  irqPend : t.irqPend = true
  errCode : t.errCode = .decode

theorem BitsGood.trans {s t u : State} (h : BitsGood s t) (k : BitsGood t u) : BitsGood s u :=
  ⟨k.seq.trans h.seq, k.frameRem.trans h.frameRem, k.irqPend.trans h.irqPend,
    k.errCode.trans h.errCode, k.errInfo.trans h.errInfo, k.inv⟩

/-- The accumulator after one more bit (R25, R90): no bit is lost. -/
theorem pend_push {v : BitVec 12} {n : BitVec 4} {w : Nat} (b : Bool) (hn : n.toNat < w) (hw : w ≤ 12)
    (hv : v.toNat < 2 ^ n.toNat) :
    (v + ((BitVec.ofBool b).setWidth 12 <<< n.toNat)).toNat = v.toNat + b.toNat * 2 ^ n.toNat ∧
    (n + 1).toNat = n.toNat + 1 := by
  have h1 : (1 : BitVec 4).toNat = 1 := rfl
  have hp : 2 ^ n.toNat ≤ 2 ^ 11 := Nat.pow_le_pow_right (by omega) (by omega)
  have hb : (BitVec.ofBool b).toNat = b.toNat := by cases b <;> rfl
  have hb1 : b.toNat ≤ 1 := by cases b <;> simp
  have hm : b.toNat * 2 ^ n.toNat ≤ 2 ^ n.toNat := by
    calc b.toNat * 2 ^ n.toNat ≤ 1 * 2 ^ n.toNat := Nat.mul_le_mul_right _ hb1
      _ = 2 ^ n.toNat := Nat.one_mul _
  constructor
  · rw [BitVec.toNat_add, BitVec.toNat_shiftLeft, BitVec.toNat_setWidth, hb, Nat.shiftLeft_eq,
      Nat.mod_eq_of_lt (show b.toNat < 2 ^ 12 by omega),
      Nat.mod_eq_of_lt (show b.toNat * 2 ^ n.toNat < 2 ^ 12 by omega),
      Nat.mod_eq_of_lt (by omega)]
  · rw [BitVec.toNat_add, h1, Nat.mod_eq_of_lt (by omega)]

/-- Everything one stream bit can do in an image in progress. -/
theorem State.StreamInv.acceptBit {s : State} (h : s.StreamInv) (hs : s.seq = .data) (b : Bool) :
    ∃ t, s.acceptBit b = .next t ∧ (BitsGood s t ∨ BitsError t) := by
  have hw : s.width.toNat ≤ 12 := by rw [h.width_law]; exact widthLaw_le _
  obtain ⟨hv, hn⟩ := pend_push b h.pend_cnt hw h.pend_val
  unfold State.acceptBit
  dsimp only
  split
  · have h0 : ({ s with pendVal := 0, pendCnt := 0 } : State).StreamInv :=
      h.withPend (v := 0) (n := 0) (Nat.lt_of_le_of_lt (Nat.zero_le _) h.pend_cnt) (by decide)
    rcases h0.processCode hs rfl rfl
      (s.pendVal + ((BitVec.ofBool b).setWidth 12 <<< s.pendCnt.toNat)) with ⟨t, ht, g⟩ | ⟨info, ht, -⟩
    · exact ⟨t, ht, .inl ⟨g.seq, g.frameRem, g.irqPend, g.errCode, g.errInfo, g.inv⟩⟩
    · exact ⟨_, ht, .inr ⟨rfl, rfl, rfl, rfl⟩⟩
  · rename_i hne
    have hlt : s.pendCnt.toNat + 1 < s.width.toNat := by
      have := h.pend_cnt
      have hne' : s.pendCnt.toNat + 1 ≠ s.width.toNat := fun he =>
        hne (BitVec.eq_of_toNat_eq (by rw [hn, he]))
      omega
    refine ⟨_, rfl, .inl ⟨rfl, rfl, rfl, rfl, rfl, h.withPend (by rw [hn]; exact hlt) ?_⟩⟩
    rw [hv, hn, Nat.pow_succ]
    have := h.pend_val
    have hb1 : b.toNat ≤ 1 := by cases b <;> simp
    have hm : b.toNat * 2 ^ s.pendCnt.toNat ≤ 1 * 2 ^ s.pendCnt.toNat := Nat.mul_le_mul_right _ hb1
    omega

/-- Everything the bits of a byte can do in an image in progress. -/
theorem State.StreamInv.acceptBits {s : State} (h : s.StreamInv) (hs : s.seq = .data)
    (bs : List Bool) : ∃ t, acceptBits bs s = .next t ∧ (BitsGood s t ∨ BitsError t) := by
  induction bs generalizing s with
  | nil => exact ⟨s, rfl, .inl ⟨rfl, rfl, rfl, rfl, rfl, h⟩⟩
  | cons b bs ih =>
    unfold Machine.acceptBits
    split
    · exact ⟨s, rfl, .inl ⟨rfl, rfl, rfl, rfl, rfl, h⟩⟩
    · obtain ⟨t, ht, hgood | herr⟩ := h.acceptBit hs b
      · obtain ⟨u, hu, hug⟩ := ih hgood.inv (hgood.seq.trans hs)
        refine ⟨u, by rw [ht]; exact hu, ?_⟩
        rcases hug with hug | hug
        · exact .inl (hgood.trans hug)
        · exact .inr hug
      · refine ⟨t, ?_, .inr herr⟩
        rw [ht, andThen_next]
        cases bs with
        | nil => rfl
        | cons b' bs => simp [Machine.acceptBits, herr.seq]

/-- Bits are taken in turn, across bytes and sub-blocks alike. -/
theorem acceptBits_append (as bs : List Bool) (s : State) :
    acceptBits (as ++ bs) s = andThen (acceptBits as s) (acceptBits bs) := by
  have hstop : ∀ (l : List Bool) (s : State), s.eoiFlag = true ∨ s.seq = .error →
      acceptBits l s = .next s := by
    intro l s hs
    cases l with
    | nil => rfl
    | cons b l => simp only [acceptBits, if_pos hs]
  induction as generalizing s with
  | nil => rfl
  | cons a as ih =>
    simp only [List.cons_append, acceptBits]
    split
    · rename_i hs
      rw [andThen_next, hstop bs s hs]
    · rw [andThen_assoc]
      congr 1
      funext u
      exact ih u

end Sys2Proof.Machine
end

