-- ==== Sys2Proof/Laws/Decode.lean ====
section
/-! SUPPORT. Laws of the decoder: register numbers, commands, and what each byte token decodes to. -/

namespace Sys2Proof.Machine

theorem Reg.ofIndex_index (r : Reg) : Reg.ofIndex r.index = some r := by
  cases r with
  | pal i =>
    have := i.isLt
    unfold Reg.ofIndex Reg.index
    dsimp only
    split <;> (try omega)
    rw [if_pos (by omega)]
    simp
  | _ => rfl

/-- An index that no register of the map has is a reserved offset (R31). -/
theorem Reg.ofIndex_eq_none {off : Nat} (h : ∀ r : Reg, r.index ≠ off) :
    Reg.ofIndex off = none := by
  by_contra hne
  obtain ⟨r, hr⟩ := Option.ne_none_iff_exists'.mp hne
  apply h r
  unfold Reg.ofIndex at hr
  split at hr
  all_goals (try (cases hr; rfl))
  split at hr
  · obtain rfl := Option.some.inj hr
    rename_i hc
    simp only [Reg.index, BitVec.toNat_ofNat]
    omega
  · cases hr

/-- Every register of the map lies in the window, whatever its size (R8, R31). -/
theorem Reg.index_onPort (r : Reg) (windowBytes : Nat) :
    offsetOf r.index < max Config.mapBytes windowBytes := by
  refine Nat.lt_of_lt_of_le ?_ (Nat.le_max_left _ _)
  cases r with
  | pal i =>
    have := i.isLt
    simp only [offsetOf, Reg.index, Config.mapBytes]
    omega
  | _ => decide

/-- An offset of the window reaches its own index (R54, R71). -/
theorem regIndexOf_offsetOf {windowBytes : Nat} {off : Nat}
    (h : offsetOf off < max Config.mapBytes windowBytes) :
    regIndexOf windowBytes (offsetOf off) = off := by
  unfold regIndexOf portOffset
  rw [Nat.mod_eq_of_lt h]
  exact Nat.mul_div_cancel_left off (by decide)

/-- Every access reaches an index of the window (R54). -/
theorem offsetOf_regIndexOf_lt (windowBytes : Nat) (o : Nat) :
    offsetOf (regIndexOf windowBytes o) < max Config.mapBytes windowBytes := by
  have h := Nat.mod_lt o (show 0 < max Config.mapBytes windowBytes by simp only [Config.mapBytes]; omega)
  exact Nat.lt_of_le_of_lt (Nat.mul_div_le _ 4) h

/-- A command reached through a register write is the command's own instruction (R120). -/
theorem exec_decodeCmd (cmd : BitVec 4) (s : State) : exec (decodeCmd cmd) s = command cmd s := by
  unfold decodeCmd command
  cases Command.ofBits cmd <;> rfl

theorem decodeCmd_cases (cmd : BitVec 4) :
    (4 ≤ cmd.toNat ∧ decodeCmd cmd = .cmdReserved cmd) ∨ (cmd = 0 ∧ decodeCmd cmd = .cmdNop) ∨
    (cmd = 1 ∧ decodeCmd cmd = .cmdStartImage) ∨ (cmd = 2 ∧ decodeCmd cmd = .cmdStartSkip) ∨
    (cmd = 3 ∧ decodeCmd cmd = .cmdReset) := by
  revert cmd
  decide

theorem decodeCmd_wellFormed (cmd : BitVec 4) : (decodeCmd cmd).wellFormed = true := by
  revert cmd
  decide

theorem decodeByte_wellFormed {x : DecodeCtx} {b : Byte} {i : Instr} (h : decodeByte x b = .ok i) :
    i.wellFormed = true := by
  unfold decodeByte at h
  split at h
  all_goals first | (cases h; rfl) | cases h
  all_goals
    by_cases hb : b = 0
    · rw [if_pos hb]; rfl
    · rw [if_neg hb]; simpa [Instr.wellFormed] using hb

theorem decode_wellFormed (x : DecodeCtx) (w : Carrier) {i : Instr} (h : decode x w = .ok i) :
    i.wellFormed = true := by
  cases w with
  | code c =>
    obtain rfl := Except.ok.inj h
    unfold decodeCode
    split <;> rfl
  | event e =>
    cases e with
    | read o => obtain rfl := Except.ok.inj h; rfl
    | fail => obtain rfl := Except.ok.inj h; rfl
    | byte b => exact decodeByte_wellFormed h
    | write o d =>
      obtain rfl := Except.ok.inj h
      split
      · exact decodeCmd_wellFormed _
      · rename_i hne
        simpa [Instr.wellFormed] using hne

end Sys2Proof.Machine
end

