-- ==== Sys2Proof/Laws/Invariant.lean ====
section
/-! SUPPORT. How the invariant of the block meets the shared operations. -/

namespace Sys2Proof.Machine

/-- The laws of an image rest on these fields alone. -/
theorem State.StreamInv.congr {s t : State} (h : s.StreamInv) (hroot : t.root = s.root)
    (hct : t.ctUsed = s.ctUsed) (hov : t.oldValid = s.oldValid) (hw : t.width = s.width)
    (hpc : t.pendCnt = s.pendCnt) (hpv : t.pendVal = s.pendVal) (hoc : t.oldCode = s.oldCode)
    (hd : t.dict = s.dict) (hr : t.rowmap = s.rowmap) (hih : t.imgHeight = s.imgHeight)
    (hil : t.interlace = s.interlace) (hpar : t.params = s.params)
    (hcb : t.canvasBase = s.canvasBase) (hsw : t.screenWidth = s.screenWidth)
    (hsh : t.screenHeight = s.screenHeight) (hf : t.fmtRgba = s.fmtRgba)
    (hl : t.seq = .len → t.eoiFlag = false) : t.StreamInv := by
  obtain ⟨a1, a2, a3, a4, a5, a6, a7, a8, a9, a10, a11, -⟩ := h
  cases t
  cases s
  simp only at *
  subst hroot hct hov hw hpc hpv hoc hd hr hih hil hpar hcb hsw hsh hf
  exact ⟨a1, a2, a3, a4, a5, a6, a7, a8, a9, a10, a11, hl⟩

/-- The host's side of the ports is no part of the invariant. -/
theorem State.Inv.withEnv {s : State} (h : s.Inv) (e : List HostEvent) :
    ({ s with env := e } : State).Inv :=
  ⟨h.canvas_wf, h.dict_wf, h.symbols_fit, h.rowmap_wf, h.frame_rem, h.err_code, h.err_info, h.done_root,
    fun hs => State.StreamInv.congr (h.stream hs) rfl rfl rfl rfl rfl rfl rfl rfl rfl rfl rfl rfl rfl
      rfl rfl rfl (h.stream hs).len_eoi⟩

/-- The error entry keeps the invariant (R130). -/
theorem State.Inv.raiseError {s : State} (h : s.Inv) {code : ErrCode} (info : Word)
    (hc : code ≠ .none) : (s.raiseError code info).Inv := by
  refine ⟨h.canvas_wf, h.dict_wf, h.symbols_fit, h.rowmap_wf, by simp, by simpa using hc, by simp, by simp, ?_⟩
  rintro (h | h) <;> simp at h

/-- Outside ERROR no error is held (R30). -/
theorem State.Inv.no_error {s : State} (h : s.Inv) (hs : s.seq ≠ .error) :
    s.errCode = .none ∧ s.errInfo = 0 := by
  refine ⟨?_, h.err_info hs⟩
  by_contra hne
  exact hs (h.err_code.mp hne)

theorem rowOrder_length (interlace : Bool) (h : Nat) : (rowOrder interlace h).length = h := by
  unfold rowOrder
  split
  · simp [passRows]
    omega
  · simp

end Sys2Proof.Machine
end

