-- ==== Sys2Proof/Laws/PerInstr.lean ====
section
/-! SUPPORT. The statements made of every instruction as syntax, one lemma per constructor. -/

open Sys2Proof.Machine

/-- What the decoder answers is well formed (R70 to R76). -/
def Sys2Proof.Laws.DecodesWellFormed.Statement (i : Sys2Proof.Instr) : Prop :=
  ∀ (x : Sys2Proof.DecodeCtx) (w : Sys2Proof.Carrier), Sys2Proof.decode x w = .ok i →
    i.wellFormed = true

theorem Sys2Proof.Laws.DecodesWellFormed.cmdNop :
    Sys2Proof.Laws.DecodesWellFormed.Statement .cmdNop :=
  fun _ _ _ => rfl

theorem Sys2Proof.Laws.DecodesWellFormed.cmdStartImage :
    Sys2Proof.Laws.DecodesWellFormed.Statement .cmdStartImage :=
  fun _ _ _ => rfl

theorem Sys2Proof.Laws.DecodesWellFormed.cmdStartSkip :
    Sys2Proof.Laws.DecodesWellFormed.Statement .cmdStartSkip :=
  fun _ _ _ => rfl

theorem Sys2Proof.Laws.DecodesWellFormed.cmdReset :
    Sys2Proof.Laws.DecodesWellFormed.Statement .cmdReset :=
  fun _ _ _ => rfl

theorem Sys2Proof.Laws.DecodesWellFormed.cmdReserved (cmd : BitVec 4) :
    Sys2Proof.Laws.DecodesWellFormed.Statement (.cmdReserved cmd) :=
  fun x w h => decode_wellFormed x w h

theorem Sys2Proof.Laws.DecodesWellFormed.hostRd (off : Nat) :
    Sys2Proof.Laws.DecodesWellFormed.Statement (.hostRd off) :=
  fun _ _ _ => rfl

theorem Sys2Proof.Laws.DecodesWellFormed.hostWr (off : Nat) (d : Sys2Proof.Word) :
    Sys2Proof.Laws.DecodesWellFormed.Statement (.hostWr off d) :=
  fun x w h => decode_wellFormed x w h

theorem Sys2Proof.Laws.DecodesWellFormed.sbTerm :
    Sys2Proof.Laws.DecodesWellFormed.Statement .sbTerm :=
  fun _ _ _ => rfl

theorem Sys2Proof.Laws.DecodesWellFormed.sbLen (n : Sys2Proof.Byte) :
    Sys2Proof.Laws.DecodesWellFormed.Statement (.sbLen n) :=
  fun x w h => decode_wellFormed x w h

theorem Sys2Proof.Laws.DecodesWellFormed.sbData (b : Sys2Proof.Byte) :
    Sys2Proof.Laws.DecodesWellFormed.Statement (.sbData b) :=
  fun _ _ _ => rfl

theorem Sys2Proof.Laws.DecodesWellFormed.sbSkipTerm :
    Sys2Proof.Laws.DecodesWellFormed.Statement .sbSkipTerm :=
  fun _ _ _ => rfl

theorem Sys2Proof.Laws.DecodesWellFormed.sbSkipLen (n : Sys2Proof.Byte) :
    Sys2Proof.Laws.DecodesWellFormed.Statement (.sbSkipLen n) :=
  fun x w h => decode_wellFormed x w h

theorem Sys2Proof.Laws.DecodesWellFormed.sbSkipData (b : Sys2Proof.Byte) :
    Sys2Proof.Laws.DecodesWellFormed.Statement (.sbSkipData b) :=
  fun _ _ _ => rfl

theorem Sys2Proof.Laws.DecodesWellFormed.inFail :
    Sys2Proof.Laws.DecodesWellFormed.Statement .inFail :=
  fun _ _ _ => rfl

theorem Sys2Proof.Laws.DecodesWellFormed.lzwEoi (c : Sys2Proof.Code) :
    Sys2Proof.Laws.DecodesWellFormed.Statement (.lzwEoi c) :=
  fun _ _ _ => rfl

theorem Sys2Proof.Laws.DecodesWellFormed.lzwClear (c : Sys2Proof.Code) :
    Sys2Proof.Laws.DecodesWellFormed.Statement (.lzwClear c) :=
  fun _ _ _ => rfl

theorem Sys2Proof.Laws.DecodesWellFormed.lzwFirst (c : Sys2Proof.Code) :
    Sys2Proof.Laws.DecodesWellFormed.Statement (.lzwFirst c) :=
  fun _ _ _ => rfl

theorem Sys2Proof.Laws.DecodesWellFormed.lzwBadFirst (c : Sys2Proof.Code) :
    Sys2Proof.Laws.DecodesWellFormed.Statement (.lzwBadFirst c) :=
  fun _ _ _ => rfl

theorem Sys2Proof.Laws.DecodesWellFormed.lzwKnown (c : Sys2Proof.Code) :
    Sys2Proof.Laws.DecodesWellFormed.Statement (.lzwKnown c) :=
  fun _ _ _ => rfl

theorem Sys2Proof.Laws.DecodesWellFormed.lzwPending (c : Sys2Proof.Code) :
    Sys2Proof.Laws.DecodesWellFormed.Statement (.lzwPending c) :=
  fun _ _ _ => rfl

theorem Sys2Proof.Laws.DecodesWellFormed.lzwBeyond (c : Sys2Proof.Code) :
    Sys2Proof.Laws.DecodesWellFormed.Statement (.lzwBeyond c) :=
  fun _ _ _ => rfl
end

