-- ==== Sys2Proof/Tests/Slice0.lean ====
section
/-! SUPPORT. The model's own tests: ill-formed terms, a written-out word of every row, at most two one-step
tests per instruction with the results of 95_test_vectors.md, and the witnesses of the statements' hypotheses. -/

namespace Sys2Proof.Tests

open Sys2Proof.Machine

/-! A `decide +kernel` waits for the kernel to reach it: one after the other they need one thread, at once one
thread each. -/
set_option Elab.async false

/-! ### Ill-formed terms, one per check of WellFormed.lean -/

theorem test_illFormed_reserved : (Instr.cmdReserved 3).wellFormed = false := by decide
theorem test_illFormed_hostWr : (Instr.hostWr 2 0).wellFormed = false := by decide
theorem test_illFormed_sbLen : (Instr.sbLen 0).wellFormed = false := by decide
theorem test_illFormed_sbSkipLen : (Instr.sbSkipLen 0).wellFormed = false := by decide

/-! ### Decoding: a word of every row, from 30_encoding.md -/

/-- Root 2 (clear 4, EOI 5) at occupancy 7. -/
def ctxIn (q : Seq) (oldValid : Bool) : DecodeCtx :=
  { seq := q, root := 2, ctUsed := 7, oldValid := oldValid, windowBytes := 4096 }

/-- R70: data[3:0] names the command, data[31:4] is ignored. -/
theorem test_decode_commands :
    decode (ctxIn .idle false) (.event (.write 0x008 0x00000010)) = .ok .cmdNop ∧
    decode (ctxIn .idle false) (.event (.write 0x008 0x00000001)) = .ok .cmdStartImage ∧
    decode (ctxIn .idle false) (.event (.write 0x009 0xFFFFFFF2)) = .ok .cmdStartSkip ∧
    decode (ctxIn .error false) (.event (.write 0x008 0x00000003)) = .ok .cmdReset ∧
    decode (ctxIn .data true) (.event (.write 0x008 0x00000004)) = .ok (.cmdReserved 4) := by decide

/-- R71: offset 0x028 is register index 10. R54: bits above bit 11 are not part of the port of a 4096-byte window;
in one of 8192 bytes bit 12 is (R8). -/
theorem test_decode_accesses :
    decode (ctxIn .idle false) (.event (.read 0x028)) = .ok (.hostRd 10) ∧
    decode (ctxIn .idle false) (.event (.write 0x028 0x00012345)) = .ok (.hostWr 10 0x00012345) ∧
    decode (ctxIn .idle false) (.event (.read 0x008)) = .ok (.hostRd 2) ∧
    decode (ctxIn .idle false) (.event (.read 0x102B)) = .ok (.hostRd 10) ∧
    decode { ctxIn .idle false with windowBytes := 8192 } (.event (.read 0x102B)) = .ok (.hostRd 1034) := by
  decide

/-- R72 to R74. -/
theorem test_decode_tokens :
    decode (ctxIn .len false) (.event (.byte 0x00)) = .ok .sbTerm ∧
    decode (ctxIn .len false) (.event (.byte 0x01)) = .ok (.sbLen 1) ∧
    decode (ctxIn .data false) (.event (.byte 0x29)) = .ok (.sbData 0x29) ∧
    decode (ctxIn .skipLen false) (.event (.byte 0x00)) = .ok .sbSkipTerm ∧
    decode (ctxIn .skipLen false) (.event (.byte 0xFF)) = .ok (.sbSkipLen 255) ∧
    decode (ctxIn .skipData false) (.event (.byte 0x00)) = .ok (.sbSkipData 0) ∧
    decode (ctxIn .idle false) (.event .fail) = .ok .inFail ∧
    decode (ctxIn .done false) (.event (.byte 0x00)) = .error .notReady := by decide

/-- R76. -/
theorem test_decode_codes :
    decode (ctxIn .data false) (.code 5) = .ok (.lzwEoi 5) ∧
    decode (ctxIn .data true) (.code 4) = .ok (.lzwClear 4) ∧
    decode (ctxIn .data false) (.code 0) = .ok (.lzwFirst 0) ∧
    decode (ctxIn .data false) (.code 7) = .ok (.lzwBadFirst 7) ∧
    decode (ctxIn .data true) (.code 6) = .ok (.lzwKnown 6) ∧
    decode (ctxIn .data true) (.code 7) = .ok (.lzwPending 7) ∧
    decode (ctxIn .data true) (.code 8) = .ok (.lzwBeyond 8) := by decide

/-! ### The states the tests start from -/

/-- IDLE, root 2, image and screen 3 by 1 in RGB at address 0, the four colours of section 2.4. -/
def idleState : State :=
  { State.reset with
    rootCodeSize := 2
    imgWidth := 3
    imgHeight := 1
    screenWidth := 3
    screenHeight := 1
    palSizeLog2m1 := 1
    pal := (((State.reset.pal.set 0 (Rgba.ofWord 0xFF000000)).set 1 (Rgba.ofWord 0xFFFFFFFF)).set 2
      (Rgba.ofWord 0xFF1E140A)).set 3 (Rgba.ofWord 0xFF3C3228) }

/-- LEN, after CMD START_IMAGE. -/
def lenState : State := idleState.startImage

/-- DATA, three payload bytes to come. -/
def dataState : State := { lenState with seq := .data, frameRem := 3, bytesIn := 1 }

/-- DATA after the code 1: entry 6 is next. -/
def firstState : State :=
  { dataState with
    oldValid := true, oldCode := 1, cursor := 1, canvas := [(0, 255), (1, 255), (2, 255)] }

/-- DATA with two bits of a code of three waiting. -/
def pendState : State := { dataState with pendVal := 1, pendCnt := 2 }

/-- Values of the parameters other than this hardware's. -/
def smallPart : State :=
  { idleState with params := { symbolBits := 11, maxRows := 2, addrBits := 5, windowBytes := 8192 } }

/-- SKIP_LEN and SKIP_DATA. -/
def skipState : State := { idleState with seq := .skipLen }
def skipDataState (n : Byte) : State := { idleState with seq := .skipData, frameRem := n }

/-- ERROR, code DECODE. -/
def errorState : State := idleState.raiseError .decode 0x00010006

/-- The next state of an outcome. -/
def after : Result → Option State
  | .next s => some s
  | .fault _ => none
  | .refused _ => none

/-- A field of the next state. -/
def get {α : Type} (r : Result) (f : State → α) : Option α := (after r).map f

/-! ### One step of each instruction (95_test_vectors.md) -/

/-- Section 2.5: `WR CMD, 0x10` in IDLE changes nothing. -/
theorem test_cmdNop : get (exec .cmdNop idleState) (fun s => (s.seq, s.bytesIn)) = some (.idle, 0) := by decide +kernel

/-- Section 1.1: ROOT_CODE_SIZE 2 gives STATUS 0x09 and LZW_STATE 0x00000623. -/
theorem test_cmdStartImage :
    get (exec .cmdStartImage idleState) (fun s => (s.readReg .status, s.readReg .lzwState)) =
      some (0x09, 0x00000623) := by decide +kernel

/-- Section 2.5: a canvas that ends past 2^32 is refused before anything is set up; R128: RESOURCE information
1 from a part whose row-order table holds 2 rows. -/
theorem test_cmdStartImage_resource :
    get (exec .cmdStartImage { idleState with canvasBase := 0xFFFFFFF8 })
      (fun s => (s.readReg .errcode, s.readReg .errinfo)) = some (4, 2) ∧
    get (exec .cmdStartImage
        { idleState with imgHeight := 3, params := { Config.thisHardware with maxRows := 2 } })
      (fun s => (s.readReg .errcode, s.readReg .errinfo)) = some (4, 1) := by decide +kernel

/-- Section 2.5: while busy it is ILLEGAL_CMD with ERRINFO 2. -/
theorem test_cmdStartSkip_busy :
    get (exec .cmdStartSkip (skipDataState 2)) (fun s => (s.readReg .errcode, s.readReg .errinfo)) =
      some (5, 2) := by decide +kernel

theorem test_cmdStartSkip :
    get (exec .cmdStartSkip idleState) (fun s => (s.seq, s.bytesIn)) = some (.skipLen, 0) := by decide +kernel

/-- Section 2.5: ERROR, `CMD RESET`: IDLE, STATUS 0, ERRCODE 0, configuration kept. -/
theorem test_cmdReset :
    get (exec .cmdReset errorState)
      (fun s => (s.readReg .status, s.readReg .errcode, s.readReg .imgWidth)) = some (0, 0, 3) := by decide +kernel

/-- Section 2.5: `WR CMD, 15` in IDLE. -/
theorem test_cmdReserved :
    get (exec (.cmdReserved 15) idleState) (fun s => (s.readReg .errcode, s.readReg .errinfo)) =
      some (5, 15) := by decide +kernel

/-- Section 2.5: `WR CMD, 15` in ERROR is ignored. -/
theorem test_cmdReserved_error :
    get (exec (.cmdReserved 15) errorState) (fun s => (s.readReg .errcode, s.readReg .errinfo)) =
      some (3, 0x00010006) := by decide +kernel

/-- Section 2.5: `RD ID`, and `RD 0x05C`, a reserved offset. -/
theorem test_hostRd : get (exec (.hostRd 0) idleState) (·.rdData) = some 0x4C5A5701 := by decide +kernel
theorem test_hostRd_reserved : get (exec (.hostRd 23) idleState) (·.rdData) = some 0 := by decide +kernel

/-- Section 2.5: `WR IMG_WIDTH, 0x12345` stores 0x2345. -/
theorem test_hostWr :
    get (exec (.hostWr 9 0x12345) idleState) (·.readReg .imgWidth) = some 0x2345 := by decide +kernel

/-- Section 2.5: `WR STATUS, 0x10` in DONE with IRQ_PEND. -/
theorem test_hostWr_status :
    get (exec (.hostWr 3 0x10) { idleState with seq := .done, irqPend := true })
      (·.readReg .status) = some 0x05 := by decide +kernel

/-- Section 2.1: LEN, `IN 0`. -/
theorem test_sbTerm :
    get (exec .sbTerm lenState) (fun s => (s.readReg .status, s.readReg .bytesIn)) =
      some (0x15, 1) := by decide +kernel

/-- Section 2.1: LEN, `IN 255`. -/
theorem test_sbLen :
    get (exec (.sbLen 255) lenState) (fun s => (s.seq, s.readReg .frame)) = some (.data, 255) := by decide +kernel

/-- Section 2.1: DATA, FRAME 1, `IN 0x4C`: codes 4 and 1, LZW_PEND 0x00020001, LEN. -/
theorem test_sbData :
    get (exec (.sbData 0x4C) { dataState with frameRem := 1 })
      (fun s => (s.seq, s.readReg .lzwPend, s.readReg .lzwOld)) = some (.len, 0x00020001, 1) := by decide +kernel

/-- Section 2.3: bytes `34`, code 6 before any FIRST: ERRINFO 0x00010006, FRAME 0. -/
theorem test_sbData_error :
    get (exec (.sbData 0x34) dataState)
      (fun s => (s.readReg .errcode, s.readReg .errinfo, s.readReg .frame)) =
      some (3, 0x00010006, 0) := by decide +kernel

/-- Section 2.1: IDLE, `CMD START_SKIP`, `IN 0`. -/
theorem test_sbSkipTerm :
    get (exec .sbSkipTerm skipState) (fun s => (s.readReg .status, s.readReg .bytesIn)) =
      some (0x10, 1) := by decide +kernel

/-- Section 2.1: SKIP_LEN, `IN 4`. -/
theorem test_sbSkipLen :
    get (exec (.sbSkipLen 4) skipState) (fun s => (s.seq, s.readReg .frame)) =
      some (.skipData, 4) := by decide +kernel

/-- Section 2.1: SKIP_DATA, FRAME 2 and FRAME 1. -/
theorem test_sbSkipData :
    get (exec (.sbSkipData 0x21) (skipDataState 2)) (fun s => (s.seq, s.frameRem)) =
      some (.skipData, 1) := by decide +kernel
theorem test_sbSkipData_last :
    get (exec (.sbSkipData 0x00) (skipDataState 1)) (fun s => (s.seq, s.frameRem)) =
      some (.skipLen, 0) := by decide +kernel

/-- Section 2.1: DATA, FRAME 3, BYTES_IN 2, `FAIL`; and IDLE, `FAIL`. -/
theorem test_inFail :
    get (exec .inFail { dataState with bytesIn := 2 })
      (fun s => (s.readReg .errcode, s.readReg .errinfo, s.readReg .frame)) = some (1, 2, 0) := by decide +kernel
theorem test_inFail_idle : get (exec .inFail idleState) (·.seq) = some .idle := by decide +kernel

theorem test_lzwEoi : get (exec (.lzwEoi 5) dataState) (·.eoiFlag) = some true := by decide +kernel

/-- Section 1.2: after a CLEAR in mid-stream ct_used is 6, the width 3, the cursor as it was. -/
theorem test_lzwClear :
    get (exec (.lzwClear 4) { firstState with ctUsed := 8, width := 4 })
      (fun s => (s.ctUsed, s.width, s.cursor)) = some (6, 3, 1) := by decide +kernel

/-- Section 2.3, FIRST; section 2.4: symbol 2 is 10,20,30. -/
theorem test_lzwFirst :
    get (exec (.lzwFirst 2) dataState)
      (fun s => (s.cursor, s.oldCode, s.canvas)) = some (1, 2, [(0, 10), (1, 20), (2, 30)]) := by decide +kernel

/-- Section 2.3: BAD_FIRST of code 7. -/
theorem test_lzwBadFirst :
    get (exec (.lzwBadFirst 7) dataState) (·.readReg .errinfo) = some 0x00010007 := by decide +kernel

/-- Section 1.2: KNOWN at ct_used 7 makes it 8 and the width 4; 1.4: entry 7 = (0,1,1,0). -/
theorem test_lzwKnown :
    get (exec (.lzwKnown 1) { firstState with ctUsed := 7, oldCode := 0 })
      (fun s => (s.ctUsed, s.width, s.entry 7)) =
      some (8, 4, some { parent := 0, length := 1, value := 1, firstchar := 0 }) := by decide +kernel

/-- Section 2.3, PENDING: entry 6 = (1,1,1,1), cursor 3. -/
theorem test_lzwPending :
    get (exec (.lzwPending 6) firstState) (fun s => (s.cursor, s.entry 6)) =
      some (3, some { parent := 1, length := 1, value := 1, firstchar := 1 }) := by decide +kernel

/-- Section 2.3, BEYOND: ERRINFO 0x00020007, cursor 1. -/
theorem test_lzwBeyond :
    get (exec (.lzwBeyond 7) firstState) (fun s => (s.readReg .errinfo, s.cursor)) =
      some (0x00020007, 1) := by decide +kernel

/-! ### Shared operations -/

/-- R96: root 11, index 2047, with symbols of 8 bits (255) and of 11 bits. -/
theorem test_rootEntry_width :
    (rootEntry 8 2047).value = 255 ∧ (rootEntry 11 2047).value = 2047 := by decide +kernel

/-- Section 2.4: the row order of 17 rows. -/
theorem test_rowOrder :
    rowOrder true 17 = [0, 8, 16, 4, 12, 2, 6, 10, 14, 1, 3, 5, 7, 9, 11, 13, 15] := by decide +kernel

/-- Section 2.4: pixel (3,2) of a screen 10 wide in RGBA at 0x1000. -/
theorem test_pixelAddr :
    ({ idleState with canvasBase := 0x1000, screenWidth := 10, fmtRgba := true } : State).pixelAddr 3 2
      = 0x105C := by decide +kernel

/-- Section 2.2: the width law. -/
theorem test_widthLaw :
    [6, 7, 8, 15, 16, 2047, 2048, 4095, 4096].map widthLaw = [3, 3, 4, 4, 5, 11, 12, 12, 12] := by decide +kernel

/-- Section 2.4, palette range: symbol 3 with a palette of 2 writes nothing. -/
theorem test_colorWrite_range :
    get (({ idleState with palSizeLog2m1 := 0 } : State).colorWrite 0 0 3) (·.canvas) = some [] := by decide +kernel

/-! ### Witnesses: a state and operands that meet the hypotheses of each statement, clause by clause -/

theorem dataState_stream : dataState.StreamInv := by
  refine ⟨by decide +kernel, by decide +kernel, by decide +kernel, by decide +kernel,
    by decide +kernel, by decide +kernel, ?_, ?_, ?_, ?_, by decide +kernel, by decide +kernel⟩
  · intro h
    exact absurd h (by decide +kernel)
  · intro i hi
    exact (by decide +kernel : ∀ i < 4, Memory.read dataState.dict i = some (rootEntry 8 i)) i hi
  · intro e h1 h2
    exact absurd (Nat.lt_of_le_of_lt (show 6 ≤ e from h1) (show e < 6 from h2)) (by decide)
  · intro i hi
    obtain rfl : i = 0 := Nat.lt_one_iff.mp hi
    decide +kernel

theorem test_witness_dataState : dataState.Inv ∧ dataState.StreamInv ∧ dataState.seq = .data :=
  ⟨⟨by decide +kernel, by decide +kernel, by decide +kernel, by decide +kernel, by decide +kernel,
    by decide +kernel, by decide +kernel, by decide +kernel, fun _ => dataState_stream⟩, dataState_stream, rfl⟩

theorem test_witness_lenState : lenState.Inv ∧ lenState.StreamInv ∧ lenState.seq = .len := by
  have h : lenState.StreamInv := State.StreamInv.congr dataState_stream rfl rfl rfl rfl rfl rfl rfl
    rfl rfl rfl rfl rfl rfl rfl rfl rfl (by decide +kernel)
  exact ⟨⟨by decide +kernel, by decide +kernel, by decide +kernel, by decide +kernel,
    by decide +kernel, by decide +kernel, by decide +kernel, by decide +kernel, fun _ => h⟩, h, rfl⟩

theorem firstState_stream : firstState.StreamInv :=
  ⟨dataState_stream.root_range, dataState_stream.ct_range, by decide +kernel,
    dataState_stream.width_law, dataState_stream.pend_cnt, dataState_stream.pend_val,
    fun _ => by unfold State.defines; decide +kernel, dataState_stream.roots,
    dataState_stream.chains, dataState_stream.rows, dataState_stream.canvas_fits, by decide +kernel⟩

theorem test_witness_DecodeOfEncode :
    (Instr.cmdReserved 4).wellFormed = true ∧ (Instr.cmdReserved 4).selectedIn (ctxIn .data true) = true ∧
    (Instr.cmdReserved 15).wellFormed = true ∧ (Instr.hostWr 511 0xFFFFFFFF).wellFormed = true ∧
    (Instr.sbLen 1).wellFormed = true ∧ (Instr.sbLen 1).selectedIn (ctxIn .len true) = true ∧
    (Instr.sbSkipData 0).selectedIn (ctxIn .skipData true) = true ∧
    (Instr.lzwPending 7).selectedIn (ctxIn .data true) = true ∧
    (Instr.lzwBeyond 4095).selectedIn (ctxIn .data true) = true ∧
    (Instr.hostWr 1023 0).onPort 4096 = true ∧ (Instr.hostRd 1024).onPort 4096 = false ∧
    (Instr.hostRd 2047).onPort 8192 = true ∧ (Instr.hostRd 511).onPort 0 = true := by decide

theorem test_witness_EncodeOfDecode :
    decode (ctxIn .idle false) (.event (.write 0xFFF 0xFFFFFFFF)) = .ok (.hostWr 1023 0xFFFFFFFF) ∧
    decode (ctxIn .idle false) (.event (.write 0x00B 0xFFFFFFFF)) = .ok (.cmdReserved 15) ∧
    decode (ctxIn .idle false) (.event (.write 0xFF00B 0xFFFFFFFF)) = .ok (.cmdReserved 15) := by decide

theorem test_witness_CodeMapFirstRow :
    dataState.StreamInv ∧ dataState.classOf 3 = .first ∧
    ({ ctxIn .data true with ctUsed := 4096 } : DecodeCtx).ctUsed.toNat = 4096 :=
  ⟨dataState_stream, by decide +kernel, by decide +kernel⟩

theorem test_witness_StepRunsDecodedInstruction :
    ({ dataState with env := [.port (.byte 0x4C)] } : State).env = .port (.byte 0x4C) :: [] ∧
    decode dataState.ctx (.event (.byte 0x4C)) = .ok (.sbData 0x4C) := by decide +kernel

/-- One word of each kind of row, the byte rows at the two ends of their field. -/
theorem test_witness_TableWordRunsNext :
    4096 ≤ State.reset.params.windowBytes ∧ 4096 ≤ smallPart.params.windowBytes ∧
    decodeTableWord 8 0 = some .sbTerm ∧ decodeTableWord 8 255 = some (.sbLen 255) ∧
    decodeTableWord 32 0 = some .cmdNop ∧ decodeTableWord 32 15 = some (.cmdReserved 15) ∧
    decodeTableWord 16 0xFFF = some (.hostRd 1023) ∧ decodeTableWord 0 0 = some .inFail ∧
    decodeTableWord 48 0x00010004 = some (.hostWr 1 1) := by decide +kernel

/-- A word offered to the block runs at the next step, from reset. -/
theorem test_offered_word_runs :
    get (step (State.reset.withFetchWord 8 255)) (fun s => (s.seq, s.frameRem)) = some (.data, 255) ∧
    get (step (State.reset.withFetchWord 32 15)) (fun s => (s.seq, s.errInfo)) = some (.error, 15) := by
  decide +kernel

theorem test_witness_UnacceptedByteStays :
    idleState.inReady = false ∧
    (∀ e ∈ [HostEvent.port .fail, .port (.byte 7)],
      e = .port .fail ∨ ∃ c, e = HostEvent.port (.byte c)) ∧
    (∃ o, HostEvent.port (.read 0) = .port (.read o)) ∧ lenState.inReady = true := by
  refine ⟨by decide, fun e he => ?_, ⟨0, rfl⟩, by decide⟩
  rcases List.mem_cons.mp he with rfl | he
  · exact .inl rfl
  · exact .inr ⟨7, List.mem_singleton.mp he⟩

/-- A failure event behind an unaccepted byte waits with it; a register read behind both is served. -/
theorem test_held_byte_order :
    get (step { idleState with env := [.port (.byte 9), .port .fail, .port (.read 0)] })
      (fun s => (s.rdData, s.env)) = some (0x4C5A5701, [.port (.byte 9), .port .fail]) := by
  decide +kernel

theorem test_witness_HardwareResetStep :
    ({ firstState with env := [.reset] } : State).env = .reset :: [] ∧
    get (step { firstState with env := [.reset] }) (fun s => (s.seq, s.canvas)) =
      some (.idle, [(0, 255), (1, 255), (2, 255)]) := by decide +kernel

theorem dataState_env (e : List HostEvent) : ({ dataState with env := e } : State).Inv :=
  State.Inv.withEnv test_witness_dataState.1 e

/-- The byte 0x29 paints pixel 0 and ends the stream (section 1.7): the hypotheses of the invariant and of
CanvasWritesConfined. -/
theorem test_witness_StepKeepsInvariant :
    ({ dataState with env := [.port (.byte 0x29)] } : State).Inv ∧
    get (step { dataState with env := [.port (.byte 0x29)] })
      (fun s => (s.eoiFlag, Memory.read s.canvas 0)) = some (true, some 255) ∧
    Memory.read dataState.canvas 0 = none :=
  ⟨dataState_env _, by decide +kernel, by decide +kernel⟩

theorem test_witness_RefusedExactlyWhenNotSelected :
    Instr.selectedIn idleState.ctx .sbTerm = false ∧ Instr.selectedIn idleState.ctx (.lzwEoi 0) = false ∧
    Instr.wellFormed (.sbLen 1) = true ∧ Instr.selectedIn lenState.ctx (.sbLen 1) = true := by
  decide +kernel

theorem test_witness_ParametersNeverChange :
    get (step { smallPart with env := [.reset] }) (·.params.maxRows) = some 2 ∧
    get (step { smallPart with env := [.port (.read 0x1000)] }) (·.rdData) = some 0 ∧
    get (step { idleState with env := [.port (.read 0x1000)] }) (·.rdData) = some 0x4C5A5701 ∧
    get (step { smallPart with env := [.port (.write 0x008 1)] }) (fun s => (s.seq, s.params.addrBits))
      = some (.len, 5) := by decide +kernel

/-- Each way out of `irq_pend`. -/
theorem test_witness_IrqPendClearedOnlyBy :
    (∀ d ∈ [HostEvent.port (.write 0x00C 0x10), .port (.write 0x008 3), .reset],
      get (step { idleState with irqPend := true, env := [d] }) (·.irqPend) = some false) := by
  decide +kernel

theorem test_witness_EventsSetIrqPend :
    get (step { lenState with env := [.port (.byte 0)] }) (fun s => (s.seq, s.irqPend)) =
      some (.done, true) ∧
    get (step { lenState with env := [.port .fail] }) (fun s => (s.seq, s.irqPend)) =
      some (.error, true) ∧
    ({ skipState with env := [.port (.byte 0)] } : State).env = .port (.byte 0) :: [] := by
  decide +kernel

theorem test_witness_ErrorLeftOnlyByReset :
    errorState.seq = .error ∧
    get (step { errorState with env := [.port (.write 0x008 1)] }) (·.seq) = some .error ∧
    get (step { errorState with env := [.port (.write 0x008 3)] }) (·.seq) = some .idle ∧
    get (step { errorState with env := [.reset] }) (·.seq) = some .idle := by decide +kernel

theorem test_witness_ConfigFrozenWhileBusy :
    dataState.inReady = true ∧
    get (step { dataState with env := [.port (.write 0x400 0x11223344)] })
      (·.readReg (.pal 0)) = some 0xFF000000 := by decide +kernel

theorem test_witness_CursorOnlyGrows :
    get (step { idleState with cursor := 5, env := [.port (.write 0x008 1)] }) (·.cursor) = some 0 ∧
    get (step { firstState with env := [.port (.write 0x008 3)] }) (·.cursor) = some 0 := by
  decide +kernel

theorem test_witness_EveryByteCounted :
    lenState.inReady = true ∧
    get (step { lenState with env := [.port (.byte 255)] }) (fun s => (s.bytesIn, s.env)) =
      some (1, []) := by decide +kernel

theorem test_witness_WidthHoldsNextFreeCode : firstState.StreamInv ∧ firstState.ctUsed.toNat < 4096 :=
  ⟨firstState_stream, by decide +kernel⟩

theorem test_witness_StartImageChecks :
    errorState.seq = .error ∧ dataState.inReady = true ∧ idleState.seq = .idle ∧
    (∀ r ∈ [0, 1, 12, 255], r < 2 ∨ 11 < (BitVec.ofNat 8 r).toNat) ∧
    2 ≤ idleState.rootCodeSize.toNat ∧ idleState.rootCodeSize.toNat ≤ 11 ∧
    2 ^ idleState.params.addrBits < (0xFFFFFFF8 : BitVec 32).toNat + 3 * 1 * 3 ∧
    smallPart.params.maxRows < ({ smallPart with imgHeight := 3 } : State).imgHeight.toNat ∧
    ({ smallPart with imgHeight := 2 } : State).imgHeight.toNat ≤ smallPart.params.maxRows ∧
    2 ^ smallPart.params.addrBits < ({ smallPart with canvasBase := 24 } : State).canvasEnd := by
  decide +kernel

theorem test_witness_StartImageSetsUp :
    idleState.seq = .idle ∧ 2 ≤ idleState.rootCodeSize.toNat ∧ idleState.rootCodeSize.toNat ≤ 11 ∧
    idleState.canvasEnd ≤ 2 ^ idleState.params.addrBits ∧ 0 < idleState.imgHeight.toNat ∧
    idleState.imgHeight.toNat ≤ idleState.params.maxRows ∧
    (0xFFFFFFF4 : BitVec 32).toNat + 2 * 2 * 3 ≤ 2 ^ idleState.params.addrBits ∧
    ({ smallPart with canvasBase := 23 } : State).canvasEnd ≤ 2 ^ smallPart.params.addrBits := by
  decide +kernel

theorem test_witness_StartSkipRule :
    idleState.seq = .idle ∧ skipState.inReady = true ∧ errorState.seq = .error := by decide

theorem test_witness_ReservedCommandRule : 4 ≤ (4 : BitVec 4).toNat ∧ 4 ≤ (15 : BitVec 4).toNat := by
  decide

theorem test_witness_CommandLaws :
    get (exec (decodeCmd 1) errorState) (·.seq) = some .error ∧
    get (exec (decodeCmd 0) dataState) (·.inReady) = some true ∧
    get (exec (decodeCmd 3) dataState) (·.root) = some 0 := by decide +kernel

/-- Index 23, byte offset 0x05C, is reserved, and so are 255, 512 and 1024. -/
theorem test_witness_HostReadReturns :
    (∀ r : Reg, r.index ≠ 23) ∧ (∀ r : Reg, r.index ≠ 255) ∧ (∀ r : Reg, r.index ≠ 512) ∧
    ∀ r : Reg, r.index ≠ 1024 := by
  refine ⟨fun r => ?_, fun r => ?_, fun r => ?_, fun r => ?_⟩
  all_goals
    cases r with
    | pal i => revert i; decide +kernel
    | _ => decide

theorem test_witness_HostWriteStores :
    idleState.inReady = false ∧ errorState.inReady = false ∧ Reg.isConfig (.pal 255) = true ∧
    Reg.isConfig .imgWidth = true ∧ Reg.imgLeft ≠ .imgWidth := by decide

theorem test_witness_HostWriteElsewhere :
    dataState.inReady = true ∧ Reg.isConfig .rootCodeSize = true ∧
    Reg.frame ∈ [Reg.id, .errcode, .errinfo, .cursor, .bytesIn, .lzwState, .lzwPend, .lzwOld, .frame] := by
  decide

theorem test_witness_subBlockReader :
    lenState.seq = .len ∧ skipState.seq = .skipLen ∧ (skipDataState 1).seq = .skipData ∧
    (1 : Byte) ≠ 0 ∧ (255 : Byte) ≠ 0 := by decide

/-- PayloadByteRule with an error, at the end of a sub-block and in its middle. -/
theorem test_witness_PayloadByteRule :
    dataState.Inv ∧ dataState.seq = .data ∧
    get (exec (.sbData 0x29) { dataState with frameRem := 1 }) (·.seq) = some .done ∧
    get (exec (.sbData 0x4C) { dataState with frameRem := 2 }) (·.seq) = some .data :=
  ⟨test_witness_dataState.1, rfl, by decide +kernel, by decide +kernel⟩

/-- From an empty accumulator and from one that holds the first two bits of a code of three; the sum of the
second clause there is 1 + 2 * 2 * 1. -/
theorem test_witness_CodeAssembly :
    (dataState.pendCnt.toNat < dataState.width.toNat ∧ dataState.width.toNat ≤ 12 ∧
      dataState.eoiFlag = false ∧ dataState.seq ≠ .error ∧
      dataState.pendCnt.toNat + [true, false].length < dataState.width.toNat ∧
      dataState.pendCnt.toNat + [true, false, false].length = dataState.width.toNat) ∧
    (pendState.pendCnt.toNat < pendState.width.toNat ∧ pendState.width.toNat ≤ 12 ∧
      pendState.pendCnt.toNat + ([] : List Bool).length < pendState.width.toNat ∧
      pendState.pendCnt.toNat + [true].length = pendState.width.toNat) := by decide +kernel

/-- Section 2.1, FRAME 1, `IN 0x4C`: the two bits that wait (01) and the next sub-block's first bit form one
code; with a 1 it is 5, the EOI of root 2. -/
theorem test_code_straddles :
    get (acceptBits [true] pendState) (·.eoiFlag) = some true ∧
    get (acceptBits [false] pendState) (fun s => (s.pendCnt, s.oldCode)) = some (0, 1) := by
  decide +kernel

theorem test_witness_EoiEndsStream :
    (5 : Code).toNat = 2 ^ dataState.root.toNat + 1 ∧
    ({ dataState with eoiFlag := true } : State).seq = .data := by decide +kernel

theorem test_witness_ClearResetsDictionary : (4 : Code).toNat = 2 ^ firstState.root.toNat := by
  decide +kernel

theorem test_witness_FirstCodeRule :
    dataState.StreamInv ∧ dataState.oldValid = false ∧ dataState.defines 0 ∧ dataState.defines 3 :=
  ⟨dataState_stream, rfl, by unfold State.defines; decide +kernel,
    by unfold State.defines; decide +kernel⟩

/-- The codes at the edges of each class: 6 and 7 before a FIRST, 7 and 4095 after it. -/
theorem test_witness_BadCodesRaiseDecode :
    dataState.oldValid = false ∧ dataState.ctUsed.toNat ≤ (6 : Code).toNat ∧
    (6 : Code).toNat ≠ 2 ^ dataState.root.toNat ∧ (6 : Code).toNat ≠ 2 ^ dataState.root.toNat + 1 ∧
    firstState.oldValid = true ∧ firstState.ctUsed.toNat < (7 : Code).toNat ∧
    firstState.ctUsed.toNat < (4095 : Code).toNat := by decide +kernel

theorem test_witness_InsertionRule :
    firstState.ctUsed.toNat < 4096 ∧ firstState.entry 1 = some (rootEntry 8 1) ∧
    firstState.ctUsed.toNat + 2 ∈ [8, 16, 32, 64, 128, 256, 512, 1024, 2048] ∧
    ({ firstState with ctUsed := 4096 } : State).ctUsed.toNat = 4096 := by decide +kernel

/-- A full dictionary of root 11: every inserted entry is (parent 0, length 1). -/
def fullEntry (i : Nat) : DictEntry :=
  if i < 2048 then rootEntry 8 i else { parent := 0, length := 1, value := 0, firstchar := 0 }

def fullState : State :=
  { firstState with
    root := 11, width := 12, ctUsed := 4096, oldCode := 0
    dict := Memory.numbered 0 ((List.range 4096).map fullEntry) }

theorem fullState_read {i : Nat} (h : i < 4096) : Memory.read fullState.dict i = some (fullEntry i) := by
  unfold fullState
  rw [Memory.read_numbered]
  simp [h]

theorem fullState_stream : fullState.StreamInv := by
  refine ⟨by decide, by decide, fun h => absurd h (by decide), by decide +kernel, by decide, by decide,
    fun _ => ⟨by decide, by decide, by decide⟩, fun i hi => ?_, fun e h1 h2 => ?_,
    dataState_stream.rows, dataState_stream.canvas_fits, fun h => absurd h (by decide)⟩
  · have hi : i < 2048 := hi
    rw [fullState_read (by omega)]
    simp only [fullEntry, if_pos hi]
    rfl
  · have h1 : 2050 ≤ e := h1
    have h2 : e < 4096 := h2
    refine ⟨fullEntry e, fullEntry 0, fullState_read h2, ?_, ?_⟩ <;>
      simp only [fullEntry, if_neg (show ¬ e < 2048 by omega)]
    · exact fullState_read (by decide)
    · refine ⟨by change 0 < e; omega, ⟨by decide, by decide, by decide⟩, rfl, rfl, ?_⟩
      change 1 + 2048 + 1 ≤ e
      omega

/-- An insertion that is made, and a full dictionary. -/
theorem test_witness_KnownCodeRule :
    (firstState.StreamInv ∧ firstState.oldValid = true ∧ firstState.defines (0 : Code).toNat ∧
      firstState.ctUsed.toNat < 4096) ∧
    (fullState.StreamInv ∧ fullState.oldValid = true ∧ fullState.defines (4095 : Code).toNat ∧
      ¬ fullState.ctUsed.toNat < 4096) :=
  ⟨⟨firstState_stream, rfl, by unfold State.defines; decide +kernel, by decide +kernel⟩,
    ⟨fullState_stream, rfl, ⟨by decide, by decide, by decide⟩, by decide⟩⟩

theorem test_witness_PendingCodeRule :
    firstState.StreamInv ∧ firstState.oldValid = true ∧ (6 : Code).toNat = firstState.ctUsed.toNat :=
  ⟨firstState_stream, rfl, by decide +kernel⟩

theorem test_witness_EmissionRule : dataState.StreamInv ∧ dataState.defines (1 : Code).toNat :=
  ⟨dataState_stream, by unfold State.defines; decide +kernel⟩

theorem test_witness_DecodeErrorsArePrecise :
    dataState.Inv ∧ dataState.seq = .data ∧ get (exec (.sbData 0x34) dataState) (·.seq) = some .error :=
  ⟨test_witness_dataState.1, rfl, by decide +kernel⟩

/-- A pixel that is painted, the first beyond the image, one clipped and one outside the palette. -/
theorem test_witness_PixelPlacement :
    idleState.imgWidth.toNat * idleState.imgHeight.toNat ≤ 3 ∧
    2 < lenState.imgWidth.toNat * lenState.imgHeight.toNat ∧
    lenState.rowEntry (2 / lenState.imgWidth.toNat) = 0 ∧
    lenState.canvasEnd ≤ 2 ^ lenState.params.addrBits ∧
    lenState.screenWidth.toNat ≤ ({ lenState with imgLeft := 1 } : State).imgLeft.toNat + 2 ∧
    2 ^ (lenState.palSizeLog2m1.toNat + 1) ≤ (4 : Symbol).toNat := by decide +kernel

theorem test_witness_RowOrderPermutation :
    0 < 1 ∧ 65534 < 65535 ∧ 0 < 3 * 2 ∧ 5 < 3 * 2 ∧ (0 : Nat) ≠ 5 := by decide

theorem test_witness_InterlaceChangesOrderOnly :
    2 < idleState.imgWidth.toNat * idleState.imgHeight.toNat ∧
    (rowOrder true idleState.imgHeight.toNat)[2 / idleState.imgWidth.toNat]? = some 0 := by
  decide +kernel

end Sys2Proof.Tests
end

/-! # The decoder, the parameters and the register port

The statements of the family 00_scope: O1, O2, O6, O15, O32. -/

namespace Sys2Proof.Machine

/-! ### Commands, register offsets and their carriers (R54, R70) -/

/-- The offset of CMD reaches index 2 in every window (R31). -/
@[simp] theorem regIndexOf_cmdOffset (windowBytes : Nat) : regIndexOf windowBytes 0x008 = 2 :=
  regIndexOf_offsetOf (Reg.index_onPort .cmd windowBytes)

@[simp] theorem cmdField_setWidth (cmd : BitVec 4) : cmdField (cmd.setWidth 32) = cmd := by
  revert cmd
  decide

/-- The command field alone, widened again, is the data with bits [31:4] cleared. -/
theorem setWidth_cmdField (d : Word) : (cmdField d).setWidth 32 = d &&& 0xF#32 := by
  have hmask : (0xF#32).toNat = 2 ^ 4 - 1 := rfl
  apply BitVec.eq_of_toNat_eq
  rw [BitVec.toNat_and, hmask, Nat.and_two_pow_sub_one_eq_mod, cmdField, BitVec.toNat_setWidth,
    BitVec.extractLsb'_toNat, Nat.shiftRight_zero]
  omega

/-- Every command number, the ones that stand for a named command included, is carried by itself. -/
theorem encode_decodeCmd (cmd : BitVec 4) : encode (decodeCmd cmd) = encodeCmd cmd := by
  rcases decodeCmd_cases cmd with ⟨-, h⟩ | ⟨rfl, h⟩ | ⟨rfl, h⟩ | ⟨rfl, h⟩ | ⟨rfl, h⟩ <;> rw [h] <;> rfl

theorem decodeCmd_of_four_le {cmd : BitVec 4} (h : 4 ≤ cmd.toNat) :
    decodeCmd cmd = .cmdReserved cmd := by
  revert cmd
  decide

theorem decode_encodeCmd (x : DecodeCtx) (cmd : BitVec 4) :
    decode x (encodeCmd cmd) = .ok (decodeCmd cmd) := by
  simp [encodeCmd, decode, decodeEvent]

theorem decodeCmd_selectedIn (x : DecodeCtx) (cmd : BitVec 4) :
    (decodeCmd cmd).selectedIn x = true := by
  rcases decodeCmd_cases cmd with ⟨-, h⟩ | ⟨-, h⟩ | ⟨-, h⟩ | ⟨-, h⟩ | ⟨-, h⟩ <;> rw [h] <;> rfl

theorem decodeCmd_onPort (windowBytes : Nat) (cmd : BitVec 4) :
    (decodeCmd cmd).onPort windowBytes = true := by
  rcases decodeCmd_cases cmd with ⟨-, h⟩ | ⟨-, h⟩ | ⟨-, h⟩ | ⟨-, h⟩ | ⟨-, h⟩ <;> rw [h] <;> rfl

/-- The byte offset of the index an access reaches is its offset in the window with bits [1:0] cleared (R54). -/
theorem offsetOf_regIndexOf (windowBytes o : Nat) :
    offsetOf (regIndexOf windowBytes o) = portOffset windowBytes o / 4 * 4 :=
  Nat.mul_comm _ _

/-- A write that reaches CMD is carried by offset 0x008 and its command field (R70). -/
theorem encodeCmd_cmdField_eq_cleared {windowBytes o : Nat} (d : Word)
    (h : regIndexOf windowBytes o = 2) :
    encodeCmd (cmdField d) = Carrier.cleared windowBytes (.event (.write o d)) := by
  have hidx : portOffset windowBytes o / 4 = 2 := h
  simp only [encodeCmd, Carrier.cleared, PortEvent.cleared, hidx, if_pos, setWidth_cmdField]

/-! ### Codes and their carriers (R75, R76) -/

theorem encode_decodeCode (x : DecodeCtx) (c : Code) : encode (decodeCode x c) = .code c := by
  unfold decodeCode
  cases classify x c <;> rfl

theorem decodeCode_selectedIn (x : DecodeCtx) (c : Code) :
    (decodeCode x c).selectedIn x = true := by
  unfold decodeCode
  cases h : classify x c <;> simp [Instr.selectedIn, h]

/-- A code's instruction that the context selects is the one its code decodes to. -/
theorem decodeCode_of_selectedIn {x : DecodeCtx} {i : Instr} {c : Code} (hc : encode i = .code c)
    (hsel : i.selectedIn x = true) : decodeCode x c = i := by
  cases i with
  | lzwEoi _ | lzwClear _ | lzwFirst _ | lzwBadFirst _ | lzwKnown _ | lzwPending _ | lzwBeyond _ =>
    obtain rfl := Carrier.code.inj hc
    simp only [decodeCode, of_decide_eq_true hsel]
  | _ => cases hc

theorem decodeCode_onPort (x : DecodeCtx) (c : Code) (windowBytes : Nat) :
    (decodeCode x c).onPort windowBytes = true := by
  unfold decodeCode
  cases classify x c <;> rfl

/-! ### Bytes and their carriers (R72, R73) -/

/-- Everything a byte can decode to, by the reading state that selects the token. -/
theorem decodeByte_eq_ok {x : DecodeCtx} {b : Byte} {i : Instr} (h : decodeByte x b = .ok i) :
    (x.seq = .len ∧ b = 0 ∧ i = .sbTerm) ∨ (x.seq = .len ∧ b ≠ 0 ∧ i = .sbLen b) ∨
    (x.seq = .data ∧ i = .sbData b) ∨
    (x.seq = .skipLen ∧ b = 0 ∧ i = .sbSkipTerm) ∨ (x.seq = .skipLen ∧ b ≠ 0 ∧ i = .sbSkipLen b) ∨
    (x.seq = .skipData ∧ i = .sbSkipData b) := by
  unfold decodeByte at h
  split at h
  case h_1 hs | h_3 hs =>
    obtain rfl := Except.ok.inj h
    rcases eq_or_ne b 0 with rfl | hb
    · simp [hs]
    · rw [if_neg hb]
      simpa [hs] using hb
  case h_2 hs | h_4 hs =>
    obtain rfl := Except.ok.inj h
    simp [hs]
  all_goals cases h

theorem decodeByte_roundTrip {x : DecodeCtx} {b : Byte} {i : Instr} (h : decodeByte x b = .ok i) :
    i.selectedIn x = true ∧ i.onPort x.windowBytes = true ∧ encode i = .event (.byte b) := by
  rcases decodeByte_eq_ok h with ⟨hs, rfl, rfl⟩ | ⟨hs, -, rfl⟩ | ⟨hs, rfl⟩ | ⟨hs, rfl, rfl⟩ |
    ⟨hs, -, rfl⟩ | ⟨hs, rfl⟩ <;> exact ⟨decide_eq_true hs, rfl, rfl⟩

/-- A byte decodes only where the block accepts it (R55). -/
theorem State.inReady_of_decodeByte {s : State} {b : Byte} {i : Instr}
    (h : decodeByte s.ctx b = .ok i) : s.inReady = true := by
  rcases decodeByte_eq_ok h with ⟨hs, -⟩ | ⟨hs, -⟩ | ⟨hs, -⟩ | ⟨hs, -⟩ | ⟨hs, -⟩ | ⟨hs, -⟩ <;>
    exact congrArg Seq.reading hs

/-! ### Decoding and encoding -/

/-- Settles O1, by cases on the instruction: a command goes through `decode_encodeCmd`, a register access
through `regIndexOf_offsetOf`, a token or a code through the state or class that selects it. -/
theorem decodeOfEncode : Obligations.DecodeOfEncode := by
  unfold Obligations.DecodeOfEncode
  intro x i hwf hsel hport
  cases i with
  | cmdNop => exact decode_encodeCmd x 0
  | cmdStartImage => exact decode_encodeCmd x 1
  | cmdStartSkip => exact decode_encodeCmd x 2
  | cmdReset => exact decode_encodeCmd x 3
  | cmdReserved cmd =>
    rw [encode, decode_encodeCmd, decodeCmd_of_four_le (of_decide_eq_true hwf)]
  | hostRd off =>
    simp only [encode, decode, decodeEvent, regIndexOf_offsetOf (of_decide_eq_true hport)]
  | hostWr off d =>
    have hoff : off ≠ 2 := of_decide_eq_true hwf
    simp only [encode, decode, decodeEvent, regIndexOf_offsetOf (of_decide_eq_true hport), if_neg hoff]
  | inFail => rfl
  | sbTerm | sbData b | sbSkipTerm | sbSkipData b =>
    have hs := of_decide_eq_true hsel
    simp [encode, decode, decodeEvent, decodeByte, hs]
  | sbLen n | sbSkipLen n =>
    have hs := of_decide_eq_true hsel
    have hn : n ≠ 0 := of_decide_eq_true hwf
    simp only [encode, decode, decodeEvent, decodeByte, hs, if_neg hn]
  | lzwEoi c | lzwClear c | lzwFirst c | lzwBadFirst c | lzwKnown c | lzwPending c | lzwBeyond c =>
    exact congrArg Except.ok (decodeCode_of_selectedIn rfl hsel)

/-- Settles O2, by cases on the carrier; `decode_wellFormed` is the model's own law. -/
theorem encodeOfDecode : Obligations.EncodeOfDecode := by
  unfold Obligations.EncodeOfDecode
  intro x w i h
  refine ⟨decode_wellFormed x w h, ?_⟩
  cases w with
  | code c =>
    obtain rfl := Except.ok.inj h
    exact ⟨decodeCode_selectedIn x c, decodeCode_onPort x c _, encode_decodeCode x c⟩
  | event e =>
    cases e with
    | read o =>
      obtain rfl := Except.ok.inj h
      refine ⟨rfl, decide_eq_true (offsetOf_regIndexOf_lt _ o), ?_⟩
      simp only [encode, offsetOf_regIndexOf, Carrier.cleared, PortEvent.cleared]
    | write o d =>
      obtain rfl := Except.ok.inj h
      by_cases hidx : regIndexOf x.windowBytes o = 2
      · rw [if_pos hidx]
        exact ⟨decodeCmd_selectedIn x _, decodeCmd_onPort _ _,
          (encode_decodeCmd _).trans (encodeCmd_cmdField_eq_cleared d hidx)⟩
      · rw [if_neg hidx]
        refine ⟨rfl, decide_eq_true (offsetOf_regIndexOf_lt _ o), ?_⟩
        have hcmd : ¬ portOffset x.windowBytes o / 4 = 2 := hidx
        simp only [encode, offsetOf_regIndexOf, Carrier.cleared, PortEvent.cleared, if_neg hcmd]
    | byte b => exact decodeByte_roundTrip h
    | fail =>
      obtain rfl := Except.ok.inj h
      exact ⟨rfl, rfl, rfl⟩

/-! ### The next event -/

/-- The first event is taken when it decodes; a byte decodes only where it is accepted. -/
theorem State.takeEvent_of_decode {s : State} {p : PortEvent} {rest : List HostEvent} {i : Instr}
    (henv : s.env = .port p :: rest) (h : decode s.ctx (.event p) = .ok i) :
    s.takeEvent = some (.port p, { s with env := rest }) := by
  unfold State.takeEvent
  rw [henv]
  cases p with
  | read o => rfl
  | write o d => rfl
  | fail => rfl
  | byte b =>
    have hr : s.inReady = true := State.inReady_of_decodeByte h
    simp [pickEvent, hr]

/-- Settles O6: the first event is taken, and what is left decodes it as before. -/
theorem stepRunsDecodedInstruction : Obligations.StepRunsDecodedInstruction := by
  unfold Obligations.StepRunsDecodedInstruction
  intro s p rest i henv hdec
  have hdec' : decode ({ s with env := rest } : State).ctx (.event p) = .ok i := hdec
  simp only [step, State.takeEvent_of_decode henv hdec, perform, hdec']

/-! ### The parameters (R8) -/

theorem CodeOnly.params_eq {s t : State} (h : CodeOnly s t) : t.params = s.params := by
  rw [h.frame]

theorem State.storeReg_params (s : State) (d : Word) (r : Reg) :
    (s.storeReg d r).params = s.params := by
  cases r <;> rfl

theorem State.writeConfig_params (s : State) (r : Reg) (d : Word) :
    (s.writeConfig r d).params = s.params := by
  unfold State.writeConfig
  split
  · rfl
  · exact s.storeReg_params d r

theorem execCmdStartImage_params {s t : State} (h : execCmdStartImage s = .next t) :
    t.params = s.params := by
  unfold execCmdStartImage at h
  split_ifs at h <;> obtain rfl := Host.Outcome.next.inj h <;> simp

theorem execCmdStartSkip_params {s t : State} (h : execCmdStartSkip s = .next t) :
    t.params = s.params := by
  unfold execCmdStartSkip at h
  split_ifs at h <;> obtain rfl := Host.Outcome.next.inj h <;> simp

theorem execCmdReserved_params {cmd : BitVec 4} {s t : State}
    (h : execCmdReserved cmd s = .next t) : t.params = s.params := by
  unfold execCmdReserved at h
  split_ifs at h <;> obtain rfl := Host.Outcome.next.inj h <;> simp

theorem command_params {cmd : BitVec 4} {s t : State} (h : command cmd s = .next t) :
    t.params = s.params := by
  unfold command at h
  split at h
  · rw [← Host.Outcome.next.inj h]
  · exact execCmdStartImage_params h
  · exact execCmdStartSkip_params h
  · rw [← Host.Outcome.next.inj h, State.softReset_params]
  · exact execCmdReserved_params h

theorem State.writeReg_params {s t : State} {r : Reg} {d : Word} (h : s.writeReg r d = .next t) :
    t.params = s.params := by
  unfold State.writeReg at h
  split at h
  · rw [← Host.Outcome.next.inj h]
  · exact command_params h
  · rw [← Host.Outcome.next.inj h, State.writeStatus_params]
  · split at h <;> rw [← Host.Outcome.next.inj h]
    exact s.writeConfig_params _ d

theorem execHostWr_params {off : Nat} {d : Word} {s t : State} (h : execHostWr off d s = .next t) :
    t.params = s.params := by
  unfold execHostWr at h
  split at h
  · exact State.writeReg_params h
  · rw [← Host.Outcome.next.inj h]

/-- A meaning that is refused where its row is not selected answers only where it is. -/
theorem guarded_eq_next {p : Prop} [Decidable p] {r : Result} {x : Refusal} {t : State} :
    (if p then r else .refused x) = Host.Outcome.next t ↔ p ∧ r = .next t := by
  split <;> simp_all

theorem execSbData_params {b : Byte} {s t : State} (h : execSbData b s = .next t) :
    t.params = s.params := by
  obtain ⟨-, h⟩ := guarded_eq_next.mp h
  dsimp only at h
  split at h
  · rw [← Host.Outcome.next.inj h, State.endOfSubBlock_params, State.countPayload_params]
  · obtain ⟨u, hu, h⟩ := andThen_eq_next.mp h
    have hp : u.params = s.params := (acceptBits_codeOnly hu).params_eq.trans s.countPayload_params
    split at h <;> rw [← Host.Outcome.next.inj h]
    · exact hp
    · rw [State.endOfSubBlock_params, hp]

/-- A code's instruction that the state selects runs as its code does in the stream (R98). -/
theorem exec_eq_processCode {i : Instr} {s : State} {c : Code} (hc : encode i = .code c)
    (hsel : i.selectedIn s.ctx = true) : exec i s = processCode c s := by
  rw [← decodeCode_of_selectedIn hc hsel]
  unfold decodeCode processCode State.classOf
  cases classify s.ctx c <;> rfl

/-- A code's instruction changes only what `CodeOnly` names. -/
theorem exec_codeOnly {i : Instr} {s t : State} {c : Code} (h : exec i s = .next t)
    (hc : encode i = .code c) (hsel : i.selectedIn s.ctx = true) : CodeOnly s t := by
  rw [exec_eq_processCode hc hsel] at h
  exact processCode_codeOnly h

/-- No instruction changes a parameter. -/
theorem exec_params {i : Instr} {s t : State} (h : exec i s = .next t) : t.params = s.params := by
  cases i with
  | cmdNop | cmdReset | hostRd off =>
    obtain rfl := Host.Outcome.next.inj h
    rfl
  | cmdStartImage => exact execCmdStartImage_params h
  | cmdStartSkip => exact execCmdStartSkip_params h
  | cmdReserved cmd => exact execCmdReserved_params h
  | hostWr off d => exact execHostWr_params h
  | sbTerm | sbLen n | sbSkipTerm | sbSkipLen n =>
    obtain ⟨-, h⟩ := guarded_eq_next.mp h
    obtain rfl := Host.Outcome.next.inj h
    rfl
  | sbData b => exact execSbData_params h
  | sbSkipData b =>
    obtain ⟨-, h⟩ := guarded_eq_next.mp h
    split at h <;> rw [← Host.Outcome.next.inj h] <;> rfl
  | inFail =>
    simp only [exec, execInFail] at h
    split at h <;> rw [← Host.Outcome.next.inj h]
    rfl
  | lzwEoi c | lzwClear c | lzwFirst c | lzwBadFirst c | lzwKnown c | lzwPending c | lzwBeyond c =>
    have hclass := (guarded_eq_next.mp h).1
    exact (exec_codeOnly h rfl (decide_eq_true hclass)).params_eq

/-- Settles O15, by the three things a step can do (`step_eq_next`). -/
theorem parametersNeverChange : Obligations.ParametersNeverChange := by
  unfold Obligations.ParametersNeverChange
  refine ⟨⟨rfl, rfl, rfl, rfl⟩, fun s t h => ?_⟩
  rcases step_eq_next h with ⟨-, rfl⟩ | ⟨s', he, rfl⟩ | ⟨p, s', i, he, -, hx⟩
  · rfl
  · obtain ⟨rest, -, rfl⟩ := State.takeEvent_eq_some he
    rfl
  · obtain ⟨rest, -, hs'⟩ := State.takeEvent_eq_some he
    rw [exec_params hx, hs']

/-! ### Reads of the register port (R119) -/

@[simp] theorem State.readAt_index (s : State) (r : Reg) : s.readAt r.index = s.readReg r := by
  simp only [State.readAt, Reg.ofIndex_index]

theorem State.readAt_reserved (s : State) {off : Nat} (h : ∀ r : Reg, r.index ≠ off) :
    s.readAt off = 0 := by
  simp only [State.readAt, Reg.ofIndex_eq_none h]

theorem exec_hostRd (off : Nat) (s : State) :
    exec (.hostRd off) s = .next { s with rdData := s.readAt off } := rfl

/-- Settles O32; the byte offsets of the map are its finitely many entries, the palette's are arithmetic. -/
theorem hostReadReturns : Obligations.HostReadReturns := by
  unfold Obligations.HostReadReturns
  refine ⟨fun s r => ?_, fun s off hres => ?_, fun x o => rfl, by decide, fun i => ?_⟩
  · rw [exec_hostRd, State.readAt_index]
  · rw [exec_hostRd, State.readAt_reserved s hres]
  · exact Nat.mul_add 4 256 i.toNat

end Sys2Proof.Machine

/-! # The state: its invariant, what its steps count, and its registers

The statements of the family 10_state: O10 to O13, O21, O22, O33, O34, O42. -/

namespace Sys2Proof.Machine

/-! ### What the instructions of the register port can do (R120, R122) -/

/-- An index reaches only the register that stands there (R31). -/
theorem Reg.index_of_ofIndex {off : Nat} {r : Reg} (h : Reg.ofIndex off = some r) : r.index = off := by
  by_contra hne
  have hnone : Reg.ofIndex off = none := Reg.ofIndex_eq_none fun r' hr' => by
    rw [← hr', Reg.ofIndex_index] at h
    exact hne (Option.some.inj h ▸ hr')
  rw [hnone] at h
  cases h

/-- Everything a HOST.WR can do away from CMD: nothing, store IRQ_EN, write STATUS, or write a configuration
register. -/
theorem execHostWr_cases {off : Nat} (hoff : off ≠ 2) (d : Word) (s : State) :
    execHostWr off d s = .next s ∨ execHostWr off d s = .next { s with irqEn := d.getLsbD 0 } ∨
    execHostWr off d s = .next (s.writeStatus d) ∨
    ∃ r, execHostWr off d s = .next (s.writeConfig r d) := by
  unfold execHostWr
  split
  · rename_i r hr
    have hcmd : r ≠ .cmd := fun h => hoff (by rw [← Reg.index_of_ofIndex hr, h]; rfl)
    unfold State.writeReg
    split
    · exact .inr (.inl rfl)
    · exact absurd rfl hcmd
    · exact .inr (.inr (.inl rfl))
    · split
      · exact .inr (.inr (.inr ⟨r, rfl⟩))
      · exact .inl rfl
  · exact .inl rfl

/-- Everything CMD START_IMAGE can do: nothing, raise an error, or set a decode up, its checks passed. -/
theorem execCmdStartImage_cases (s : State) :
    execCmdStartImage s = .next s ∨
    (∃ code info, code ≠ .none ∧ execCmdStartImage s = .next (s.raiseError code info)) ∨
    (s.seq ≠ .error ∧ 2 ≤ s.rootCodeSize.toNat ∧ s.rootCodeSize.toNat ≤ 11 ∧
      s.imgHeight.toNat ≤ s.params.maxRows ∧ s.canvasEnd ≤ 2 ^ s.params.addrBits ∧
      execCmdStartImage s = .next s.startImage) := by
  unfold execCmdStartImage
  split_ifs with herr hbusy hroot hrows hfit
  · exact .inl rfl
  · exact .inr (.inl ⟨.illegalCmd, 1, by decide, rfl⟩)
  · exact .inr (.inl ⟨.formatMinCodeSize, _, by decide, rfl⟩)
  · exact .inr (.inl ⟨.resource, 1, by decide, rfl⟩)
  · exact .inr (.inl ⟨.resource, 2, by decide, rfl⟩)
  · exact .inr (.inr ⟨herr, by omega, by omega, by omega, by omega, rfl⟩)

/-! ### The invariant: reset and the fields it does not speak of -/

/-- Hardware reset meets the invariant whatever the block did before, if its canvas does (R53, R142). -/
theorem State.hardwareReset_inv {s : State}
    (hcanvas : Memory.wf s.canvas ∧ ∀ cell ∈ s.canvas, cell.1 < 2 ^ s.params.addrBits) :
    s.hardwareReset.Inv where
  canvas_wf := hcanvas
  dict_wf := ⟨.nil, by simp [State.reset]⟩
  symbols_fit := by simp [State.SymbolsFit, State.reset]
  rowmap_wf := ⟨.nil, by simp [State.reset]⟩
  frame_rem := by simp [State.reset]
  err_code := by simp [State.reset]
  err_info := fun _ => rfl
  done_root := nofun
  stream := by rintro (h | h) <;> cases h

/-- Settles O11: the reset state is its own hardware reset, with an empty canvas. -/
theorem resetMeetsInvariant : Obligations.ResetMeetsInvariant := by
  unfold Obligations.ResetMeetsInvariant
  exact State.hardwareReset_inv (s := State.reset) ⟨.nil, by simp [State.reset]⟩

/-- The invariant speaks neither of the interrupt, nor of the byte count, nor of the last read value. -/
theorem State.Inv.withUntracked {s : State} (h : s.Inv) (en pend : Bool) (n v : Word) :
    ({ s with irqEn := en, irqPend := pend, bytesIn := n, rdData := v } : State).Inv :=
  ⟨h.canvas_wf, h.dict_wf, h.symbols_fit, h.rowmap_wf, h.frame_rem, h.err_code, h.err_info, h.done_root,
    fun hs => State.StreamInv.congr (h.stream hs) rfl rfl rfl rfl rfl rfl rfl rfl rfl rfl rfl rfl rfl
      rfl rfl rfl (h.stream hs).len_eoi⟩

theorem State.Inv.countByte {s : State} (h : s.Inv) : s.countByte.Inv :=
  h.withUntracked s.irqEn s.irqPend (s.bytesIn + 1) s.rdData

theorem State.Inv.withRdData {s : State} (h : s.Inv) (v : Word) : ({ s with rdData := v } : State).Inv :=
  h.withUntracked s.irqEn s.irqPend s.bytesIn v

theorem State.Inv.withIrqEn {s : State} (h : s.Inv) (b : Bool) : ({ s with irqEn := b } : State).Inv :=
  h.withUntracked b s.irqPend s.bytesIn s.rdData

theorem State.Inv.writeStatus {s : State} (h : s.Inv) (d : Word) : (s.writeStatus d).Inv := by
  unfold State.writeStatus
  split
  · exact h.withUntracked s.irqEn false s.bytesIn s.rdData
  · exact h

/-! ### The invariant: commands and register writes -/

theorem State.not_streaming_of_not_inReady {s : State} (h : s.inReady = false) : ¬ s.streaming := by
  rintro (hs | hs) <;> simp [State.inReady, hs, Seq.reading] at h

/-- While no image is decoded the invariant rests on no configuration register. -/
theorem State.Inv.storeReg {s : State} (h : s.Inv) (hidle : s.inReady = false) (d : Word) (r : Reg) :
    (s.storeReg d r).Inv := by
  have hns := State.not_streaming_of_not_inReady hidle
  cases r <;>
    exact ⟨h.canvas_wf, h.dict_wf, h.symbols_fit, h.rowmap_wf, h.frame_rem, h.err_code, h.err_info,
      h.done_root, fun hs => absurd hs hns⟩

theorem State.Inv.writeConfig {s : State} (h : s.Inv) (r : Reg) (d : Word) : (s.writeConfig r d).Inv := by
  unfold State.writeConfig
  split
  · exact h
  · rename_i hbusy
    exact h.storeReg (Bool.eq_false_iff.mpr hbusy) d r

/-- CMD RESET ends every image, skip and error (R124). -/
theorem State.Inv.softReset {s : State} (h : s.Inv) : s.softReset.Inv where
  canvas_wf := h.canvas_wf
  dict_wf := h.dict_wf
  symbols_fit := h.symbols_fit
  rowmap_wf := h.rowmap_wf
  frame_rem := by simp
  err_code := by simp
  err_info := fun _ => rfl
  done_root := nofun
  stream := by rintro (hs | hs) <;> cases hs

theorem State.startImage_root_toNat {s : State} (h : s.rootCodeSize.toNat ≤ 11) :
    s.startImage.root.toNat = s.rootCodeSize.toNat := by
  rw [State.startImage_root, BitVec.toNat_setWidth]
  omega

theorem State.startImage_numRoot {s : State} (h : s.rootCodeSize.toNat ≤ 11) :
    s.startImage.numRoot = 2 ^ s.rootCodeSize.toNat := by
  rw [State.numRoot, State.startImage_root_toNat h]

theorem State.startImage_numRoot_le {s : State} (h : s.rootCodeSize.toNat ≤ 11) :
    s.startImage.numRoot ≤ 2048 := by
  rw [State.startImage_numRoot h]
  exact Nat.pow_le_pow_right (n := 2) (j := 11) (by decide) h

theorem State.startImage_ctUsed_toNat {s : State} (h : s.rootCodeSize.toNat ≤ 11) :
    s.startImage.ctUsed.toNat = s.startImage.numRoot + 2 := by
  have hle := State.startImage_numRoot_le h
  rw [State.startImage_ctUsed, BitVec.toNat_ofNat, ← State.startImage_root, ← State.numRoot]
  omega

theorem State.startImage_width_toNat {s : State} (h : s.rootCodeSize.toNat ≤ 11) :
    s.startImage.width.toNat = s.rootCodeSize.toNat + 1 := by
  have hone : (1 : BitVec 4).toNat = 1 := rfl
  rw [State.startImage_width, ← State.startImage_root, BitVec.toNat_add, hone,
    State.startImage_root_toNat h]
  omega

/-- The laws of an image hold where it starts: only roots are defined (R122). -/
theorem State.startImage_streamInv {s : State} (hlo : 2 ≤ s.rootCodeSize.toNat)
    (hhi : s.rootCodeSize.toNat ≤ 11) (hfit : s.canvasEnd ≤ 2 ^ s.params.addrBits) :
    s.startImage.StreamInv := by
  have hroot := State.startImage_root_toNat hhi
  have hnum := State.startImage_numRoot_le hhi
  have hct := State.startImage_ctUsed_toNat hhi
  have hwidth := State.startImage_width_toNat hhi
  exact {
    root_range := by rw [hroot]; exact ⟨hlo, hhi⟩
    ct_range := by rw [hct, Config.dictSize]; omega
    ct_first := fun _ => hct
    width_law := by rw [hwidth, hct, State.startImage_numRoot hhi, widthLaw_reset _ hlo hhi]
    pend_cnt := by rw [hwidth]; exact Nat.succ_pos _
    pend_val := Nat.one_pos
    old_code := nofun
    roots := fun i hi => by
      have hi' : i < 2 ^ (s.rootCodeSize.setWidth 4).toNat := hi
      simp only [State.startImage_dict, State.startImage_params, Memory.read_fill, List.length_map,
        List.length_range, if_pos hi', List.getElem?_map, List.getElem?_range hi', Option.map_some]
    chains := fun e hlow hhigh => by omega
    rows := fun i hi => by
      have hi' : i < s.imgHeight.toNat := hi
      simp [Memory.read_fill, rowOrder_length, hi']
    canvas_fits := hfit
    len_eoi := fun _ => rfl }

/-- CMD START_IMAGE with its checks passed: two fills within the capacities, and an image that starts (R122). -/
theorem State.Inv.startImage {s : State} (h : s.Inv) (herr : s.seq ≠ .error)
    (hlo : 2 ≤ s.rootCodeSize.toNat) (hhi : s.rootCodeSize.toNat ≤ 11)
    (hrows : s.imgHeight.toNat ≤ s.params.maxRows) (hfit : s.canvasEnd ≤ 2 ^ s.params.addrBits) :
    s.startImage.Inv := by
  obtain ⟨hcode, hinfo⟩ := h.no_error herr
  have hroots : ((List.range s.startImage.numRoot).map (rootEntry s.params.symbolBits)).length ≤
      Config.dictSize := by
    rw [List.length_map, List.length_range]
    exact Nat.le_trans (State.startImage_numRoot_le hhi) (by decide)
  exact {
    canvas_wf := h.canvas_wf
    dict_wf := ⟨Memory.wf_fill _ h.dict_wf.1, Memory.fill_below h.dict_wf.2 hroots⟩
    symbols_fit := State.SymbolsFit.dictInit (s := { s with root := s.rootCodeSize.setWidth 4 })
      h.symbols_fit
    rowmap_wf := ⟨Memory.wf_fill _ h.rowmap_wf.1,
      Memory.fill_below h.rowmap_wf.2 (by simpa [rowOrder_length] using hrows)⟩
    frame_rem := by simp
    err_code := by simp [hcode]
    err_info := fun _ => hinfo
    done_root := nofun
    stream := fun _ => State.startImage_streamInv hlo hhi hfit }

/-- The laws of an image do not rest on where its stream is read, but for LEN, which excludes EOI (R83). -/
theorem State.StreamInv.move {s : State} (h : s.StreamInv) {q : Seq} {n : Byte} {cnt : Word} {pend : Bool}
    (heoi : q = .len → s.eoiFlag = false) :
    ({ s with bytesIn := cnt, frameRem := n, seq := q, irqPend := pend } : State).StreamInv :=
  h.congr rfl rfl rfl rfl rfl rfl rfl rfl rfl rfl rfl rfl rfl rfl rfl rfl heoi

/-- Outside ERROR the sequencing state may move to another one, if the bytes due and the laws of an image fit
it (R18, R21). -/
theorem State.Inv.move {s : State} (h : s.Inv) (herr : s.seq ≠ .error) {q : Seq} {n : Byte} {cnt : Word}
    {pend : Bool} (hq : q ≠ .error) (hrem : n ≠ 0 ↔ (q = .data ∨ q = .skipData))
    (hdone : q = .done → 2 ≤ s.root.toNat ∧ s.root.toNat ≤ 11)
    (hstream : q = .len ∨ q = .data →
      ({ s with bytesIn := cnt, frameRem := n, seq := q, irqPend := pend } : State).StreamInv) :
    ({ s with bytesIn := cnt, frameRem := n, seq := q, irqPend := pend } : State).Inv := by
  obtain ⟨hcode, hinfo⟩ := h.no_error herr
  exact ⟨h.canvas_wf, h.dict_wf, h.symbols_fit, h.rowmap_wf, hrem, by simp [hcode, hq], fun _ => hinfo,
    hdone, hstream⟩

/-! ### The invariant: input tokens -/

/-- A change `CodeOnly` allows keeps what the invariant says of the memories (R56, R26, R28); what it says of
the sequencing state remains to be shown. -/
theorem State.Inv.of_codeOnly {s t : State} (h : s.Inv) (hc : CodeOnly s t)
    (frame_rem : t.frameRem ≠ 0 ↔ (t.seq = .data ∨ t.seq = .skipData))
    (err_code : t.errCode ≠ .none ↔ t.seq = .error) (err_info : t.seq ≠ .error → t.errInfo = 0)
    (done_root : t.seq = .done → 2 ≤ t.root.toNat ∧ t.root.toNat ≤ 11)
    (stream : t.streaming → t.StreamInv) : t.Inv := by
  have hparams := hc.params_eq
  have hrowmap : t.rowmap = s.rowmap := by rw [hc.frame]
  exact {
    canvas_wf := ⟨hc.wf h.canvas_wf.1, by rw [hparams]; exact hc.below h.canvas_wf.2⟩
    dict_wf := ⟨hc.dict_wf h.dict_wf.1, hc.dict_below h.dict_wf.2⟩
    symbols_fit := hc.symbols_fit h.symbols_fit
    rowmap_wf := by rw [hrowmap, hparams]; exact h.rowmap_wf
    frame_rem, err_code, err_info, done_root, stream }

/-- An error entered from a run of stream bits (R130). -/
theorem BitsError.inv {s t : State} (hb : BitsError t) (h : s.Inv) (hc : CodeOnly s t) : t.Inv :=
  h.of_codeOnly hc (by simp [hb.frameRem, hb.seq]) (by simp [hb.errCode, hb.seq])
    (fun hne => absurd hb.seq hne) (by simp [hb.seq]) (by simp [State.streaming, hb.seq])

/-- The three outcomes of the end-of-sub-block test (R85). -/
theorem State.endOfSubBlock_cases (s : State) :
    (s.frameRem ≠ 0 ∧ s.endOfSubBlock = s) ∨
    (s.frameRem = 0 ∧ s.endOfSubBlock = { s with seq := .done, irqPend := true }) ∨
    (s.frameRem = 0 ∧ s.eoiFlag = false ∧ s.endOfSubBlock = { s with seq := .len }) := by
  unfold State.endOfSubBlock
  split_ifs with hrem heoi
  · exact .inr (.inl ⟨hrem, rfl⟩)
  · exact .inr (.inr ⟨hrem, Bool.eq_false_iff.mpr heoi, rfl⟩)
  · exact .inl ⟨hrem, rfl⟩

theorem State.endOfSubBlock_codeOnly (s : State) : CodeOnly s s.endOfSubBlock := by
  rcases s.endOfSubBlock_cases with ⟨-, he⟩ | ⟨-, he⟩ | ⟨-, -, he⟩ <;> rw [he] <;> exact CodeOnly.of_eq rfl

/-- The end-of-sub-block test in an image in progress: DATA while bytes are due, else LEN or DONE. -/
theorem State.Inv.endOfSubBlock {s u : State} (h : s.Inv) (hc : CodeOnly s u) (hu : u.StreamInv)
    (hseq : u.seq = .data) (hcode : u.errCode = .none) (hinfo : u.errInfo = 0) :
    u.endOfSubBlock.Inv := by
  have hinv := h.of_codeOnly (hc.trans u.endOfSubBlock_codeOnly)
  rcases u.endOfSubBlock_cases with ⟨hrem, he⟩ | ⟨hrem, he⟩ | ⟨hrem, heoi, he⟩ <;> rw [he] at hinv ⊢
  · exact hinv (by simpa [hseq] using hrem) (by simp [hcode, hseq]) (fun _ => hinfo) (by simp [hseq])
      (fun _ => hu)
  · exact hinv (by simp [hrem]) (by simp [hcode]) (fun _ => hinfo) (fun _ => hu.root_range)
      (by rintro (hs | hs) <;> cases hs)
  · exact hinv (by simp [hrem]) (by simp [hcode]) (fun _ => hinfo) nofun
      (fun _ => hu.move fun _ => heoi)

/-! ### The invariant: every step -/

/-- An outcome is a next state that meets the invariant. -/
def NextInv (r : Result) : Prop := ∃ t, r = .next t ∧ t.Inv

theorem State.Inv.next {s : State} (h : s.Inv) : NextInv (.next s) := ⟨s, rfl, h⟩

theorem State.Inv.execCmdStartImage {s : State} (h : s.Inv) : NextInv (execCmdStartImage s) := by
  rcases execCmdStartImage_cases s with he | ⟨code, info, hcode, he⟩ |
    ⟨herr, hlo, hhi, hrows, hfit, he⟩ <;> rw [he]
  · exact h.next
  · exact (h.raiseError info hcode).next
  · exact (h.startImage herr hlo hhi hrows hfit).next

theorem State.Inv.execCmdStartSkip {s : State} (h : s.Inv) : NextInv (execCmdStartSkip s) := by
  unfold Machine.execCmdStartSkip
  split_ifs with herr
  · exact h.next
  · exact (h.raiseError 2 (by decide)).next
  · exact ⟨_, rfl, h.move herr (by simp) (by simp) nofun (by simp)⟩

theorem State.Inv.execCmdReserved {s : State} (h : s.Inv) {cmd : BitVec 4} (hcmd : 4 ≤ cmd.toNat) :
    NextInv (execCmdReserved cmd s) := by
  unfold Machine.execCmdReserved
  rw [if_neg (by omega)]
  split
  · exact h.next
  · exact (h.raiseError _ (by decide)).next

theorem State.Inv.execHostWr {s : State} (h : s.Inv) {off : Nat} (hoff : off ≠ 2) (d : Word) :
    NextInv (execHostWr off d s) := by
  rcases execHostWr_cases hoff d s with he | he | he | ⟨r, he⟩ <;> rw [he]
  · exact h.next
  · exact (h.withIrqEn _).next
  · exact (h.writeStatus d).next
  · exact (h.writeConfig r d).next

theorem State.Inv.execInFail {s : State} (h : s.Inv) : NextInv (execInFail s) := by
  unfold Machine.execInFail
  split
  · exact (h.raiseError s.bytesIn (by decide)).next
  · exact h.next

/-- A terminator ends the image (R83). -/
theorem State.Inv.execSbTerm {s : State} (h : s.Inv) (hs : s.seq = .len) : NextInv (execSbTerm s) := by
  have hrem : s.frameRem = 0 := by simpa [hs] using h.frame_rem
  have hroot := (h.stream (.inl hs)).root_range
  unfold Machine.execSbTerm
  rw [if_pos hs]
  exact ⟨_, rfl, h.move (by simp [hs]) (by simp) (by simp [hrem]) (fun _ => hroot) (by simp)⟩

/-- A length byte opens a sub-block of the image (R84). -/
theorem State.Inv.execSbLen {s : State} (h : s.Inv) {n : Byte} (hs : s.seq = .len) (hn : n ≠ 0) :
    NextInv (execSbLen n s) := by
  unfold Machine.execSbLen
  rw [if_pos ⟨hs, hn⟩]
  exact ⟨_, rfl, h.move (by simp [hs]) (by simp) (by simpa using hn) nofun fun _ =>
    (h.stream (.inl hs)).move nofun⟩

/-- A payload byte: the bits of the image, or none after EOI, then the end-of-sub-block test (R85). -/
theorem State.Inv.execSbData {s : State} (h : s.Inv) (hs : s.seq = .data) (b : Byte) :
    NextInv (execSbData b s) := by
  obtain ⟨hcode, hinfo⟩ := h.no_error (by simp [hs])
  have hcount : CodeOnly s.countByte s.countPayload := CodeOnly.of_eq rfl
  have hstream : s.countPayload.StreamInv := (h.stream (.inr hs)).move (by simp [hs])
  unfold Machine.execSbData
  rw [if_pos hs]
  dsimp only
  split
  · exact (h.countByte.endOfSubBlock hcount hstream hs hcode hinfo).next
  · obtain ⟨u, hu, hg | hb⟩ := hstream.acceptBits hs (bitsOf b) <;>
      have hc := hcount.trans (acceptBits_codeOnly hu) <;>
      rw [State.bitstreamByte, hu, andThen_next]
    · have hseq : u.seq = .data := hg.seq.trans hs
      rw [if_neg (by simp [hseq])]
      exact (h.countByte.endOfSubBlock hc hg.inv hseq (hg.errCode.trans hcode) (hg.errInfo.trans hinfo)).next
    · rw [if_pos hb.seq]
      exact (hb.inv h.countByte hc).next

/-- The zero byte that ends a skipped chain (R86). -/
theorem State.Inv.execSbSkipTerm {s : State} (h : s.Inv) (hs : s.seq = .skipLen) :
    NextInv (execSbSkipTerm s) := by
  have hrem : s.frameRem = 0 := by simpa [hs] using h.frame_rem
  unfold Machine.execSbSkipTerm
  rw [if_pos hs]
  exact ⟨_, rfl, h.move (by simp [hs]) (by simp) (by simp [hrem]) nofun (by simp)⟩

/-- A length byte of a skipped chain (R87). -/
theorem State.Inv.execSbSkipLen {s : State} (h : s.Inv) {n : Byte} (hs : s.seq = .skipLen) (hn : n ≠ 0) :
    NextInv (execSbSkipLen n s) := by
  unfold Machine.execSbSkipLen
  rw [if_pos ⟨hs, hn⟩]
  exact ⟨_, rfl, h.move (by simp [hs]) (by simp) (by simpa using hn) nofun (by simp)⟩

/-- A skipped payload byte; the last one of its sub-block leads back to SKIP_LEN (R88). -/
theorem State.Inv.execSbSkipData {s : State} (h : s.Inv) (hs : s.seq = .skipData) (b : Byte) :
    NextInv (execSbSkipData b s) := by
  unfold Machine.execSbSkipData
  rw [if_pos hs]
  dsimp only
  split <;> rename_i hrem
  · exact ⟨_, rfl, h.move (by simp [hs]) (by simp) (by simpa using hrem) nofun (by simp)⟩
  · exact ⟨_, rfl, h.move (by simp [hs]) (by simp [hs]) (by simpa [hs] using hrem) (by simp [hs])
      (by simp [hs])⟩

/-- Every instruction an event carries, well formed and selected, answers a next state that meets the
invariant. A code is carried by no event (R69). -/
theorem State.Inv.exec {s : State} (h : s.Inv) {i : Instr} {e : PortEvent} (hwf : i.wellFormed = true)
    (hsel : i.selectedIn s.ctx = true) (henc : encode i = .event e) : NextInv (exec i s) := by
  cases i with
  | cmdNop => exact h.next
  | cmdStartImage => exact h.execCmdStartImage
  | cmdStartSkip => exact h.execCmdStartSkip
  | cmdReset => exact h.softReset.next
  | cmdReserved cmd => exact h.execCmdReserved (of_decide_eq_true hwf)
  | hostRd off => exact (h.withRdData _).next
  | hostWr off d => exact h.execHostWr (of_decide_eq_true hwf) d
  | sbTerm => exact h.execSbTerm (of_decide_eq_true hsel)
  | sbLen n => exact h.execSbLen (of_decide_eq_true hsel) (of_decide_eq_true hwf)
  | sbData b => exact h.execSbData (of_decide_eq_true hsel) b
  | sbSkipTerm => exact h.execSbSkipTerm (of_decide_eq_true hsel)
  | sbSkipLen n => exact h.execSbSkipLen (of_decide_eq_true hsel) (of_decide_eq_true hwf)
  | sbSkipData b => exact h.execSbSkipData (of_decide_eq_true hsel) b
  | inFail => exact h.execInFail
  | lzwEoi c | lzwClear c | lzwFirst c | lzwBadFirst c | lzwKnown c | lzwPending c | lzwBeyond c => cases henc

/-- The step on an event of a port is the run of what it decodes to. -/
theorem step_of_takeEvent {s s' : State} {p : PortEvent} {i : Instr}
    (he : s.takeEvent = some (.port p, s')) (hdec : decode s'.ctx (.event p) = .ok i) :
    step s = exec i s' := by
  simp only [step, he, perform, hdec]

/-- From the invariant every step answers a next state that meets it: it waits, takes the reset input, or runs
an instruction the decoder selected. -/
theorem State.Inv.step {s : State} (h : s.Inv) : NextInv (step s) := by
  rcases he : s.takeEvent with _ | ⟨e, s'⟩
  · simp only [Machine.step, he]
    exact h.next
  · obtain ⟨rest, -, rfl⟩ := State.takeEvent_eq_some he
    have h' := h.withEnv rest
    cases e with
    | reset =>
      simp only [Machine.step, he, perform]
      exact (State.hardwareReset_inv h'.canvas_wf).next
    | port p =>
      obtain ⟨i, hdec⟩ := State.takeEvent_decodes he
      obtain ⟨hwf, hsel, -, henc⟩ := encodeOfDecode _ _ _ hdec
      rw [step_of_takeEvent he hdec]
      exact h'.exec hwf hsel henc

/-- Settles O12, by `State.Inv.step`. -/
theorem stepKeepsInvariant : Obligations.StepKeepsInvariant := by
  unfold Obligations.StepKeepsInvariant
  intro s t h ht
  obtain ⟨u, hu, hinv⟩ := h.step
  rw [hu] at ht
  exact Host.Outcome.next.inj ht ▸ hinv

/-- Settles O13, by `State.Inv.step`. -/
theorem stepNeverStops : Obligations.StepNeverStops := by
  unfold Obligations.StepNeverStops
  intro s h
  obtain ⟨t, ht, -⟩ := h.step
  exact ⟨t, ht⟩

/-! ### What an accepted byte and the cursor can do (R19, R29) -/

/-- Everything SB.DATA can do when it answers a next state: count the byte, then change only what `CodeOnly`
names. -/
theorem execSbData_eq_next {b : Byte} {s t : State} (h : execSbData b s = .next t) :
    CodeOnly s.countPayload t := by
  obtain ⟨-, h⟩ := guarded_eq_next.mp h
  dsimp only at h
  split at h
  · rw [← Host.Outcome.next.inj h]
    exact State.endOfSubBlock_codeOnly _
  · obtain ⟨u, hu, h⟩ := andThen_eq_next.mp h
    have hc := acceptBits_codeOnly hu
    split at h <;> rw [← Host.Outcome.next.inj h]
    · exact hc
    · exact hc.trans u.endOfSubBlock_codeOnly

theorem CodeOnly.bytesIn_eq {s t : State} (h : CodeOnly s t) : t.bytesIn = s.bytesIn := by
  rw [h.frame]

theorem CodeOnly.env_eq {s t : State} (h : CodeOnly s t) : t.env = s.env := by
  rw [h.frame]

/-- An instruction a byte carries advances `bytes_in` by one and leaves the host's events. -/
theorem exec_byte_counts {b : Byte} {i : Instr} {s t : State} (henc : encode i = .event (.byte b))
    (h : exec i s = .next t) : t.bytesIn = s.bytesIn + 1 ∧ t.env = s.env := by
  cases i with
  | sbTerm | sbLen n | sbSkipTerm | sbSkipLen n =>
    obtain ⟨-, h⟩ := guarded_eq_next.mp h
    obtain rfl := Host.Outcome.next.inj h
    exact ⟨rfl, rfl⟩
  | sbData b =>
    have hc := execSbData_eq_next h
    exact ⟨hc.bytesIn_eq, hc.env_eq⟩
  | sbSkipData b =>
    obtain ⟨-, h⟩ := guarded_eq_next.mp h
    split at h <;> obtain rfl := Host.Outcome.next.inj h <;> exact ⟨rfl, rfl⟩
  | _ => cases henc

/-- In a reading state the next byte is taken (R55). -/
theorem State.takeEvent_byte {s : State} {b : Byte} {rest : List HostEvent} (hready : s.inReady = true)
    (henv : s.env = .port (.byte b) :: rest) :
    s.takeEvent = some (.port (.byte b), { s with env := rest }) := by
  simp [State.takeEvent, henv, pickEvent, hready]

/-- Settles O22: the byte is taken, and its token counts it. -/
theorem everyByteCounted : Obligations.EveryByteCounted := by
  unfold Obligations.EveryByteCounted
  intro s t b rest hready henv h
  have he := State.takeEvent_byte hready henv
  obtain ⟨i, hdec⟩ := State.takeEvent_decodes he
  rw [step_of_takeEvent he hdec] at h
  exact exec_byte_counts (decodeByte_roundTrip hdec).2.2 h

theorem State.storeReg_cursor (s : State) (d : Word) (r : Reg) : (s.storeReg d r).cursor = s.cursor := by
  cases r <;> rfl

theorem State.writeConfig_cursor (s : State) (r : Reg) (d : Word) :
    (s.writeConfig r d).cursor = s.cursor := by
  unfold State.writeConfig
  split
  · rfl
  · exact s.storeReg_cursor d r

theorem execHostWr_cursor {off : Nat} {d : Word} {s t : State} (hoff : off ≠ 2)
    (h : execHostWr off d s = .next t) : t.cursor = s.cursor := by
  rcases execHostWr_cases hoff d s with he | he | he | ⟨r, he⟩ <;> rw [he] at h <;>
    rw [← Host.Outcome.next.inj h]
  · exact s.writeStatus_cursor d
  · exact s.writeConfig_cursor r d

theorem execCmdStartImage_cursor {s t : State} (h : execCmdStartImage s = .next t) :
    t.cursor = s.cursor ∨ t.cursor = 0 := by
  rcases execCmdStartImage_cases s with he | ⟨code, info, -, he⟩ | ⟨-, -, -, -, -, he⟩ <;>
    rw [he] at h <;> rw [← Host.Outcome.next.inj h]
  · exact .inl rfl
  · exact .inl rfl
  · exact .inr rfl

/-- An instruction lowers the cursor only by setting it to 0, and only START_IMAGE and RESET do (R29). -/
theorem exec_cursor {i : Instr} {s t : State} (hwf : i.wellFormed = true) (h : exec i s = .next t) :
    s.cursor ≤ t.cursor ∨ (t.cursor = 0 ∧ (i = .cmdStartImage ∨ i = .cmdReset)) := by
  cases i with
  | cmdStartImage =>
    rcases execCmdStartImage_cursor h with hc | hc
    · exact .inl hc.ge
    · exact .inr ⟨hc, .inl rfl⟩
  | cmdReset =>
    obtain rfl := Host.Outcome.next.inj h
    exact .inr ⟨rfl, .inr rfl⟩
  | cmdNop | hostRd off =>
    obtain rfl := Host.Outcome.next.inj h
    exact .inl (Nat.le_refl _)
  | cmdStartSkip =>
    simp only [exec, execCmdStartSkip] at h
    split_ifs at h <;> obtain rfl := Host.Outcome.next.inj h <;> exact .inl (Nat.le_refl _)
  | cmdReserved cmd =>
    simp only [exec, execCmdReserved] at h
    split_ifs at h <;> obtain rfl := Host.Outcome.next.inj h <;> exact .inl (Nat.le_refl _)
  | hostWr off d => exact .inl (execHostWr_cursor (of_decide_eq_true hwf) h).ge
  | sbTerm | sbLen n | sbSkipTerm | sbSkipLen n =>
    obtain ⟨-, h⟩ := guarded_eq_next.mp h
    obtain rfl := Host.Outcome.next.inj h
    exact .inl (Nat.le_refl _)
  | sbData b => exact .inl (execSbData_eq_next h).cursor_le
  | sbSkipData b =>
    obtain ⟨-, h⟩ := guarded_eq_next.mp h
    split at h <;> obtain rfl := Host.Outcome.next.inj h <;> exact .inl (Nat.le_refl _)
  | inFail =>
    simp only [exec, execInFail] at h
    split at h <;> obtain rfl := Host.Outcome.next.inj h <;> exact .inl (Nat.le_refl _)
  | lzwEoi c | lzwClear c | lzwFirst c | lzwBadFirst c | lzwKnown c | lzwPending c | lzwBeyond c =>
    have hclass := (guarded_eq_next.mp h).1
    exact .inl (exec_codeOnly h rfl (decide_eq_true hclass)).cursor_le

/-- An event that brings a command is a write to CMD with the command's number (R70). -/
theorem event_of_decode_cmd {x : DecodeCtx} {p : PortEvent} {i : Instr} {cmd : BitVec 4}
    (hdec : decode x (.event p) = .ok i) (henc : encode i = encodeCmd cmd) :
    ∃ o d, p = .write o d ∧ regIndexOf x.windowBytes o = 2 ∧ cmdField d = cmd := by
  obtain ⟨-, -, -, hcleared⟩ := encodeOfDecode _ _ _ hdec
  rw [henc] at hcleared
  cases p with
  | write o d =>
    by_cases hidx : regIndexOf x.windowBytes o = 2
    · rw [← encodeCmd_cmdField_eq_cleared d hidx] at hcleared
      refine ⟨o, d, rfl, hidx, ?_⟩
      have hdata := (PortEvent.write.inj (Carrier.event.inj hcleared)).2
      rw [← cmdField_setWidth cmd, hdata, cmdField_setWidth]
    · have hoff := (PortEvent.write.inj (Carrier.event.inj hcleared)).1
      have hidx' : portOffset x.windowBytes o / 4 ≠ 2 := hidx
      omega
  | read o | byte b | fail => cases hcleared

/-- Settles O21, by the three things a step can do (`step_eq_next`). -/
theorem cursorOnlyGrows : Obligations.CursorOnlyGrows := by
  unfold Obligations.CursorOnlyGrows
  intro s t h hlt
  rcases step_eq_next h with ⟨-, rfl⟩ | ⟨s', he, rfl⟩ | ⟨p, s', i, he, hdec, hx⟩
  · exact absurd hlt (Nat.lt_irrefl _)
  · exact ⟨rfl, .reset, s', he, .inl rfl⟩
  · obtain ⟨rest, -, rfl⟩ := State.takeEvent_eq_some he
    rcases exec_cursor (decode_wellFormed _ _ hdec) hx with hle | ⟨hzero, hi⟩
    · exact absurd hlt (Nat.not_lt.mpr hle)
    refine ⟨hzero, .port p, _, he, .inr ?_⟩
    rcases hi with rfl | rfl
    · obtain ⟨o, d, rfl, hidx, hcmd⟩ := event_of_decode_cmd (cmd := 1) hdec rfl
      exact ⟨o, d, rfl, hidx, .inl hcmd⟩
    · obtain ⟨o, d, rfl, hidx, hcmd⟩ := event_of_decode_cmd (cmd := 3) hdec rfl
      exact ⟨o, d, rfl, hidx, .inr hcmd⟩

/-! ### The values a host reads (R32 to R50, R53) -/

/-- Settles O10: a reserved offset reads 0, and each register has its value of R53. -/
theorem resetRegisterValues : Obligations.ResetRegisterValues := by
  unfold Obligations.ResetRegisterValues
  intro off
  by_cases hreg : ∃ r : Reg, r.index = off
  · obtain ⟨r, rfl⟩ := hreg
    rw [State.readAt_index]
    cases r with
    | pal i =>
      have hi := i.isLt
      have hidx : (Reg.pal i).index = 256 + i.toNat := rfl
      rw [if_neg (by omega), if_pos (by omega)]
      simp [State.readReg, State.palEntry, State.reset, Rgba.toWord]
    | _ => rfl
  · have hres : ∀ r : Reg, r.index ≠ off := fun r hr => hreg ⟨r, hr⟩
    have hid : off ≠ 0 := (hres .id).symm
    have hpal : ¬ (256 ≤ off ∧ off < 512) := fun ⟨hlo, hhi⟩ =>
      hres (.pal (BitVec.ofNat 8 (off - 256))) (by simp [Reg.index]; omega)
    rw [State.readAt_reserved _ hres, if_neg hid, if_neg hpal]

/-- The number of a concatenation: its low part, and its high part at the place above. -/
theorem toNat_append_eq_add {m n : Nat} (x : BitVec m) (y : BitVec n) :
    (x ++ y).toNat = x.toNat * 2 ^ n + y.toNat := by
  rw [BitVec.toNat_append, ← Nat.shiftLeft_add_eq_or_of_lt y.isLt, Nat.shiftLeft_eq]

/-- The number of a palette word is the sum of its channels at their places (R50). -/
theorem Rgba.toWord_toNat (p : Rgba) : p.toWord.toNat =
    p.r.toNat + 2 ^ 8 * p.g.toNat + 2 ^ 16 * p.b.toNat + 2 ^ 24 * p.a.toNat := by
  simp only [Rgba.toWord, toNat_append_eq_add]
  omega

/-- The number of a STATUS word is the sum of its fields at their places (R35). -/
theorem State.statusWord_toNat (s : State) : s.statusWord.toNat =
    (Seq.bits s.seq).toNat + 8 * s.inReady.toNat + 16 * s.irqPend.toNat + 32 * s.eoiFlag.toNat +
      64 * s.oldValid.toNat := by
  simp only [State.statusWord, toNat_append_eq_add, BitVec.toNat_ofBool, BitVec.toNat_ofNat]
  omega

theorem toNat_setWidth_ofBool (b : Bool) : ((BitVec.ofBool b).setWidth 32).toNat = b.toNat := by
  cases b <;> rfl

/-- Settles O33: each word's number is the sum of its fields at their places. -/
theorem registerReadFields : Obligations.RegisterReadFields := by
  unfold Obligations.RegisterReadFields
  intro s
  refine ⟨rfl, rfl, ?_, ?_, rfl, ?_, rfl, ?_, ?_, ?_, ?_, fun i => Rgba.toWord_toNat _⟩
  · rw [State.readReg, State.statusWord_toNat, State.inReady]
    cases s.seq <;> rfl
  · rw [State.readReg]
    cases s.errCode <;> rfl
  · rw [State.readReg, BitVec.toNat_ofNat]
    omega
  · simp only [State.readReg, toNat_append_eq_add, BitVec.toNat_ofNat]
    omega
  · simp only [State.readReg, toNat_append_eq_add, BitVec.toNat_ofNat]
    omega
  · exact BitVec.toNat_setWidth_of_le (by decide)
  · exact BitVec.toNat_setWidth_of_le (by decide)

/-- Settles O34: each register is its field, widened to a word; a palette channel is the byte at its place. -/
theorem configReadFields : Obligations.ConfigReadFields := by
  unfold Obligations.ConfigReadFields
  intro s
  have hwiden : ∀ {n : Nat} (x : BitVec n), n ≤ 32 → (x.setWidth 32).toNat = x.toNat :=
    fun _ hn => BitVec.toNat_setWidth_of_le hn
  refine ⟨toNat_setWidth_ofBool _, rfl, hwiden _ (by decide), hwiden _ (by decide), hwiden _ (by decide),
    hwiden _ (by decide), hwiden _ (by decide), toNat_setWidth_ofBool _, hwiden _ (by decide),
    hwiden _ (by decide), rfl, toNat_setWidth_ofBool _, hwiden _ (by decide), fun i => ?_⟩
  have hword := Rgba.toWord_toNat (s.palEntry i)
  simp only [State.readReg, State.palEntry] at hword ⊢
  omega

/-! ### The assembly of codes (R75, R90) -/

/-- The number that bits stand for, the first at place `k` (R75). -/
def bitsValue (k : Nat) (bits : List Bool) : Nat :=
  ((List.range bits.length).map fun i => (bits.getD i false).toNat * 2 ^ (k + i)).sum

theorem bitsValue_cons (k : Nat) (b : Bool) (bits : List Bool) :
    bitsValue k (b :: bits) = b.toNat * 2 ^ k + bitsValue (k + 1) bits := by
  simp [bitsValue, List.range_succ_eq_map, List.map_map, Function.comp_def, Nat.add_assoc, Nat.add_comm 1]

@[simp] theorem bitsValue_nil (k : Nat) : bitsValue k [] = 0 := rfl

/-- The state with `n` bits of the number `v` in the accumulator (R25). -/
def State.waiting (s : State) (v n : Nat) : State :=
  { s with pendVal := BitVec.ofNat 12 v, pendCnt := BitVec.ofNat 4 n }

theorem State.waiting_self (s : State) : s.waiting s.pendVal.toNat s.pendCnt.toNat = s := by
  simp [State.waiting]

/-- A new bit takes the place above the bits that wait. -/
theorem pend_push_ofNat (v n : Nat) (b : Bool) :
    BitVec.ofNat 12 v + ((BitVec.ofBool b).setWidth 12 <<< n) = BitVec.ofNat 12 (v + b.toNat * 2 ^ n) := by
  apply BitVec.eq_of_toNat_eq
  cases b <;> simp [BitVec.toNat_add, BitVec.toNat_shiftLeft, Nat.shiftLeft_eq]

/-- One bit joins those that wait; one that fills the width makes them a code (R90). -/
theorem State.acceptBit_waiting {s : State} {n : Nat} (hn : n < s.width.toNat) (v : Nat) (b : Bool) :
    (s.waiting v n).acceptBit b =
      if n + 1 = s.width.toNat then
        processCode (BitVec.ofNat 12 (v + b.toNat * 2 ^ n)) { s with pendVal := 0, pendCnt := 0 }
      else .next (s.waiting (v + b.toNat * 2 ^ n) (n + 1)) := by
  have hwidth := s.width.isLt
  have hcnt : (BitVec.ofNat 4 n).toNat = n := Nat.mod_eq_of_lt (by omega)
  have hsucc : BitVec.ofNat 4 n + 1 = BitVec.ofNat 4 (n + 1) := (BitVec.ofNat_add n 1).symm
  have hfull : BitVec.ofNat 4 (n + 1) = s.width ↔ n + 1 = s.width.toNat := by
    rw [← BitVec.toNat_inj, BitVec.toNat_ofNat, Nat.mod_eq_of_lt (by omega)]
  simp only [State.acceptBit, State.waiting, hcnt, pend_push_ofNat, hsucc, hfull]

/-- While neither EOI nor an error stops them, bits are accepted in turn, whatever waits. -/
theorem acceptBits_cons_waiting {s : State} (heoi : s.eoiFlag = false) (hseq : s.seq ≠ .error) (b : Bool)
    (bs : List Bool) (v n : Nat) :
    acceptBits (b :: bs) (s.waiting v n) = andThen ((s.waiting v n).acceptBit b) (acceptBits bs) := by
  rw [acceptBits, if_neg (by simp [State.waiting, heoi, hseq])]

/-- Bits that do not fill the width wait. -/
theorem acceptBits_waiting {s : State} (heoi : s.eoiFlag = false) (hseq : s.seq ≠ .error)
    (bits : List Bool) {v n : Nat} (hlt : n + bits.length < s.width.toNat) :
    acceptBits bits (s.waiting v n) = .next (s.waiting (v + bitsValue n bits) (n + bits.length)) := by
  induction bits generalizing v n with
  | nil => rfl
  | cons b bs ih =>
    rw [List.length_cons] at hlt
    rw [acceptBits_cons_waiting heoi hseq, State.acceptBit_waiting (by omega), if_neg (by omega),
      andThen_next, ih (by omega), bitsValue_cons, List.length_cons]
    congr 2 <;> omega

/-- Bits that fill the width are a code, processed from an empty accumulator. -/
theorem acceptBits_fill {s : State} (heoi : s.eoiFlag = false) (hseq : s.seq ≠ .error)
    (bits : List Bool) {v n : Nat} (hlt : n < s.width.toNat) (hfill : n + bits.length = s.width.toNat) :
    acceptBits bits (s.waiting v n) =
      processCode (BitVec.ofNat 12 (v + bitsValue n bits)) { s with pendVal := 0, pendCnt := 0 } := by
  induction bits generalizing v n with
  | nil => exact absurd hfill (by simp; omega)
  | cons b bs ih =>
    rw [List.length_cons] at hfill
    rw [acceptBits_cons_waiting heoi hseq, State.acceptBit_waiting hlt, bitsValue_cons, ← Nat.add_assoc]
    split
    · rename_i hlast
      obtain rfl : bs = [] := List.length_eq_zero_iff.mp (by omega)
      exact andThen_pure _
    · rw [andThen_next]
      exact ih (by omega) (by omega)

/-- Settles O42, by induction on the bits, from any accumulator; the last clause is `acceptBits_append`. -/
theorem codeAssembly : Obligations.CodeAssembly := by
  unfold Obligations.CodeAssembly
  refine ⟨fun b => rfl, fun s bits hcnt _ heoi hseq => ⟨fun hlt => ?_, fun hfill => ?_⟩,
    acceptBits_append⟩
  · have h := acceptBits_waiting heoi hseq bits (v := s.pendVal.toNat) hlt
    rwa [State.waiting_self] at h
  · have h := acceptBits_fill heoi hseq bits (v := s.pendVal.toNat) hcnt hfill
    rwa [State.waiting_self] at h

end Sys2Proof.Machine

/-! # The canvas, the byte port and the refusal

The statements of the family 20_memory: O3, O8, O14, O16, O52. -/

namespace Sys2Proof.Machine

/-! ### Where canvas bytes change (R56, R115) -/

theorem State.storeReg_canvas (s : State) (d : Word) (r : Reg) : (s.storeReg d r).canvas = s.canvas := by
  cases r <;> rfl

theorem State.writeConfig_canvas (s : State) (r : Reg) (d : Word) :
    (s.writeConfig r d).canvas = s.canvas := by
  unfold State.writeConfig
  split
  · rfl
  · exact s.storeReg_canvas d r

theorem execHostWr_canvas {off : Nat} {d : Word} {s t : State} (hoff : off ≠ 2)
    (h : execHostWr off d s = .next t) : t.canvas = s.canvas := by
  rcases execHostWr_cases hoff d s with he | he | he | ⟨r, he⟩ <;> rw [he] at h <;>
    rw [← Host.Outcome.next.inj h]
  · exact s.writeStatus_canvas d
  · exact s.writeConfig_canvas r d

theorem execCmdStartImage_canvas {s t : State} (h : execCmdStartImage s = .next t) :
    t.canvas = s.canvas := by
  rcases execCmdStartImage_cases s with he | ⟨code, info, -, he⟩ | ⟨-, -, -, -, -, he⟩ <;>
    rw [he] at h <;> rw [← Host.Outcome.next.inj h]
  · exact s.raiseError_canvas code info
  · exact s.startImage_canvas

/-- An instruction an event carries leaves the canvas as it is, or is SB.DATA in DATA. -/
theorem exec_event_canvas {i : Instr} {s t : State} {e : PortEvent} (hwf : i.wellFormed = true)
    (henc : encode i = .event e) (h : exec i s = .next t) :
    t.canvas = s.canvas ∨ (s.seq = .data ∧ CodeOnly s.countPayload t) := by
  cases i with
  | sbData b => exact .inr ⟨(guarded_eq_next.mp h).1, execSbData_eq_next h⟩
  | cmdNop | cmdReset | hostRd off =>
    obtain rfl := Host.Outcome.next.inj h
    exact .inl rfl
  | cmdStartImage => exact .inl (execCmdStartImage_canvas h)
  | cmdStartSkip | cmdReserved cmd | inFail =>
    simp only [exec, execCmdStartSkip, execCmdReserved, execInFail] at h
    split_ifs at h <;> obtain rfl := Host.Outcome.next.inj h <;> exact .inl rfl
  | hostWr off d => exact .inl (execHostWr_canvas (of_decide_eq_true hwf) h)
  | sbTerm | sbLen n | sbSkipTerm | sbSkipLen n =>
    obtain ⟨-, h⟩ := guarded_eq_next.mp h
    obtain rfl := Host.Outcome.next.inj h
    exact .inl rfl
  | sbSkipData b =>
    obtain ⟨-, h⟩ := guarded_eq_next.mp h
    split at h <;> obtain rfl := Host.Outcome.next.inj h <;> exact .inl rfl
  | lzwEoi c | lzwClear c | lzwFirst c | lzwBadFirst c | lzwKnown c | lzwPending c | lzwBeyond c => cases henc

/-- Everything a step can do to the canvas: leave it, or take a payload byte in DATA. -/
theorem step_canvas {s t : State} (h : step s = .next t) :
    t.canvas = s.canvas ∨
      (s.seq = .data ∧ ∃ rest, CodeOnly ({ s with env := rest } : State).countPayload t) := by
  rcases step_eq_next h with ⟨-, rfl⟩ | ⟨s', he, rfl⟩ | ⟨p, s', i, he, hdec, hx⟩
  · exact .inl rfl
  · obtain ⟨rest, -, rfl⟩ := State.takeEvent_eq_some he
    exact .inl rfl
  · obtain ⟨rest, -, rfl⟩ := State.takeEvent_eq_some he
    obtain ⟨hwf, -, -, henc⟩ := encodeOfDecode _ _ _ hdec
    exact (exec_event_canvas hwf henc hx).imp_right fun ⟨hseq, hc⟩ => ⟨hseq, rest, hc⟩

/-- Settles O16: only a payload byte paints (`step_canvas`), and `CodeOnly.outside` bounds what it paints. -/
theorem canvasWritesConfined : Obligations.CanvasWritesConfined := by
  unfold Obligations.CanvasWritesConfined
  intro s t a _ h hne
  rcases step_canvas h with hc | ⟨hseq, rest, hc⟩
  · exact absurd (by rw [hc]) hne
  · refine ⟨hseq, ?_⟩
    by_contra hin
    have hout : a < s.canvasBase.toNat ∨ s.canvasEnd ≤ a := by
      unfold State.canvasEnd State.bpp
      omega
    exact hne (hc.outside a hout)

/-! ### The byte port while `in_ready` = 0 (R55, R148) -/

/-- An event of the byte port: a failure or a byte (R55). -/
def OnBytePort (e : HostEvent) : Prop :=
  e = .port .fail ∨ ∃ c, e = .port (.byte c)

/-- Behind a byte that stays, the events of the byte port stay in their order. -/
theorem pickEvent_held_append {bs : List HostEvent} (hbs : ∀ e ∈ bs, OnBytePort e)
    (ready : Bool) (es : List HostEvent) :
    pickEvent ready true (bs ++ es) = (pickEvent ready true es).map fun x => (x.1, bs ++ x.2) := by
  induction bs with
  | nil => simp
  | cons e bs ih =>
    obtain ⟨he, htail⟩ := List.forall_mem_cons.mp hbs
    rcases he with rfl | ⟨c, rfl⟩ <;> simp [pickEvent, ih htail, Function.comp_def]

/-- A byte the block is not ready for stays ahead, and so do the events of the byte port behind it. -/
theorem State.takeEvent_of_not_inReady {s : State} {b : Byte} {bs es : List HostEvent}
    (hready : s.inReady = false) (henv : s.env = .port (.byte b) :: (bs ++ es))
    (hbs : ∀ e ∈ bs, OnBytePort e) :
    s.takeEvent = (pickEvent false true es).map fun x =>
      (x.1, { s with env := .port (.byte b) :: (bs ++ x.2) }) := by
  simp [State.takeEvent, hready, henv, pickEvent, pickEvent_held_append hbs, Function.comp_def]

/-- Settles O8, by what the block can take when it is not ready for a byte (`takeEvent_of_not_inReady`). -/
theorem unacceptedByteStays : Obligations.UnacceptedByteStays := by
  unfold Obligations.UnacceptedByteStays
  refine ⟨fun s b bs hready henv hbs => ?_, fun s b bs rest e hready henv hbs he => ?_,
    fun s b rest hready henv => ?_⟩
  · rw [← List.append_nil bs] at henv
    have hnone : s.takeEvent = none := State.takeEvent_of_not_inReady hready henv hbs
    simp only [step, hnone]
  · have hpick : pickEvent false true (e :: rest) = some (e, rest) := by
      rcases he with rfl | ⟨o, rfl⟩ | ⟨o, d, rfl⟩ <;> rfl
    have htake := State.takeEvent_of_not_inReady hready henv hbs
    rw [hpick] at htake
    simp only [step, htake, Option.map_some]
  · have htake := State.takeEvent_byte hready henv
    obtain ⟨i, hdec⟩ := State.takeEvent_decodes htake
    exact ⟨i, hdec, step_of_takeEvent htake hdec⟩

/-! ### What is refused (R55, R76, R78) -/

/-- An instruction whose row asks a state or a class the block is not in is refused. -/
theorem exec_of_not_selectedIn {i : Instr} {s : State} (h : i.selectedIn s.ctx = false) :
    exec i s = .refused .notSelected := by
  cases i with
  | sbTerm | sbData b | sbSkipTerm | sbSkipData b
  | lzwEoi c | lzwClear c | lzwFirst c | lzwBadFirst c | lzwKnown c | lzwPending c | lzwBeyond c =>
    exact if_neg (of_decide_eq_false h)
  | sbLen n | sbSkipLen n => exact if_neg fun hc => of_decide_eq_false h hc.1
  | _ => cases h

/-- An outcome is not a refusal. -/
def Unrefused (r : Result) : Prop := ∀ x, r ≠ .refused x

@[simp] theorem unrefused_next (s : State) : Unrefused (.next s) := nofun

@[simp] theorem unrefused_fault (f : Fault) : Unrefused (.fault f) := nofun

/-- A sequence is refused only where one of its parts is. -/
theorem Unrefused.andThen {r : Result} {k : State → Result} (hr : Unrefused r)
    (hk : ∀ s, Unrefused (k s)) : Unrefused (andThen r k) := by
  cases r with
  | next s => exact hk s
  | fault f => exact unrefused_fault f
  | refused x => exact absurd rfl (hr x)

theorem State.canvasWrite_unrefused (s : State) (a : Nat) (v : Byte) :
    Unrefused (s.canvasWrite a v) := by
  unfold State.canvasWrite
  split <;> simp

theorem State.writePixel_unrefused (s : State) (x y : Nat) (p : Rgba) :
    Unrefused (s.writePixel x y p) := by
  refine (s.canvasWrite_unrefused _ _).andThen fun s1 =>
    (s1.canvasWrite_unrefused _ _).andThen fun s2 =>
    (s2.canvasWrite_unrefused _ _).andThen fun s3 => ?_
  split
  · exact s3.canvasWrite_unrefused _ _
  · exact unrefused_next s3

theorem State.pixelOut_unrefused (s : State) (k : Nat) (v : Symbol) : Unrefused (s.pixelOut k v) := by
  unfold State.pixelOut State.mapPixel State.clip State.colorWrite
  split_ifs
  · exact unrefused_next s
  · exact unrefused_next s
  · exact unrefused_next s
  · exact s.writePixel_unrefused _ _ _

theorem State.emitFrom_unrefused (x : Code) (off : Nat) (s : State) : Unrefused (s.emitFrom x off) := by
  induction off generalizing x s with
  | zero =>
    unfold State.emitFrom
    split
    · exact unrefused_fault _
    · exact (s.pixelOut_unrefused _ _).andThen unrefused_next
  | succ off ih =>
    unfold State.emitFrom
    split
    · exact unrefused_fault _
    · exact (s.pixelOut_unrefused _ _).andThen fun s1 => ih _ s1

theorem State.emit_unrefused (s : State) (e : Code) : Unrefused (s.emit e) := by
  unfold State.emit
  split
  · exact unrefused_fault _
  · exact (s.emitFrom_unrefused _ _).andThen fun _ => unrefused_next _

theorem State.insert_unrefused (s : State) (p : Code) (v : Symbol) : Unrefused (s.insert p v) := by
  unfold State.insert
  split
  · split <;> simp
  · exact unrefused_next s

theorem State.insertFirstcharOf_unrefused (s : State) (p c : Code) :
    Unrefused (s.insertFirstcharOf p c) := by
  unfold State.insertFirstcharOf
  split
  · exact unrefused_fault _
  · exact s.insert_unrefused _ _

/-- A guarded meaning is not refused where its guard holds, if its body is not. -/
theorem Unrefused.guarded {p : Prop} [Decidable p] {r : Result} {x : Refusal} (hp : p)
    (hr : Unrefused r) : Unrefused (if p then r else .refused x) := by
  rwa [if_pos hp]

/-- A code's own rule never refuses it (R98). -/
theorem processCode_unrefused (c : Code) (s : State) : Unrefused (processCode c s) := by
  unfold processCode
  split <;> rename_i hclass <;> refine Unrefused.guarded hclass ?_
  case h_1 | h_2 | h_4 | h_7 => exact unrefused_next _
  case h_3 => exact (s.emit_unrefused c).andThen fun _ => unrefused_next _
  case h_5 =>
    exact (s.emit_unrefused c).andThen fun s1 =>
      (s1.insertFirstcharOf_unrefused _ _).andThen fun _ => unrefused_next _
  case h_6 =>
    exact (s.insertFirstcharOf_unrefused _ _).andThen fun s1 =>
      (s1.emit_unrefused c).andThen fun _ => unrefused_next _

theorem State.acceptBit_unrefused (s : State) (b : Bool) : Unrefused (s.acceptBit b) := by
  unfold State.acceptBit
  dsimp only
  split
  · exact processCode_unrefused _ _
  · exact unrefused_next _

theorem acceptBits_unrefused (bs : List Bool) (s : State) : Unrefused (acceptBits bs s) := by
  induction bs generalizing s with
  | nil => exact unrefused_next s
  | cons b bs ih =>
    unfold acceptBits
    split
    · exact unrefused_next s
    · exact (s.acceptBit_unrefused b).andThen ih

theorem execSbData_unrefused {s : State} (hs : s.seq = .data) (b : Byte) :
    Unrefused (execSbData b s) := by
  refine Unrefused.guarded hs ?_
  dsimp only
  split
  · exact unrefused_next _
  · refine (acceptBits_unrefused _ _).andThen fun u => ?_
    split <;> exact unrefused_next _

/-- A well-formed instruction that the state selects is not refused, whatever the state. -/
theorem exec_unrefused {i : Instr} {s : State} (hwf : i.wellFormed = true)
    (hsel : i.selectedIn s.ctx = true) : Unrefused (exec i s) := by
  cases i with
  | cmdNop | cmdReset | hostRd off => exact unrefused_next _
  | cmdStartImage | cmdStartSkip | inFail =>
    simp only [exec, execCmdStartImage, execCmdStartSkip, execInFail]
    split_ifs <;> exact unrefused_next _
  | cmdReserved cmd =>
    have hcmd : ¬ cmd.toNat < 4 := Nat.not_lt.mpr (of_decide_eq_true hwf)
    simp only [exec, execCmdReserved, if_neg hcmd]
    split <;> exact unrefused_next _
  | hostWr off d =>
    rcases execHostWr_cases (of_decide_eq_true hwf) d s with he | he | he | ⟨r, he⟩ <;>
      simp only [exec, he, unrefused_next]
  | sbTerm | sbSkipTerm => exact Unrefused.guarded (of_decide_eq_true hsel) (unrefused_next _)
  | sbLen n | sbSkipLen n =>
    exact Unrefused.guarded ⟨of_decide_eq_true hsel, of_decide_eq_true hwf⟩ (unrefused_next _)
  | sbData b => exact execSbData_unrefused (of_decide_eq_true hsel) b
  | sbSkipData b =>
    refine Unrefused.guarded (of_decide_eq_true hsel) ?_
    split <;> exact unrefused_next _
  | lzwEoi c | lzwClear c | lzwFirst c | lzwBadFirst c | lzwKnown c | lzwPending c | lzwBeyond c =>
    rw [exec_eq_processCode rfl hsel]
    exact processCode_unrefused c s

/-- Settles O14, by `exec_of_not_selectedIn` and `exec_unrefused`. -/
theorem refusedExactlyWhenNotSelected : Obligations.RefusedExactlyWhenNotSelected := by
  unfold Obligations.RefusedExactlyWhenNotSelected
  exact ⟨fun _ _ => exec_of_not_selectedIn, fun _ _ x hwf hsel => exec_unrefused hwf hsel x⟩

/-! ### Where a pixel goes (R111 to R115) -/

/-- A pixel at or beyond `W * H` is dropped (R111). -/
theorem State.pixelOut_beyond {s : State} {k : Nat} (v : Symbol)
    (h : s.imgWidth.toNat * s.imgHeight.toNat ≤ k) : s.pixelOut k v = .next s :=
  if_pos h

/-- A pixel of the image is dropped off the screen or outside the palette, and else is written (R112 to R114). -/
theorem State.pixelOut_of_lt {s : State} {k : Nat} (v : Symbol)
    (h : k < s.imgWidth.toNat * s.imgHeight.toNat) :
    let x := s.imgLeft.toNat + k % s.imgWidth.toNat
    let y := s.imgTop.toNat + (s.rowEntry (k / s.imgWidth.toNat)).toNat
    s.pixelOut k v =
      if s.screenWidth.toNat ≤ x ∨ s.screenHeight.toNat ≤ y ∨ s.palSize ≤ v.toNat then .next s
      else s.writePixel x y (s.palEntry (v.setWidth 8)) := by
  simp only [State.pixelOut, if_neg (Nat.not_le.mpr h), State.mapPixel, State.clip, State.colorWrite,
    ← or_assoc, ite_or]

theorem State.bpp_of_rgba {s : State} (h : s.fmtRgba = true) : s.bpp = 4 :=
  if_pos h

theorem State.three_le_bpp (s : State) : 3 ≤ s.bpp := by
  unfold State.bpp
  split <;> decide

/-- A pixel on the screen of a canvas that fits: its channels are written from its address up, and no other byte
changes (R56, R115). -/
theorem State.writePixel_onScreen {s : State} {x y : Nat} (hx : x < s.screenWidth.toNat)
    (hy : y < s.screenHeight.toNat) (hfit : s.canvasEnd ≤ 2 ^ s.params.addrBits) (p : Rgba) :
    let base := s.pixelAddr x y
    ∃ m, s.writePixel x y p = .next { s with canvas := m } ∧
      Memory.read m base = some p.r ∧ Memory.read m (base + 1) = some p.g ∧
      Memory.read m (base + 2) = some p.b ∧
      (s.fmtRgba = true → Memory.read m (base + 3) = some p.a) ∧
      ∀ a, a < base ∨ base + s.bpp ≤ a → Memory.read m a = Memory.read s.canvas a := by
  refine ⟨paintPixel s.canvas (s.pixelAddr x y) s.fmtRgba p,
    State.writePixel_of_fits p ((State.pixelAddr_end hx hy).trans hfit), ?_, ?_, ?_, fun hrgba => ?_,
    fun a ha => ?_⟩ <;> rw [read_paintPixel]
  · simp
  · simp
  · simp
  · simp [hrgba]
  · have hbpp := s.three_le_bpp
    rw [if_neg (by omega), if_neg (by omega), if_neg (by omega), if_neg]
    rintro ⟨hrgba, hlast⟩
    rw [State.bpp_of_rgba hrgba] at ha
    omega

/-- Settles O52: `pixelOut_of_lt` says where the pixel goes, `writePixel_onScreen` what it writes. -/
theorem pixelPlacement : Obligations.PixelPlacement := by
  unfold Obligations.PixelPlacement
  intro s k v
  refine ⟨State.pixelOut_beyond v, fun hk hfit => ?_⟩
  have hplace := State.pixelOut_of_lt v hk
  dsimp only
  split <;> rename_i hdrop
  · exact hplace.trans (if_pos hdrop)
  · obtain ⟨hx, hin⟩ := not_or.mp hdrop
    obtain ⟨m, hm, hbytes⟩ := State.writePixel_onScreen (Nat.not_le.mp hx)
      (Nat.not_le.mp (not_or.mp hin).1) hfit (s.palEntry (v.setWidth 8))
    exact ⟨m, (hplace.trans (if_neg hdrop)).trans hm, hbytes⟩

/-! ### Written-out words (R54, R70 to R76) -/

/-- Settles O3, by evaluating the decoder on each word. -/
theorem sampleWordsDecode : Obligations.SampleWordsDecode := by
  unfold Obligations.SampleWordsDecode
  decide

end Sys2Proof.Machine

/-! # The code map and the table words

The statements of the family 30_encoding: O4, O7. -/

namespace Sys2Proof.Machine

/-! ### The code map and its consequences (R76) -/

/-- While nothing has been inserted (R97, R101), the defined indexes are the roots. -/
theorem State.StreamInv.root_of_first {s : State} {c : Code} (h : s.StreamInv)
    (hc : s.classOf c = .first) : c.toNat < 2 ^ s.root.toNat := by
  obtain ⟨hold, hlt, hclear, heoi⟩ := State.classOf_eq_first.mp hc
  have hct : s.ctUsed.toNat = 2 ^ s.root.toNat + 2 := h.ct_first hold
  unfold eoiCodeOf at heoi
  unfold clearCodeOf at hclear heoi
  omega

/-- Every code is below a full dictionary's `ct_used`, so none is BAD_FIRST, PENDING or BEYOND. -/
theorem classify_of_full {x : DecodeCtx} (hfull : x.ctUsed.toNat = 4096) (c : Code) :
    classify x c = .eoi ∨ classify x c = .clear ∨ classify x c = .first ∨ classify x c = .known := by
  have hlt : c.toNat < x.ctUsed.toNat := hfull ▸ c.isLt
  cases hc : classify x c with
  | eoi | clear | first | known => simp
  | badFirst =>
    obtain ⟨-, hge, -⟩ := (classify_eq_badFirst x c).mp hc
    omega
  | pending =>
    obtain ⟨-, heq, -⟩ := (classify_eq_pending x c).mp hc
    omega
  | beyond =>
    obtain ⟨-, hgt, -⟩ := (classify_eq_beyond x c).mp hc
    omega

/-- CLEAR comes after EOI in the table, and no code meets both conditions. -/
theorem classify_eq_clear_after_eoi (x : DecodeCtx) (c : Code) :
    classify x c = .clear ↔ ¬ c.toNat = 2 ^ x.root.toNat + 1 ∧ c.toNat = 2 ^ x.root.toNat := by
  rw [classify_eq_clear]
  unfold clearCodeOf
  omega

/-- A row below EOI and CLEAR, its conditions in the order of the table. -/
theorem conditions_iff_table_order (x : DecodeCtx) (c : Code) (old row : Prop) :
    (old ∧ row ∧ c.toNat ≠ clearCodeOf x.root ∧ c.toNat ≠ eoiCodeOf x.root) ↔
      (¬ c.toNat = 2 ^ x.root.toNat + 1 ∧ ¬ c.toNat = 2 ^ x.root.toNat ∧ old ∧ row) := by
  unfold eoiCodeOf clearCodeOf
  tauto

/-- Settles O4: the model's law of each class (`classify_eq_eoi` and the six after it), its conditions in the
order of the table. -/
theorem codeMapFirstRow : Obligations.CodeMapFirstRow := by
  unfold Obligations.CodeMapFirstRow
  refine ⟨fun x c => ⟨classify_eq_eoi x c, classify_eq_clear_after_eoi x c, ?_, ?_, ?_, ?_, ?_⟩,
    fun s c h hc => h.root_of_first hc, fun x c hfull => classify_of_full hfull c⟩
  · exact (classify_eq_first x c).trans (conditions_iff_table_order x c _ _)
  · exact (classify_eq_badFirst x c).trans (conditions_iff_table_order x c _ _)
  · exact (classify_eq_known x c).trans (conditions_iff_table_order x c _ _)
  · exact (classify_eq_pending x c).trans (conditions_iff_table_order x c _ _)
  · exact (classify_eq_beyond x c).trans (conditions_iff_table_order x c _ _)

/-! ### Table words (log entry 6) -/

/-- What a table word can stand for: a byte exactly when it has 8 bits, else a failure event or a register
access at an offset of 12 bits. -/
theorem eventOfTableWord_eq_some {nbits w : Nat} {p : PortEvent} (h : eventOfTableWord nbits w = some p) :
    (nbits = 8 ∧ ∃ b, p = .byte b) ∨
    (nbits ≠ 8 ∧ (p = .fail ∨ ∃ o < 4096, p = .read o ∨ ∃ d, p = .write o d)) := by
  have hoffset : w % 2 ^ 12 < 4096 := Nat.mod_lt w (by decide)
  unfold eventOfTableWord at h
  split at h
  · exact .inr ⟨by decide, .inl (Option.some.inj h).symm⟩
  · exact .inl ⟨rfl, _, (Option.some.inj h).symm⟩
  · exact .inr ⟨by decide, .inr ⟨_, hoffset, .inl (Option.some.inj h).symm⟩⟩
  · exact .inr ⟨by decide, .inr ⟨0x008, by decide, .inr ⟨_, (Option.some.inj h).symm⟩⟩⟩
  · exact .inr ⟨by decide, .inr ⟨_, hoffset, .inr ⟨_, (Option.some.inj h).symm⟩⟩⟩
  · cases h

theorem decodeTableWord_eq_some {nbits w : Nat} {i : Instr} (h : decodeTableWord nbits w = some i) :
    ∃ p, eventOfTableWord nbits w = some p ∧ decodeEvent tableCtx p = .ok i := by
  unfold decodeTableWord at h
  split at h
  · cases h
  · rename_i p hp
    split at h
    · rename_i j hj
      exact ⟨p, hp, hj.trans (congrArg _ (Option.some.inj h))⟩
    · cases h

/-- An offset of 12 bits lies in every window that has at least 4096 bytes. -/
theorem regIndexOf_of_lt {windowBytes o : Nat} (hwin : 4096 ≤ windowBytes) (ho : o < 4096) :
    regIndexOf windowBytes o = o / 4 := by
  unfold regIndexOf portOffset
  rw [Nat.mod_eq_of_lt (lt_max_of_lt_right (ho.trans_le hwin))]

/-- A table word's event decodes on every part with its 12 offset bits as the table reads it, a byte in LEN. -/
theorem decodeEvent_eq_tableCtx {nbits w : Nat} {p : PortEvent} {x : DecodeCtx}
    (hp : eventOfTableWord nbits w = some p) (hwin : 4096 ≤ x.windowBytes)
    (hseq : nbits = 8 → x.seq = .len) : decodeEvent x p = decodeEvent tableCtx p := by
  have hindex : ∀ o < 4096, regIndexOf x.windowBytes o = regIndexOf tableCtx.windowBytes o :=
    fun o ho => (regIndexOf_of_lt hwin ho).trans (regIndexOf_of_lt le_rfl ho).symm
  rcases eventOfTableWord_eq_some hp with ⟨hbits, b, rfl⟩ | ⟨-, rfl | ⟨o, ho, rfl | ⟨d, rfl⟩⟩⟩
  · simp only [decodeEvent, decodeByte, hseq hbits, tableCtx]
  · rfl
  · simp only [decodeEvent, hindex o ho]
  · simp only [decodeEvent, hindex o ho]

@[simp] theorem State.offer_env (s : State) (p : PortEvent) : (s.offer p).env = .port p :: s.env := by
  cases p <;> rfl

/-- Offering a table word's event puts it ahead of the host's events and, for a byte, the block in LEN. -/
theorem State.offer_tableWord {nbits w : Nat} {p : PortEvent} (hp : eventOfTableWord nbits w = some p)
    (s : State) : { s.offer p with env := s.env } = if nbits = 8 then { s with seq := .len } else s := by
  rcases eventOfTableWord_eq_some hp with ⟨hbits, b, rfl⟩ | ⟨hbits, hport⟩
  · rw [if_pos hbits]
    rfl
  · rw [if_neg hbits]
    rcases hport with rfl | ⟨o, -, rfl | ⟨d, rfl⟩⟩ <;> rfl

/-- Settles O7: the word's event is offered as the first one, decodes there as in the table
(`decodeEvent_eq_tableCtx`), and is taken by the step (`stepRunsDecodedInstruction`). -/
theorem tableWordRunsNext : Obligations.TableWordRunsNext := by
  unfold Obligations.TableWordRunsNext
  intro s nbits w i hwin hdec
  obtain ⟨p, hp, hi⟩ := decodeTableWord_eq_some hdec
  have hfetch : s.withFetchWord nbits w = s.offer p := by simp only [State.withFetchWord, hp]
  have hctx : (s.offer p).ctx = (if nbits = 8 then { s with seq := .len } else s : State).ctx := by
    rw [← State.offer_tableWord hp]
    rfl
  have hread : decode (s.offer p).ctx (.event p) = .ok i := by
    refine (decodeEvent_eq_tableCtx hp ?_ fun hbits => ?_).trans hi
    · rw [hctx]
      split <;> exact hwin
    · rw [hctx, if_pos hbits]
      rfl
  rw [hfetch, stepRunsDecodedInstruction _ p s.env i (s.offer_env p) hread, State.offer_tableWord hp]

end Sys2Proof.Machine

/-! # The sub-block reader

The statements of the family 40_subblock_reader: O37 to O41. -/

namespace Sys2Proof.Machine

/-! ### Which states read, and the token a byte is there (R16, R72, R73) -/

theorem State.inReady_iff (s : State) :
    s.inReady = true ↔ s.seq = .len ∨ s.seq = .data ∨ s.seq = .skipLen ∨ s.seq = .skipData := by
  unfold State.inReady
  cases s.seq <;> decide

theorem State.decode_byte_of_len {s : State} (hs : s.seq = .len) (b : Byte) :
    decode s.ctx (.event (.byte b)) = .ok (if b = 0 then .sbTerm else .sbLen b) := by
  simp only [decode, decodeEvent, decodeByte, State.ctx, hs]

theorem State.decode_byte_of_skipLen {s : State} (hs : s.seq = .skipLen) (b : Byte) :
    decode s.ctx (.event (.byte b)) = .ok (if b = 0 then .sbSkipTerm else .sbSkipLen b) := by
  simp only [decode, decodeEvent, decodeByte, State.ctx, hs]

theorem State.decode_byte_of_skipData {s : State} (hs : s.seq = .skipData) (b : Byte) :
    decode s.ctx (.event (.byte b)) = .ok (.sbSkipData b) := by
  simp only [decode, decodeEvent, decodeByte, State.ctx, hs]

/-! ### The payload byte of an image (R85, R90) -/

/-- Bits that follow EOI are discarded (R90). -/
theorem acceptBits_of_eoi {s : State} (h : s.eoiFlag = true) (bs : List Bool) :
    acceptBits bs s = .next s := by
  cases bs with
  | nil => rfl
  | cons b bs => exact if_pos (.inl h)

/-- The end-of-sub-block test, by the `n` payload bytes that were due before the byte it follows. -/
theorem State.endOfSubBlock_of_frameRem {u : State} {n : BitVec 8} (hrem : u.frameRem = n - 1) :
    u.endOfSubBlock =
      if n ≠ 1 then u
      else if u.eoiFlag = true then { u with seq := .done, irqPend := true }
      else { u with seq := .len } := by
  have hlast : u.frameRem = 0 ↔ n = 1 := by rw [hrem, sub_eq_zero]
  unfold State.endOfSubBlock
  simp only [hlast, ite_not]

/-- SB.DATA in DATA: the bit loop on the counted byte, which accepts nothing after EOI, and the
end-of-sub-block test unless the loop ended in an error. -/
theorem execSbData_of_data {s : State} (hs : s.seq = .data) (b : Byte) :
    execSbData b s = andThen (acceptBits (bitsOf b) s.countPayload) fun u =>
      .next (if u.seq = .error then u else u.endOfSubBlock) := by
  unfold execSbData
  rw [if_pos hs]
  dsimp only
  split
  · rename_i heoi
    rw [acceptBits_of_eoi heoi, andThen_next, if_neg (by simp [hs])]
  · simp only [State.bitstreamByte, apply_ite]

/-- Under the invariant the bit loop of a payload byte answers a state, good or in a DECODE error, and SB.DATA
ends there or after the end-of-sub-block test. -/
theorem State.Inv.execSbData_answers {s : State} (h : s.Inv) (hs : s.seq = .data) (b : Byte) :
    ∃ u, acceptBits (bitsOf b) s.countPayload = .next u ∧
      (BitsGood s.countPayload u ∨ BitsError u) ∧
      Machine.execSbData b s = .next (if u.seq = .error then u else u.endOfSubBlock) := by
  have hstream : s.countPayload.StreamInv := (h.stream (.inr hs)).move (by simp [hs])
  obtain ⟨u, hu, hcases⟩ := hstream.acceptBits hs (bitsOf b)
  exact ⟨u, hu, hcases, by rw [execSbData_of_data hs, hu, andThen_next]⟩

/-- Settles O41: `u` is where the bit loop ends, in DATA or in a DECODE error (`State.Inv.execSbData_answers`);
the frame is `execSbData_eq_next`. -/
theorem payloadByteRule : Obligations.PayloadByteRule := by
  unfold Obligations.PayloadByteRule
  intro s b h hs
  obtain ⟨u, hu, hcases, hexec⟩ := h.execSbData_answers hs b
  have hafterEoi : s.eoiFlag = true → u = s.countPayload := fun heoi =>
    Host.Outcome.next.inj (hu.symm.trans (acceptBits_of_eoi (s := s.countPayload) heoi _))
  have hframe := (execSbData_eq_next hexec).frame
  refine ⟨_, u, hexec, ?_, ?_⟩
  · split
    · exact hafterEoi ‹_›
    · exact hu
  obtain hgood | herr := hcases
  · have hne : u.seq ≠ .error := by simp [hgood.seq, hs]
    refine ⟨?_, fun he => absurd he hne,
      fun _ => ⟨hgood.seq.trans hs, hgood.frameRem, hgood.irqPend⟩, hframe⟩
    rw [if_neg hne, if_neg hne]
    exact State.endOfSubBlock_of_frameRem hgood.frameRem
  · have hnoEoi : s.eoiFlag = false := Bool.eq_false_iff.mpr fun heoi => by
      simpa [hafterEoi heoi, hs] using herr.seq
    refine ⟨?_, fun _ => ⟨hnoEoi, herr.errCode, herr.frameRem, herr.irqPend⟩,
      fun hne => absurd herr.seq hne, hframe⟩
    rw [if_pos herr.seq, if_pos herr.seq]

/-! ### Terminators, length bytes, skips and source failures (R83, R84, R86 to R89) -/

/-- Settles O37: the token's own meaning in LEN; the invariant excludes EOI there (R83). -/
theorem terminatorEndsImage : Obligations.TerminatorEndsImage := by
  unfold Obligations.TerminatorEndsImage
  intro s hs
  exact ⟨s.decode_byte_of_len hs 0, if_pos hs, fun h => (h.stream (.inl hs)).len_eoi hs⟩

/-- Settles O38: a length that is not 0 selects SB.LEN in LEN. -/
theorem lengthByteOpensSubBlock : Obligations.LengthByteOpensSubBlock := by
  unfold Obligations.LengthByteOpensSubBlock
  intro s n hs hn
  exact ⟨by rw [State.decode_byte_of_len hs, if_neg hn], if_pos ⟨hs, hn⟩⟩

/-- A skipped payload byte leaves the sub-block when it was the last one due (R88). -/
theorem execSbSkipData_of_skipData {s : State} (hs : s.seq = .skipData) (b : Byte) :
    execSbSkipData b s =
      .next { s.countPayload with seq := if s.frameRem = 1 then .skipLen else .skipData } := by
  have hlast : s.countPayload.frameRem = 0 ↔ s.frameRem = 1 := sub_eq_zero
  unfold execSbSkipData
  simp only [if_pos hs, hlast]
  split
  · rfl
  · rw [← hs]
    rfl

/-- Settles O39, a clause per skip token. -/
theorem skipRules : Obligations.SkipRules := by
  unfold Obligations.SkipRules
  refine ⟨fun s hs => ⟨?_, if_pos hs⟩, fun s n hs hn => ⟨?_, if_pos ⟨hs, hn⟩⟩, fun s b hs => ⟨?_, ?_⟩⟩
  · exact State.decode_byte_of_skipLen hs 0
  · rw [State.decode_byte_of_skipLen hs, if_neg hn]
  · exact State.decode_byte_of_skipData hs b
  · exact execSbSkipData_of_skipData hs b

/-- Settles O40: the four states of the rule are the reading ones (`State.inReady_iff`). -/
theorem sourceFailureRule : Obligations.SourceFailureRule := by
  unfold Obligations.SourceFailureRule
  intro s
  simp only [exec, execInFail, State.inReady_iff]
  split <;> rfl

end Sys2Proof.Machine

/-! # The width of a code

The width law's consequences and the insertion that grows the width. -/

namespace Sys2Proof.Machine

/-! ### The width law's consequences (R94) -/

/-- An occupancy of at least the `2^r` roots needs `r + 1` bits. -/
theorem le_widthLaw {r n : Nat} (hr : r ≤ 11) (h : 2 ^ r ≤ n) : r + 1 ≤ widthLaw n := by
  have hn : n ≠ 0 := (Nat.two_pow_pos r |>.trans_le h).ne'
  exact le_min (by omega) (Nat.succ_le_succ ((Nat.le_log2 hn).mpr h))

/-- Below 4096 the next free code fits the width: both arguments of the law's `min` hold it. -/
theorem lt_two_pow_widthLaw {n : Nat} (h : n < 4096) : n < 2 ^ widthLaw n :=
  min_rec' (fun k => n < 2 ^ k) h Nat.lt_log2_self

/-- Settles O23: the invariant's width law, and what it says of any occupancy from `num_root + 2` on. -/
theorem widthHoldsNextFreeCode : Obligations.WidthHoldsNextFreeCode := by
  unfold Obligations.WidthHoldsNextFreeCode
  intro s h
  have hroots : 2 ^ s.root.toNat ≤ s.ctUsed.toNat := (Nat.le_add_right _ 2).trans h.ct_range.1
  refine ⟨h.width_law, ?_, ?_, fun hlt => ?_⟩ <;> rw [h.width_law]
  · exact le_widthLaw h.root_range.2 hroots
  · exact widthLaw_le _
  · exact lt_two_pow_widthLaw hlt

/-! ### Insertion and the growth of the width (R92, R93, R106) -/

/-- `GrowCheck` writes the width alone. -/
theorem State.growCheck_eq (s : State) :
    s.growCheck =
      { s with width := if s.ctUsed.toNat ∈ growsAt then s.width + 1 else s.width } := by
  unfold State.growCheck
  simp only [List.contains_iff_mem]
  split <;> rfl

/-- Settles O47: below 4096 the occupancy `GrowCheck` tests is the incremented one, since it does not wrap. -/
theorem insertionRule : Obligations.InsertionRule := by
  unfold Obligations.InsertionRule
  intro s p v
  refine ⟨fun hlt d hd => ?_, fun hfull => State.insert_of_full p v hfull.ge⟩
  rw [State.insert_of_entry v hd hlt, State.growCheck_eq, State.addEntry_ctUsed_toNat _ hlt]
  rfl

end Sys2Proof.Machine

/-! # The code classes and the dictionary

The statements of the family 42_lzw_dictionary: O5, O43 to O46, O48 to O50. -/

namespace Sys2Proof.Machine

/-! ### Emission (R107, R108) -/

/-- The walk at offset 0 places the entry's value at the cursor and stops. -/
theorem State.emitFrom_zero {s : State} {x : Code} {d : DictEntry} (hd : s.entry x = some d) :
    s.emitFrom x 0 = s.pixelOut s.cursor d.value := by
  unfold State.emitFrom
  rw [hd]
  exact andThen_pure _

/-- The walk above offset 0 places the entry's value and goes on at its parent. -/
theorem State.emitFrom_succ {s : State} {x : Code} {d : DictEntry} (hd : s.entry x = some d) (off : Nat) :
    s.emitFrom x (off + 1) =
      andThen (s.pixelOut (s.cursor + (off + 1)) d.value) (State.emitFrom d.parent off) := by
  rw [State.emitFrom, hd]

/-- A walk that answers a state began at an entry that can be read. -/
theorem State.entry_of_emitFrom {s t : State} {x : Code} {off : Nat} (h : s.emitFrom x off = .next t) :
    ∃ d, s.entry x = some d := by
  unfold State.emitFrom at h
  split at h
  · cases h
  · exact ⟨_, ‹_›⟩

theorem State.expansion_zero {s : State} {x : Code} {d : DictEntry} (hd : s.entry x = some d) :
    s.expansion 0 x = [d.value] := by
  simp only [State.expansion, hd]

theorem State.expansion_succ {s : State} {x : Code} {d : DictEntry} (hd : s.entry x = some d) (n : Nat) :
    s.expansion (n + 1) x = s.expansion n d.parent ++ [d.value] := by
  simp only [State.expansion, hd]

theorem State.expansion_getLast? {s : State} {x : Code} {d : DictEntry} (hd : s.entry x = some d)
    (n : Nat) : (s.expansion n x).getLast? = some d.value := by
  cases n with
  | zero => rw [State.expansion_zero hd, List.getLast?_singleton]
  | succ n => rw [State.expansion_succ hd, List.getLast?_concat]

/-- An expansion reads the dictionary, which painting leaves alone. -/
theorem PaintOnly.expansion_eq {s t : State} (p : PaintOnly s t) (n : Nat) (x : Code) :
    t.expansion n x = s.expansion n x := by
  induction n generalizing x with
  | zero => simp only [State.expansion, p.entry_eq]
  | succ n ih => simp only [State.expansion, p.entry_eq, ih]

/-- A defined entry's expansion starts with its `firstchar`: every entry of its chain has the same one, and
the root that ends the chain has it as its value (R96, R108). -/
theorem State.StreamInv.expansion_head? {s : State} (h : s.StreamInv) {x : Code} {d : DictEntry} {n : Nat}
    (hx : s.defines x.toNat) (hd : s.entry x = some d) (hn : d.length.toNat = n) :
    (s.expansion n x).head? = some d.firstchar := by
  induction n generalizing x d with
  | zero =>
    obtain ⟨d', hd', hcase⟩ := h.entry_cases hx
    obtain rfl := Option.some.inj (hd.symm.trans hd')
    obtain ⟨-, hroot⟩ | ⟨p, -, -, hlen, -⟩ := hcase
    · rw [State.expansion_zero hd, hroot, List.head?_cons]
    · omega
  | succ n ih =>
    obtain ⟨d', hd', hcase⟩ := h.entry_cases hx
    obtain rfl := Option.some.inj (hd.symm.trans hd')
    obtain ⟨hzero, -⟩ | ⟨p, hp, hdef, hlen, hfirst⟩ := hcase
    · omega
    · rw [State.expansion_succ hd, List.head?_append, ih hdef hp (by omega), hfirst, Option.some_or]

/-- The first `n` of the symbols `syms`, placed at the pixels from `k` on, highest first, after `r`. -/
def placeDown (k : Nat) (syms : List Symbol) (n : Nat) (r : Result) : Result :=
  (List.range n).reverse.foldl (fun r off => andThen r fun t => t.pixelOut (k + off) (syms.getD off 0)) r

theorem placeDown_succ (k : Nat) (syms : List Symbol) (n : Nat) (r : Result) :
    placeDown k syms (n + 1) r =
      placeDown k syms n (andThen r fun t => t.pixelOut (k + n) (syms.getD n 0)) := by
  simp [placeDown, List.range_succ]

/-- Only the symbols that are placed matter. -/
theorem placeDown_append (k : Nat) (syms tail : List Symbol) {n : Nat} (hn : n ≤ syms.length) (r : Result) :
    placeDown k (syms ++ tail) n r = placeDown k syms n r := by
  induction n generalizing r with
  | zero => rfl
  | succ n ih =>
    rw [placeDown_succ, placeDown_succ, ih (by omega), List.getD_append _ _ _ _ (by omega)]

/-- The walk of `Emit` to offset 0 places an expansion of `off + 1` symbols at the cursor, highest first: a step of
the walk places the last symbol, and the rest of the expansion is the parent's. -/
theorem State.emitFrom_placeDown {s t : State} {x : Code} {off : Nat} (h : s.emitFrom x off = .next t) :
    (s.expansion off x).length = off + 1 ∧
      placeDown s.cursor (s.expansion off x) (off + 1) (.next s) = .next t := by
  obtain ⟨d, hd⟩ := State.entry_of_emitFrom h
  induction off generalizing s x d with
  | zero =>
    rw [State.emitFrom_zero hd] at h
    rw [State.expansion_zero hd]
    exact ⟨rfl, h⟩
  | succ off ih =>
    rw [State.emitFrom_succ hd] at h
    obtain ⟨u, hu, h⟩ := andThen_eq_next.mp h
    have hpaint := State.pixelOut_paintOnly hu
    have hcursor : u.cursor = s.cursor := by rw [hpaint.frame]
    obtain ⟨p, hp⟩ := State.entry_of_emitFrom h
    obtain ⟨hlen, hplace⟩ := ih h p hp
    rw [hpaint.expansion_eq] at hlen hplace
    rw [hcursor] at hplace
    rw [State.expansion_succ hd]
    refine ⟨by simp [hlen], ?_⟩
    have hlast : (s.expansion off d.parent ++ [d.value]).getD (off + 1) 0 = d.value := by
      simp [← hlen]
    rw [placeDown_succ, andThen_next, hlast, hu, placeDown_append _ _ _ hlen.ge, hplace]

/-- `Emit` of a defined entry: the walk paints, and the cursor passes the symbols. -/
theorem State.StreamInv.emit_eq {s : State} (h : s.StreamInv) {e : Code} {d : DictEntry}
    (he : s.defines e.toNat) (hd : s.entry e = some d) :
    ∃ m, s.emitFrom e d.length.toNat = .next { s with canvas := m } ∧
      s.emit e = .next { s with canvas := m, cursor := s.cursor + d.length.toNat + 1 } := by
  obtain ⟨u, hu⟩ := h.emitFrom_answers he hd rfl
  rw [(State.emitFrom_paintOnly hu).frame] at hu
  refine ⟨u.canvas, hu, ?_⟩
  unfold State.emit
  simp only [hd, hu, andThen_next]

/-- Settles O50: the walk's law (`emitFrom_placeDown`) on a defined entry, whose chain the invariant keeps. -/
theorem emissionRule : Obligations.EmissionRule := by
  unfold Obligations.EmissionRule
  intro s e h he
  obtain ⟨d, hd, -⟩ := h.entry_cases he
  obtain ⟨m, hwalk, hemit⟩ := h.emit_eq he hd
  obtain ⟨hlen, hplace⟩ := State.emitFrom_placeDown hwalk
  exact ⟨d, (State.entry_eq_some hd).2, hlen, h.expansion_head? he hd rfl, State.expansion_getLast? hd _,
    m, hemit, hplace⟩

/-! ### The codes that emit and insert (R101, R103, R104) -/

/-- Settles O45: a first code is a root (`root_of_first`), so its walk is one pixel. -/
theorem firstCodeRule : Obligations.FirstCodeRule := by
  unfold Obligations.FirstCodeRule
  intro s c h hold hdef
  have hclass : s.classOf c = .first := State.classOf_eq_first.mpr ⟨hold, hdef⟩
  have hroot := h.root_of_first hclass
  have hentry : s.entry c = some (rootEntry s.params.symbolBits c.toNat) :=
    (State.entry_of_defines hdef).trans (h.roots _ hroot)
  obtain ⟨m, hwalk, hemit⟩ := h.emit_eq hdef hentry
  refine ⟨hroot, m, (State.emitFrom_zero hentry).symm.trans hwalk, ?_⟩
  calc exec (.lzwFirst c) s
    _ = andThen (s.emit c) fun t => .next { t with oldCode := c, oldValid := true } := if_pos hclass
    _ = _ := by rw [hemit]; rfl

theorem State.insertFirstcharOf_of_entry {s : State} {c : Code} {d : DictEntry} (hd : s.entry c = some d)
    (p : Code) : s.insertFirstcharOf p c = s.insert p d.firstchar := by
  simp only [State.insertFirstcharOf, hd]

/-- LZW.KNOWN by what `Emit` answers: the insertion of the old code with the code's `firstchar`, and the code
becomes the old code (R103). -/
theorem exec_lzwKnown {s t : State} {c : Code} {dc : DictEntry} (hclass : s.classOf c = .known)
    (hemit : s.emit c = .next t) (hdc : t.entry c = some dc) :
    exec (.lzwKnown c) s =
      andThen (t.insert t.oldCode dc.firstchar) fun u => .next { u with oldCode := c } := by
  calc exec (.lzwKnown c) s
    _ = andThen (s.emit c) fun t => andThen (t.insertFirstcharOf t.oldCode c) fun u =>
          .next { u with oldCode := c } := if_pos hclass
    _ = _ := by rw [hemit, andThen_next, State.insertFirstcharOf_of_entry hdc]

/-- LZW.PENDING by what the insertion of the old code with its own `firstchar` and the `Emit` after it answer
(R104). -/
theorem exec_lzwPending {s t u : State} {c : Code} {dp : DictEntry} (hclass : s.classOf c = .pending)
    (hdp : s.entry s.oldCode = some dp) (hinsert : s.insert s.oldCode dp.firstchar = .next u)
    (hemit : u.emit c = .next t) : exec (.lzwPending c) s = .next { t with oldCode := c } := by
  calc exec (.lzwPending c) s
    _ = andThen (s.insertFirstcharOf s.oldCode s.oldCode) fun u => andThen (u.emit c) fun t =>
          .next { t with oldCode := c } := if_pos hclass
    _ = _ := by
      rw [State.insertFirstcharOf_of_entry hdp, hinsert, andThen_next, hemit, andThen_next]

/-- Settles O48: `Emit` changes only the canvas and the cursor, so the insertion after it (`insertionRule`) reads
the same entries. -/
theorem knownCodeRule : Obligations.KnownCodeRule := by
  unfold Obligations.KnownCodeRule
  intro s c h hold hdef
  obtain ⟨dc, hdc, -⟩ := h.entry_cases hdef
  obtain ⟨dp, hdp, -⟩ := h.entry_cases (h.old_code hold)
  obtain ⟨m, -, hemit⟩ := h.emit_eq hdef hdc
  refine ⟨dc, dp, m, (State.entry_eq_some hdc).2, (State.entry_eq_some hdp).2, hemit, ?_⟩
  obtain ⟨hroom, hfull⟩ := insertionRule { s with canvas := m, cursor := s.cursor + dc.length.toNat + 1 }
    s.oldCode dc.firstchar
  rw [exec_lzwKnown (State.classOf_eq_known.mpr ⟨hold, hdef⟩) hemit hdc]
  split <;> rename_i hct
  · rw [hroom hct dp hdp, andThen_next]
  · rw [hfull (h.ct_range.2.antisymm (Nat.not_lt.mp hct)), andThen_next]

/-- The state after an insertion: the free index is written, the occupancy counts it, and the width grows at the
nine occupancies (R92, R106). -/
theorem State.growCheck_addEntry_eq {s : State} (p : Code) (d : DictEntry) (v : Symbol)
    (hct : s.ctUsed.toNat < Config.dictSize) :
    (s.addEntry (childEntry p d v)).growCheck = { s with
      dict := Memory.write s.dict s.ctUsed.toNat (childEntry p d v)
      ctUsed := s.ctUsed + 1
      width := if s.ctUsed.toNat + 1 ∈ growsAt then s.width + 1 else s.width } := by
  rw [State.growCheck_eq, State.addEntry_ctUsed_toNat _ hct]
  rfl

/-- The index just inserted at holds the child entry. -/
theorem State.read_inserted (s : State) {c : Code} (hc : c.toNat = s.ctUsed.toNat) (p : Code) (d : DictEntry)
    (v : Symbol) :
    Memory.read (s.addEntry (childEntry p d v)).growCheck.dict c.toNat = some (childEntry p d v) := by
  rw [State.growCheck_dict, State.addEntry_dict, hc, Memory.read_write_same]

/-- The index just inserted at is defined: it is below the new occupancy and above the two control codes (R23). -/
theorem State.StreamInv.defines_inserted {s : State} (h : s.StreamInv) {c : Code}
    (hc : c.toNat = s.ctUsed.toNat) (p : Code) (d : DictEntry) (v : Symbol) :
    (s.addEntry (childEntry p d v)).growCheck.defines c.toNat := by
  have hroots : 2 ^ s.root.toNat + 2 ≤ s.ctUsed.toNat := h.ct_range.1
  have hused := State.addEntry_ctUsed_toNat (childEntry p d v) (hc ▸ c.isLt)
  refine ⟨?_, ?_, ?_⟩
  · rw [State.growCheck_ctUsed, hused]
    omega
  · rw [State.growCheck_root, State.addEntry_root, clearCodeOf]
    omega
  · rw [State.growCheck_root, State.addEntry_root, eoiCodeOf, clearCodeOf]
    omega

/-- The length of the child entry does not wrap: the image's laws survive its insertion, and they bound the
lengths (R108). -/
theorem State.StreamInv.childEntry_length {s : State} (h : s.StreamInv) {p c : Code} {d : DictEntry} (v : Symbol)
    (hd : s.entry p = some d) (hold : s.oldValid = true) (hc : c.toNat = s.ctUsed.toNat) :
    (childEntry p d v).length.toNat = d.length.toNat + 1 := by
  obtain ⟨hpdef, hpread⟩ := State.entry_eq_some hd
  have hused := State.addEntry_ctUsed_toNat (childEntry p d v) (hc ▸ c.isLt)
  have hinv := h.insert v hd hold (hc ▸ c.isLt)
  obtain ⟨d', p', hd', hp', -, -, hlen, -⟩ := hinv.chains c.toNat
    (by simpa [State.numRoot, hc] using h.ct_range.1) (by rw [State.growCheck_ctUsed, hused]; omega)
  obtain rfl := Option.some.inj ((s.read_inserted hc p d v).symm.trans hd')
  have hparent : Memory.read (s.addEntry (childEntry p d v)).growCheck.dict p.toNat = some d := by
    rw [State.growCheck_dict, State.addEntry_dict, Memory.read_write_other _ _ hpdef.1.ne, hpread]
  obtain rfl := Option.some.inj (hparent.symm.trans hp')
  exact hlen

/-- Settles O49: the inserted entry is one longer than the old code's (`childEntry_length`), so the cursor passes one
symbol more. -/
theorem pendingCodeRule : Obligations.PendingCodeRule := by
  unfold Obligations.PendingCodeRule
  intro s c h hold hc
  have hct : s.ctUsed.toNat < Config.dictSize := hc ▸ c.isLt
  obtain ⟨dp, hdp, -⟩ := h.entry_cases (h.old_code hold)
  have hdef := h.defines_inserted hc s.oldCode dp dp.firstchar
  have hentry := (State.entry_of_defines hdef).trans (s.read_inserted hc _ _ _)
  obtain ⟨m, -, hemit⟩ := (h.insert dp.firstchar hdp hold hct).emit_eq hdef hentry
  have hclass : s.classOf c = .pending := by
    obtain ⟨-, hclear, heoi⟩ := hdef
    exact State.classOf_eq_pending.mpr ⟨hold, hc, by simpa using hclear, by simpa using heoi⟩
  have hexec := exec_lzwPending hclass hdp (State.insert_of_entry dp.firstchar hdp hct) hemit
  rw [h.childEntry_length _ hdp hold hc, State.growCheck_addEntry_eq _ _ _ hct] at hemit hexec
  rw [hc]
  exact ⟨dp, m, (State.entry_eq_some hdp).2, hemit, hexec⟩

/-! ### The codes that emit nothing (R98, R99, R100, R102, R105) -/

/-- Settles O5: a code's instruction is one the state selects, and runs as the code does. -/
theorem processCodeRunsDecodedClass : Obligations.ProcessCodeRunsDecodedClass := by
  unfold Obligations.ProcessCodeRunsDecodedClass
  intro c s
  exact (exec_eq_processCode (encode_decodeCode s.ctx c) (decodeCode_selectedIn s.ctx c)).symm

/-- A payload byte after EOI is counted; the last one due ends the image (R85, R99). -/
theorem execSbData_of_eoi {s : State} (heoi : s.eoiFlag = true) (hs : s.seq = .data) (b : Byte) :
    execSbData b s = .next { s.countPayload with
      seq := if s.frameRem = 1 then .done else .data
      irqPend := if s.frameRem = 1 then true else s.irqPend } := by
  have hcount : s.countPayload.seq ≠ .error := by simp [hs]
  rw [execSbData_of_data hs, acceptBits_of_eoi (s := s.countPayload) heoi, andThen_next, if_neg hcount,
    State.endOfSubBlock_of_frameRem (s.countPayload_frameRem)]
  by_cases hlast : s.frameRem = 1
  · rw [if_neg (not_not.mpr hlast), if_pos (show s.countPayload.eoiFlag = true from heoi), if_pos hlast,
      if_pos hlast]
  · rw [if_pos hlast, if_neg hlast, if_neg hlast, ← hs]
    rfl

/-- Settles O43: the EOI code has the EOI class whatever `old_valid` is, and nothing after it has an effect. -/
theorem eoiEndsStream : Obligations.EoiEndsStream := by
  unfold Obligations.EoiEndsStream
  exact ⟨fun s c hc => if_pos (State.classOf_eq_eoi.mpr hc), fun s bs heoi => acceptBits_of_eoi heoi bs,
    fun s b heoi hs => execSbData_of_eoi heoi hs b⟩

/-- LZW.CLEAR on the clear code is `DictReset` (R100). -/
theorem exec_lzwClear {s : State} {c : Code} (hc : c.toNat = clearCodeOf s.root) :
    exec (.lzwClear c) s = .next s.dictReset :=
  if_pos (State.classOf_eq_clear.mpr hc)

/-- Settles O44: `DictReset` keeps the root, so the code is still the clear code and resets to the same values. -/
theorem clearResetsDictionary : Obligations.ClearResetsDictionary := by
  unfold Obligations.ClearResetsDictionary
  intro s c hc
  have hwidth : BitVec.ofNat 4 (s.root.toNat + 1) = s.root + 1 := by
    rw [BitVec.ofNat_add, BitVec.ofNat_toNat, BitVec.setWidth_eq]
    rfl
  refine ⟨s.dictReset, exec_lzwClear hc, ?_, exec_lzwClear (s := s.dictReset) hc⟩
  rw [hwidth]
  rfl

/-- `ERRINFO` of a DECODE error as a number: the sub-cause from bit 16 up, the code below (R128). -/
theorem decodeInfo_eq_ofNat (cause : BitVec 16) (c : Code) :
    decodeInfo cause c = BitVec.ofNat 32 (cause.toNat * 2 ^ 16 + c.toNat) := by
  have hcause := cause.isLt
  have hcode := c.isLt
  refine BitVec.eq_of_toNat_eq ?_
  rw [decodeInfo, toNat_append_eq_add, toNat_append_eq_add, BitVec.toNat_ofNat, BitVec.toNat_ofNat]
  omega

/-- Settles O46: the two classes' conditions, and the information word as a number. -/
theorem badCodesRaiseDecode : Obligations.BadCodesRaiseDecode := by
  unfold Obligations.BadCodesRaiseDecode
  intro s c hclear heoi
  refine ⟨fun hold hct => ?_, fun hold hct => ?_⟩
  · calc exec (.lzwBadFirst c) s
      _ = .next (s.raiseError .decode (decodeInfo 1 c)) :=
        if_pos (State.classOf_eq_badFirst.mpr ⟨hold, hct, hclear, heoi⟩)
      _ = _ := by rw [decodeInfo_eq_ofNat]; rfl
  · calc exec (.lzwBeyond c) s
      _ = .next (s.raiseError .decode (decodeInfo 2 c)) :=
        if_pos (State.classOf_eq_beyond.mpr ⟨hold, hct, hclear, heoi⟩)
      _ = _ := by rw [decodeInfo_eq_ofNat]; rfl

end Sys2Proof.Machine

/-! # The raster reconstructor

The statements of the family 43_raster: O53, O54. -/

namespace Sys2Proof.Machine

/-! ### The passes and the row order (R109, R110) -/

/-- A pass whose start is below its step visits exactly the rows of the image that are congruent to its start. -/
theorem mem_passRows {start step h r : Nat} (hlt : start < step) :
    r ∈ passRows start step h ↔ r < h ∧ r % step = start := by
  have hbound (i : Nat) : i < (h - start + (step - 1)) / step ↔ start + step * i < h := by
    rw [← Nat.succ_le_iff, Nat.le_div_iff_mul_le (by omega), Nat.succ_mul, Nat.mul_comm i]
    omega
  simp only [passRows, List.mem_map, List.mem_range, hbound]
  constructor
  · rintro ⟨i, hi, rfl⟩
    exact ⟨hi, by rw [Nat.add_mul_mod_self_left, Nat.mod_eq_of_lt hlt]⟩
  · rintro ⟨hr, rfl⟩
    exact ⟨r / step, by rwa [Nat.mod_add_div], Nat.mod_add_div r step⟩

/-- The row order visits exactly the rows of the image: a row is 0 or 4 mod 8, 2 mod 4, or odd. -/
theorem mem_rowOrder {il : Bool} {h r : Nat} : r ∈ rowOrder il h ↔ r < h := by
  cases il with
  | false => exact List.mem_range
  | true =>
    simp only [rowOrder, if_true, List.mem_append, mem_passRows (show 0 < 8 by decide),
      mem_passRows (show 4 < 8 by decide), mem_passRows (show 2 < 4 by decide),
      mem_passRows (show 1 < 2 by decide)]
    omega

/-- The four passes partition the rows: every row is visited, and there are as many visits as rows. -/
theorem rowOrder_perm (il : Bool) (h : Nat) : (rowOrder il h).Perm (List.range h) := by
  have hsub : List.range h ⊆ rowOrder il h := fun _ hr => mem_rowOrder.mpr (List.mem_range.mp hr)
  refine ((List.nodup_range.subperm hsub).perm_of_length_le ?_).symm
  rw [rowOrder_length, List.length_range]

theorem nodup_rowOrder (il : Bool) (h : Nat) : (rowOrder il h).Nodup :=
  (rowOrder_perm il h).nodup_iff.mpr List.nodup_range

theorem length_passRows (start step h : Nat) :
    (passRows start step h).length = (h - start + (step - 1)) / step := by
  rw [passRows, List.length_map, List.length_range]

theorem passRows_getElem? {start step h i : Nat} (hi : i < (passRows start step h).length) :
    (passRows start step h)[i]? = some (step * i + start) := by
  rw [length_passRows] at hi
  rw [passRows, List.getElem?_map, List.getElem?_range hi, Option.map_some, Nat.add_comm]

/-- The closed form of R110: an entry's place tells its pass, and its distance from there its row. -/
theorem rowOrder_interlaced_getElem? {h i : Nat} (hi : i < h) :
    let n1 := (h + 7) / 8
    let n2 := (h - 4 + 7) / 8
    let n3 := (h - 2 + 3) / 4
    (rowOrder true h)[i]? = some
      (if i < n1 then 8 * i
        else if i < n1 + n2 then 8 * (i - n1) + 4
        else if i < n1 + n2 + n3 then 4 * (i - n1 - n2) + 2
        else 2 * (i - n1 - n2 - n3) + 1) := by
  intro n1 n2 n3
  have hn1 : (passRows 0 8 h).length = n1 := length_passRows ..
  have hn2 : (passRows 4 8 h).length = n2 := length_passRows ..
  have hn3 : (passRows 2 4 h).length = n3 := length_passRows ..
  have hn4 : (passRows 1 2 h).length = h / 2 := by rw [length_passRows]; omega
  rw [rowOrder, if_pos rfl, List.append_assoc, List.append_assoc, List.getElem?_append, hn1,
    List.getElem?_append, hn2, List.getElem?_append, hn3]
  by_cases h1 : i < n1
  · rw [if_pos h1, if_pos h1]
    exact passRows_getElem? (by omega)
  rw [if_neg h1, if_neg h1]
  by_cases h2 : i < n1 + n2
  · rw [if_pos (by omega), if_pos h2]
    exact passRows_getElem? (by omega)
  rw [if_neg (by omega), if_neg h2]
  by_cases h3 : i < n1 + n2 + n3
  · rw [if_pos (by omega), if_pos h3]
    exact passRows_getElem? (by omega)
  · rw [if_neg (by omega), if_neg h3]
    exact passRows_getElem? (by omega)

/-- The row of a pixel of the image is in the table. -/
theorem rowOrder_getElem?_div {il : Bool} {w h k : Nat} (hk : k < w * h) :
    ∃ row, (rowOrder il h)[k / w]? = some row :=
  ⟨_, List.getElem?_eq_getElem ((Nat.div_lt_of_lt_mul hk).trans_eq (rowOrder_length il h).symm)⟩

/-- Two places that hold one row are the same place. -/
theorem rowOrder_getElem?_inj {il : Bool} {h i j row : Nat} (hi : (rowOrder il h)[i]? = some row)
    (hj : (rowOrder il h)[j]? = some row) : i = j := by
  obtain ⟨hlt, -⟩ := List.getElem?_eq_some_iff.mp hi
  exact (List.getElem?_inj hlt (nodup_rowOrder il h)).mp (hi.trans hj.symm)

/-- Settles O53: the residues of the passes give the permutation, and a row of it determines its place. -/
theorem rowOrderPermutation : Obligations.RowOrderPermutation := by
  unfold Obligations.RowOrderPermutation
  refine ⟨rowOrder_perm, fun h i hi => ⟨by omega, rowOrder_interlaced_getElem? hi⟩, ?_,
    by decide, by decide, by decide, by decide, by decide⟩
  intro il w h left top k k' hk hk' hne
  obtain ⟨row, hrow⟩ := rowOrder_getElem?_div (il := il) hk
  obtain ⟨row', hrow'⟩ := rowOrder_getElem?_div (il := il) hk'
  have himage : ¬ (k % w = k' % w ∧ row = row') := by
    rintro ⟨hcol, rfl⟩
    have hdiv := rowOrder_getElem?_inj hrow hrow'
    exact hne (by rw [← Nat.div_add_mod k w, hdiv, hcol, Nat.div_add_mod])
  refine ⟨row, row', hrow, hrow', ?_, ?_⟩
  · rwa [Ne, Prod.mk.injEq]
  · rwa [Ne, Prod.mk.injEq, Nat.add_left_cancel_iff, Nat.add_left_cancel_iff]

/-! ### A placement as a canvas (R111 to R115, R118) -/

/-- The canvas after symbol `v` is placed at `(x, y)` is `m`. -/
def State.PlacesAs (s : State) (x y : Nat) (v : Symbol) (m : List Host.Cell) : Prop :=
  if s.screenWidth.toNat ≤ x ∨ s.screenHeight.toNat ≤ y ∨ s.palSize ≤ v.toNat then s.canvas = m
  else s.pixelAddr x y + s.bpp ≤ 2 ^ s.params.addrBits ∧
    paintPixel s.canvas (s.pixelAddr x y) s.fmtRgba (s.palEntry (v.setWidth 8)) = m

theorem State.writePixel_withCanvas_iff {s : State} {x y : Nat} {p : Rgba} {m : List Host.Cell} :
    s.writePixel x y p = .next { s with canvas := m } ↔
      s.pixelAddr x y + s.bpp ≤ 2 ^ s.params.addrBits ∧
        paintPixel s.canvas (s.pixelAddr x y) s.fmtRgba p = m := by
  constructor
  · intro h
    obtain ⟨hfit, ht⟩ := State.writePixel_eq_next h
    exact ⟨hfit, (congrArg State.canvas ht).symm⟩
  · rintro ⟨hfit, rfl⟩
    exact State.writePixel_of_fits p hfit

/-- A pixel of the image is placed in its column and in the row its table entry names. -/
theorem State.pixelOut_withCanvas_iff {s : State} {k : Nat} {v : Symbol} {m : List Host.Cell}
    (hk : k < s.imgWidth.toNat * s.imgHeight.toNat) :
    s.pixelOut k v = .next { s with canvas := m } ↔
      s.PlacesAs (s.imgLeft.toNat + k % s.imgWidth.toNat)
        (s.imgTop.toNat + (s.rowEntry (k / s.imgWidth.toNat)).toNat) v m := by
  rw [State.pixelOut_of_lt v hk, State.PlacesAs]
  split
  · exact ⟨fun h => congrArg State.canvas (Host.Outcome.next.inj h), fun h => h ▸ rfl⟩
  · exact State.writePixel_withCanvas_iff

/-- A built table holds the row order: a row is below 2^16 and is stored whole (R109). -/
theorem State.rowEntry_rowMapBuild {s : State} {i row : Nat}
    (h : (rowOrder s.interlace s.imgHeight.toNat)[i]? = some row) :
    (s.rowMapBuild.rowEntry i).toNat = row := by
  obtain ⟨hi, -⟩ := List.getElem?_eq_some_iff.mp h
  have hrow : row < 2 ^ 16 := (mem_rowOrder.mp (List.mem_of_getElem? h)).trans s.imgHeight.isLt
  rw [State.rowEntry, State.rowMapBuild_rowmap, Memory.read_fill, List.length_map, if_pos hi,
    List.getElem?_map, h]
  exact Nat.mod_eq_of_lt hrow

/-- With its table built, a pixel of the image is placed in its column, in the row that the order gives (R112). -/
theorem State.rowMapBuild_pixelOut_iff {s : State} {k col row : Nat} {v : Symbol}
    {m : List Host.Cell} (hk : k < s.imgWidth.toNat * s.imgHeight.toNat)
    (hcol : k % s.imgWidth.toNat = col)
    (hrow : (rowOrder s.interlace s.imgHeight.toNat)[k / s.imgWidth.toNat]? = some row) :
    s.rowMapBuild.pixelOut k v = .next { s.rowMapBuild with canvas := m } ↔
      s.PlacesAs (s.imgLeft.toNat + col) (s.imgTop.toNat + row) v m := by
  rw [← hcol, ← State.rowEntry_rowMapBuild hrow]
  exact State.pixelOut_withCanvas_iff (s := s.rowMapBuild) hk

/-- Settles O54: both pixels have one column and one row, and a placement does not read the order. -/
theorem interlaceChangesOrderOnly : Obligations.InterlaceChangesOrderOnly := by
  unfold Obligations.InterlaceChangesOrderOnly
  intro s k row v m hk hrow
  have hrowlt : row < s.imgHeight.toNat := mem_rowOrder.mp (List.mem_of_getElem? hrow)
  have hcol : k % s.imgWidth.toNat < s.imgWidth.toNat := Nat.mod_lt k (Nat.pos_of_lt_mul_right hk)
  set w := s.imgWidth.toNat
  set c := k % w
  have hpix : row * w + c < w * s.imgHeight.toNat :=
    calc row * w + c
      _ < row * w + w := Nat.add_lt_add_left hcol _
      _ = w * (row + 1) := by rw [← Nat.succ_mul, Nat.mul_comm]
      _ ≤ w * s.imgHeight.toNat := Nat.mul_le_mul_left w hrowlt
  have hdiv : (row * w + c) / w = row := by
    rw [Nat.mul_comm, Nat.mul_add_div (Nat.zero_lt_of_lt hcol), Nat.div_eq_of_lt hcol, Nat.add_zero]
  have hmod : (row * w + c) % w = c := Nat.mul_add_mod_of_lt hcol
  have hfinal : (rowOrder false s.imgHeight.toNat)[(row * w + c) / w]? = some row := by
    rw [hdiv]
    exact List.getElem?_range hrowlt
  calc
    _ ↔ s.PlacesAs (s.imgLeft.toNat + c) (s.imgTop.toNat + row) v m :=
      State.rowMapBuild_pixelOut_iff (s := { s with interlace := true }) hk rfl hrow
    _ ↔ _ := (State.rowMapBuild_pixelOut_iff (s := { s with interlace := false }) hpix hmod hfinal).symm

end Sys2Proof.Machine

/-! # The host interface: commands and the register port

The statements of the family 44_host_interface: O20, O25 to O31, O35, O36. -/

namespace Sys2Proof.Machine

/-! ### Where a command is accepted (R122, R123) -/

/-- In IDLE and DONE a command is neither ignored nor illegal. -/
theorem State.accepts_of_idle_or_done {s : State} (h : s.seq = .idle ∨ s.seq = .done) :
    s.seq ≠ .error ∧ ¬ s.inReady = true := by
  rcases h with h | h <;> simp [State.inReady, Seq.reading, h]

/-- A busy block is in no error. -/
theorem State.seq_ne_error_of_inReady {s : State} (h : s.inReady = true) : s.seq ≠ .error := by
  intro herr
  simp [State.inReady, Seq.reading, herr] at h

/-- START_IMAGE where it is accepted: the three checks in their order, then the set-up. -/
theorem execCmdStartImage_of_accepts {s : State} (h : s.seq ≠ .error ∧ ¬ s.inReady = true) :
    execCmdStartImage s =
      if s.rootCodeSize.toNat < 2 ∨ 11 < s.rootCodeSize.toNat then
        .next (s.raiseError .formatMinCodeSize (s.rootCodeSize.setWidth 32))
      else if s.params.maxRows < s.imgHeight.toNat then .next (s.raiseError .resource 1)
      else if 2 ^ s.params.addrBits < s.canvasEnd then .next (s.raiseError .resource 2)
      else .next s.startImage := by
  rw [execCmdStartImage, if_neg h.1, if_neg h.2]

theorem execCmdStartImage_of_inReady {s : State} (h : s.inReady = true) :
    execCmdStartImage s = .next (s.raiseError .illegalCmd 1) := by
  rw [execCmdStartImage, if_neg (State.seq_ne_error_of_inReady h), if_pos h]

theorem execCmdStartSkip_of_accepts {s : State} (h : s.seq ≠ .error ∧ ¬ s.inReady = true) :
    execCmdStartSkip s = .next { s with bytesIn := 0, frameRem := 0, seq := .skipLen } := by
  rw [execCmdStartSkip, if_neg h.1, if_neg h.2]

theorem execCmdStartSkip_of_inReady {s : State} (h : s.inReady = true) :
    execCmdStartSkip s = .next (s.raiseError .illegalCmd 2) := by
  rw [execCmdStartSkip, if_neg (State.seq_ne_error_of_inReady h), if_pos h]

/-! ### START_IMAGE and START_SKIP (R122, R123) -/

/-- Settles O26: the checks where the command is accepted (`execCmdStartImage_of_accepts`), one clause each. -/
theorem startImageChecks : Obligations.StartImageChecks := by
  unfold Obligations.StartImageChecks
  refine fun s => ⟨fun herr => if_pos herr, execCmdStartImage_of_inReady, fun hseq => ?_⟩
  have hchecks := execCmdStartImage_of_accepts (State.accepts_of_idle_or_done hseq)
  refine ⟨fun hroot => ?_, fun hlo hhi hrows => ?_, fun hlo hhi hrows hfit => ?_⟩ <;>
    refine hchecks.trans ?_
  · rw [if_pos hroot, BitVec.ofNat_toNat]
  · rw [if_neg (by omega), if_pos hrows]
  · rw [if_neg (by omega), if_neg (by omega)]
    exact if_pos hfit

/-- The dictionary where an image starts: the roots, and above them what it held (R96). -/
theorem State.startImage_read_dict {s : State} (h : s.rootCodeSize.toNat ≤ 11) (i : Nat) :
    Memory.read s.startImage.dict i =
      if i < 2 ^ s.rootCodeSize.toNat then some (rootEntry s.params.symbolBits i)
      else Memory.read s.dict i := by
  rw [State.startImage_dict, ← State.startImage_root, State.startImage_root_toNat h, Memory.read_fill,
    List.length_map, List.length_range]
  split
  · rw [List.getElem?_map, List.getElem?_range ‹_›, Option.map_some]
  · rfl

/-- The row-order table where an image starts: the order of its rows, and above them what it held (R109). -/
theorem State.startImage_read_rowmap (s : State) (i : Nat) :
    Memory.read s.startImage.rowmap i =
      if i < s.imgHeight.toNat then
        ((rowOrder s.interlace s.imgHeight.toNat)[i]?).map (BitVec.ofNat 16)
      else Memory.read s.rowmap i := by
  rw [State.startImage_rowmap, Memory.read_fill, List.length_map, rowOrder_length, List.getElem?_map]

/-- Settles O27: no check fails, and the set-up's two tables read as `startImage_read_dict` and
`startImage_read_rowmap` say. -/
theorem startImageSetsUp : Obligations.StartImageSetsUp := by
  unfold Obligations.StartImageSetsUp
  intro s hseq hlo hhi hrows hfit
  have hchecks := execCmdStartImage_of_accepts (State.accepts_of_idle_or_done hseq)
  have hfit' : s.canvasEnd ≤ 2 ^ s.params.addrBits := hfit
  rw [if_neg (by omega), if_neg (by omega), if_neg (by omega)] at hchecks
  refine ⟨s.startImage, hchecks, rfl, State.startImage_root_toNat hhi, State.startImage_width_toNat hhi,
    ?_, State.startImage_read_dict hhi, fun i hi => ?_, fun i hi => ?_⟩
  · rw [State.startImage_ctUsed_toNat hhi, State.startImage_numRoot hhi]
  · rw [State.startImage_read_rowmap, if_pos hi]
  · rw [State.startImage_read_rowmap, if_neg (Nat.not_lt.mpr hi)]

/-- Settles O28: the command is accepted, illegal or ignored. -/
theorem startSkipRule : Obligations.StartSkipRule := by
  unfold Obligations.StartSkipRule
  exact fun s => ⟨fun hseq => execCmdStartSkip_of_accepts (State.accepts_of_idle_or_done hseq),
    execCmdStartSkip_of_inReady, fun herr => if_pos herr⟩

/-! ### NOP and the reserved commands (R121, R125) -/

/-- A write to CMD decodes to the command of its low bits (R70). -/
theorem decode_write_cmdOffset (x : DecodeCtx) (d : Word) :
    decode x (.event (.write 0x008 d)) = .ok (decodeCmd (cmdField d)) := by
  simp only [decode, decodeEvent, regIndexOf_cmdOffset, if_pos]

/-- The command field of data with bits [3:0] cleared is 0. -/
theorem cmdField_and_upper (d : Word) : cmdField (d &&& 0xFFFFFFF0) = 0 := by
  have hmask : (0xFFFFFFF0 : Word).extractLsb' 0 4 = 0#4 := rfl
  rw [cmdField, BitVec.extractLsb'_and, hmask, BitVec.and_zero]
  rfl

/-- Settles O25: the upper bits are no part of the command field. -/
theorem nopHasNoEffect : Obligations.NopHasNoEffect := by
  unfold Obligations.NopHasNoEffect
  refine fun x s d => ⟨?_, rfl⟩
  rw [decode_write_cmdOffset, cmdField_and_upper]
  rfl

theorem execCmdReserved_of_four_le {cmd : BitVec 4} (h : 4 ≤ cmd.toNat) (s : State) :
    execCmdReserved cmd s =
      .next (if s.seq = .error then s else s.raiseError .illegalCmd (cmd.setWidth 32)) := by
  rw [execCmdReserved, if_neg (Nat.not_lt.mpr h), apply_ite Host.Outcome.next]

/-- Settles O30: a number from 4 on names no other command, and its meaning asks only whether the block is in
ERROR. -/
theorem reservedCommandRule : Obligations.ReservedCommandRule := by
  unfold Obligations.ReservedCommandRule
  intro cmd s h
  rw [BitVec.ofNat_toNat]
  exact ⟨decodeCmd_of_four_le h, execCmdReserved_of_four_le h s⟩

/-! ### What a command can do (R127) -/

/-- Everything START_IMAGE can do: nothing in ERROR, else raise an error, else set a decode up in a state that
does not read. -/
theorem execCmdStartImage_eq_next {s t : State} (h : execCmdStartImage s = .next t) :
    t = s ∨ (s.seq ≠ .error ∧ ∃ code info, t = s.raiseError code info) ∨
      (s.seq ≠ .error ∧ s.inReady = false ∧ t = s.startImage) := by
  unfold execCmdStartImage at h
  split_ifs at h with herr hbusy <;> obtain rfl := Host.Outcome.next.inj h
  · exact .inl rfl
  · exact .inr (.inl ⟨herr, _, _, rfl⟩)
  · exact .inr (.inl ⟨herr, _, _, rfl⟩)
  · exact .inr (.inl ⟨herr, _, _, rfl⟩)
  · exact .inr (.inl ⟨herr, _, _, rfl⟩)
  · exact .inr (.inr ⟨herr, Bool.eq_false_iff.mpr hbusy, rfl⟩)

/-- Everything START_SKIP can do, in the same three cases. -/
theorem execCmdStartSkip_eq_next {s t : State} (h : execCmdStartSkip s = .next t) :
    t = s ∨ (s.seq ≠ .error ∧ ∃ code info, t = s.raiseError code info) ∨
      (s.seq ≠ .error ∧ s.inReady = false ∧
        t = { s with bytesIn := 0, frameRem := 0, seq := .skipLen }) := by
  unfold execCmdStartSkip at h
  split_ifs at h with herr hbusy <;> obtain rfl := Host.Outcome.next.inj h
  · exact .inl rfl
  · exact .inr (.inl ⟨herr, _, _, rfl⟩)
  · exact .inr (.inr ⟨herr, Bool.eq_false_iff.mpr hbusy, rfl⟩)

/-- Everything a command can do: nothing, raise an error, reset, or start an image or a skip. -/
theorem exec_decodeCmd_eq_next {cmd : BitVec 4} {s t : State} (h : exec (decodeCmd cmd) s = .next t) :
    t = s ∨ (s.seq ≠ .error ∧ ∃ code info, t = s.raiseError code info) ∨ (cmd = 3 ∧ t = s.softReset) ∨
      (s.seq ≠ .error ∧ s.inReady = false ∧
        ((cmd = 1 ∧ t = s.startImage) ∨ t = { s with bytesIn := 0, frameRem := 0, seq := .skipLen })) := by
  rcases decodeCmd_cases cmd with ⟨hcmd, hi⟩ | ⟨-, hi⟩ | ⟨hcmd, hi⟩ | ⟨-, hi⟩ | ⟨hcmd, hi⟩ <;>
    rw [hi] at h
  · have ht := Host.Outcome.next.inj ((execCmdReserved_of_four_le hcmd s).symm.trans h)
    split_ifs at ht with herr
    · exact .inl ht.symm
    · exact .inr (.inl ⟨herr, _, _, ht.symm⟩)
  · exact .inl (Host.Outcome.next.inj h).symm
  · rcases execCmdStartImage_eq_next h with ht | ht | ⟨herr, hidle, ht⟩
    · exact .inl ht
    · exact .inr (.inl ht)
    · exact .inr (.inr (.inr ⟨herr, hidle, .inl ⟨hcmd, ht⟩⟩))
  · rcases execCmdStartSkip_eq_next h with ht | ht | ⟨herr, hidle, ht⟩
    · exact .inl ht
    · exact .inr (.inl ht)
    · exact .inr (.inr (.inr ⟨herr, hidle, .inr ht⟩))
  · exact .inr (.inr (.inl ⟨hcmd, (Host.Outcome.next.inj h).symm⟩))

/-- Settles O31, by what a command can do (`exec_decodeCmd_eq_next`): one that leaves a busy state ends in ERROR
or IDLE, and only the set-up of an image writes a table. -/
theorem commandLaws : Obligations.CommandLaws := by
  unfold Obligations.CommandLaws
  intro cmd s t h
  rcases exec_decodeCmd_eq_next h with rfl | ⟨herr, code, info, rfl⟩ | ⟨hcmd, rfl⟩ |
    ⟨herr, hidle, ⟨hcmd, rfl⟩ | rfl⟩
  · exact ⟨rfl, fun _ _ => rfl, fun _ _ => rfl, fun _ => ⟨rfl, rfl⟩⟩
  · exact ⟨rfl, fun he => absurd he herr, fun _ hbusy => absurd hbusy Bool.false_ne_true, fun _ => ⟨rfl, rfl⟩⟩
  · exact ⟨rfl, fun _ hne => absurd hcmd hne, fun _ hbusy => absurd hbusy Bool.false_ne_true,
      fun _ => ⟨rfl, rfl⟩⟩
  · exact ⟨rfl, fun he => absurd he herr, fun hbusy => absurd hbusy (by simp [hidle]),
      fun hne => absurd hcmd hne⟩
  · exact ⟨rfl, fun he => absurd he herr, fun hbusy => absurd hbusy (by simp [hidle]),
      fun _ => ⟨rfl, rfl⟩⟩

/-! ### What leaves the configuration as it is (R120, R124, R146) -/

/-- Every configuration register and palette entry of `t` reads as it does in `s`. -/
def SameConfig (s t : State) : Prop :=
  ∀ r : Reg, Reg.isConfig r = true → t.readReg r = s.readReg r

theorem SameConfig.refl (s : State) : SameConfig s s :=
  fun _ _ => rfl

theorem SameConfig.trans {s t u : State} (h : SameConfig s t) (k : SameConfig t u) : SameConfig s u :=
  fun r hr => (k r hr).trans (h r hr)

/-- No other field of the state is part of the configuration. -/
theorem SameConfig.of_eq {s t : State} (h : t = { s with
      params := t.params, seq := t.seq, frameRem := t.frameRem, bytesIn := t.bytesIn
      eoiFlag := t.eoiFlag, oldValid := t.oldValid, irqPend := t.irqPend, root := t.root
      width := t.width, ctUsed := t.ctUsed, oldCode := t.oldCode, pendVal := t.pendVal
      pendCnt := t.pendCnt, dict := t.dict, rowmap := t.rowmap, cursor := t.cursor
      errCode := t.errCode, errInfo := t.errInfo, irqEn := t.irqEn, canvas := t.canvas
      rdData := t.rdData, env := t.env }) : SameConfig s t := by
  intro r hr
  rw [h]
  cases r with
  | id | ctrl | cmd | status | errcode | errinfo | cursor | bytesIn | lzwState | lzwPend | lzwOld
  | frame => cases hr
  | _ => rfl

theorem CodeOnly.sameConfig {s t : State} (h : CodeOnly s t) : SameConfig s t := by
  rw [h.frame]
  exact SameConfig.of_eq rfl

theorem exec_decodeCmd_sameConfig {cmd : BitVec 4} {s t : State}
    (h : exec (decodeCmd cmd) s = .next t) : SameConfig s t := by
  rcases exec_decodeCmd_eq_next h with rfl | ⟨-, code, info, rfl⟩ | ⟨-, rfl⟩ | ⟨-, -, ⟨-, rfl⟩ | rfl⟩ <;>
    exact SameConfig.of_eq rfl

/-- While the block is busy a register write changes no configuration (R120). -/
theorem execHostWr_sameConfig {off : Nat} {d : Word} {s t : State} (hoff : off ≠ 2)
    (hbusy : s.inReady = true) (h : execHostWr off d s = .next t) : SameConfig s t := by
  rcases execHostWr_cases hoff d s with he | he | he | ⟨r, he⟩ <;> rw [he] at h <;>
    obtain rfl := Host.Outcome.next.inj h
  · exact .refl s
  · exact .of_eq rfl
  · unfold State.writeStatus
    split <;> exact .of_eq rfl
  · rw [State.writeConfig, if_pos hbusy]
    exact .refl s

/-- While the block is busy no instruction that an event carries changes the configuration. -/
theorem exec_event_sameConfig {i : Instr} {s t : State} {e : PortEvent} (hwf : i.wellFormed = true)
    (henc : encode i = .event e) (hbusy : s.inReady = true) (h : exec i s = .next t) :
    SameConfig s t := by
  cases i with
  | cmdNop => exact exec_decodeCmd_sameConfig (cmd := 0) h
  | cmdStartImage => exact exec_decodeCmd_sameConfig (cmd := 1) h
  | cmdStartSkip => exact exec_decodeCmd_sameConfig (cmd := 2) h
  | cmdReset => exact exec_decodeCmd_sameConfig (cmd := 3) h
  | cmdReserved cmd =>
    rw [← decodeCmd_of_four_le (of_decide_eq_true hwf)] at h
    exact exec_decodeCmd_sameConfig h
  | hostRd off =>
    obtain rfl := Host.Outcome.next.inj h
    exact .of_eq rfl
  | hostWr off d => exact execHostWr_sameConfig (of_decide_eq_true hwf) hbusy h
  | sbTerm | sbLen n | sbSkipTerm | sbSkipLen n =>
    obtain ⟨-, h⟩ := guarded_eq_next.mp h
    obtain rfl := Host.Outcome.next.inj h
    exact .of_eq rfl
  | sbData b =>
    have hcount : SameConfig s s.countPayload := .of_eq rfl
    exact hcount.trans (execSbData_eq_next h).sameConfig
  | sbSkipData b =>
    obtain ⟨-, h⟩ := guarded_eq_next.mp h
    split at h <;> obtain rfl := Host.Outcome.next.inj h <;> exact .of_eq rfl
  | inFail =>
    simp only [exec, execInFail, if_pos hbusy] at h
    obtain rfl := Host.Outcome.next.inj h
    exact .of_eq rfl
  | lzwEoi c | lzwClear c | lzwFirst c | lzwBadFirst c | lzwKnown c | lzwPending c | lzwBeyond c => cases henc

/-- Settles O20: the step runs what the event decodes to, and taking the event changes no register. -/
theorem configFrozenWhileBusy : Obligations.ConfigFrozenWhileBusy := by
  unfold Obligations.ConfigFrozenWhileBusy
  intro s s' t p hbusy htake hstep
  obtain ⟨rest, -, rfl⟩ := State.takeEvent_eq_some htake
  obtain ⟨i, hdec⟩ := State.takeEvent_decodes htake
  obtain ⟨hwf, -, -, henc⟩ := encodeOfDecode _ _ _ hdec
  rw [step_of_takeEvent htake hdec] at hstep
  have htaken : SameConfig s { s with env := rest } := .of_eq rfl
  exact htaken.trans (exec_event_sameConfig (s := { s with env := rest }) hwf henc hbusy hstep)

/-- Settles O29: the soft reset writes no field of the configuration, and the status registers read the fields
it clears. -/
theorem softResetRule : Obligations.SoftResetRule := by
  unfold Obligations.SoftResetRule
  refine fun s => ⟨s.softReset, rfl, rfl, Bool.and_false _, ?_, ?_⟩
  · simp [State.readReg, State.statusWord, State.inReady, Seq.reading, Seq.bits, ErrCode.bits]
  · rintro r (hr | rfl)
    · exact SameConfig.of_eq (t := s.softReset) rfl r hr
    · rfl

/-! ### Where a register write goes (R120) -/

@[simp] theorem exec_hostWr_index (r : Reg) (d : Word) (s : State) :
    exec (.hostWr r.index d) s = s.writeReg r d := by
  simp only [exec, execHostWr, Reg.ofIndex_index]

theorem State.writeReg_of_isConfig {r : Reg} (h : Reg.isConfig r = true) (s : State) (d : Word) :
    s.writeReg r d = .next (s.writeConfig r d) := by
  unfold State.writeReg
  split
  · cases h
  · cases h
  · cases h
  · exact if_pos h

/-- The registers a host cannot write (R120). -/
theorem State.writeReg_of_readOnly {r : Reg} (h : Reg.isConfig r = false)
    (hport : r ≠ .ctrl ∧ r ≠ .cmd ∧ r ≠ .status) (s : State) (d : Word) : s.writeReg r d = .next s := by
  obtain ⟨hctrl, hcmd, hstatus⟩ := hport
  unfold State.writeReg
  split
  · exact absurd rfl hctrl
  · exact absurd rfl hcmd
  · exact absurd rfl hstatus
  · exact if_neg (by simp [h])

theorem State.writeConfig_of_inReady {s : State} (h : s.inReady = true) (r : Reg) (d : Word) :
    s.writeConfig r d = s :=
  if_pos h

theorem State.writeConfig_of_not_inReady {s : State} (h : s.inReady = false) (r : Reg) (d : Word) :
    s.writeConfig r d = s.storeReg d r :=
  if_neg (by simp [h])

/-- A write to STATUS writes `irq_pend` alone (R35). -/
theorem State.writeStatus_eq (s : State) (d : Word) :
    s.writeStatus d = { s with irqPend := s.irqPend && !d.getLsbD 4 } := by
  unfold State.writeStatus
  cases d.getLsbD 4 <;> simp

/-- Settles O36: CTRL, STATUS and CMD have rules of their own; a configuration write while busy, a read-only
register and a reserved offset each leave the state as it is. -/
theorem hostWriteElsewhere : Obligations.HostWriteElsewhere := by
  unfold Obligations.HostWriteElsewhere
  intro s d
  refine ⟨rfl, ?_, ?_, fun r hbusy hr => ?_, fun r hr => ?_, fun off hres => ?_⟩
  · rw [exec_hostWr_index, ← State.writeStatus_eq]
    rfl
  · rw [exec_hostWr_index, exec_decodeCmd]
    rfl
  · rw [exec_hostWr_index, State.writeReg_of_isConfig hr, State.writeConfig_of_inReady hbusy]
  · obtain ⟨hconfig, hport⟩ : Reg.isConfig r = false ∧ r ≠ .ctrl ∧ r ≠ .cmd ∧ r ≠ .status := by
      revert r
      decide
    rw [exec_hostWr_index, State.writeReg_of_readOnly hconfig hport]
  · simp only [exec, execHostWr, Reg.ofIndex_eq_none hres]

/-! ### What a configuration write stores (R38 to R43, R50) -/

/-- The low field of a word, widened again, is the word restricted to its bits. -/
theorem setWidth_field_zero (d : Word) {n : Nat} (h : n ≤ 32) :
    (field d 0 n).setWidth 32 = d &&& BitVec.ofNat 32 (2 ^ n - 1) := by
  have hpow : 2 ^ n ≤ 2 ^ 32 := Nat.pow_le_pow_right (by decide) h
  have hpos : 0 < 2 ^ n := Nat.two_pow_pos n
  have hmask : (BitVec.ofNat 32 (2 ^ n - 1)).toNat = 2 ^ n - 1 := Nat.mod_eq_of_lt (by omega)
  apply BitVec.eq_of_toNat_eq
  rw [BitVec.toNat_setWidth_of_le h, field, BitVec.extractLsb'_toNat, Nat.shiftRight_zero,
    BitVec.toNat_and, hmask, Nat.and_two_pow_sub_one_eq_mod]

/-- A palette entry holds the whole word. -/
theorem Rgba.toWord_ofWord (d : Word) : Rgba.toWord (Rgba.ofWord d) = d := by
  apply BitVec.eq_of_toNat_eq
  rw [Rgba.toWord_toNat]
  simp only [Rgba.ofWord, field, BitVec.extractLsb'_toNat, Nat.shiftRight_eq_div_pow]
  omega

/-- A store writes the field of its own register, and nothing where the register has none. -/
theorem State.storeReg_eq (s : State) (d : Word) (r : Reg) :
    s.storeReg d r = { s with
      rootCodeSize := if r = .rootCodeSize then field d 0 8 else s.rootCodeSize
      imgLeft := if r = .imgLeft then field d 0 16 else s.imgLeft
      imgTop := if r = .imgTop then field d 0 16 else s.imgTop
      imgWidth := if r = .imgWidth then field d 0 16 else s.imgWidth
      imgHeight := if r = .imgHeight then field d 0 16 else s.imgHeight
      interlace := if r = .imgCfg then d.getLsbD 0 else s.interlace
      screenWidth := if r = .screenWidth then field d 0 16 else s.screenWidth
      screenHeight := if r = .screenHeight then field d 0 16 else s.screenHeight
      canvasBase := if r = .canvasBase then d else s.canvasBase
      fmtRgba := if r = .canvasCfg then d.getLsbD 0 else s.fmtRgba
      palSizeLog2m1 := if r = .palCfg then field d 0 3 else s.palSizeLog2m1
      pal := (s.storeReg d r).pal } := by
  cases r <;> rfl

/-- A palette entry changes only by a store to its own register. -/
theorem State.palEntry_storeReg_of_ne (s : State) (d : Word) {r : Reg} {i : BitVec 8} (h : Reg.pal i ≠ r) :
    (s.storeReg d r).palEntry i = s.palEntry i := by
  cases r with
  | pal j =>
    have hij : j.toNat ≠ i.toNat := fun he => h (congrArg Reg.pal (BitVec.eq_of_toNat_eq he.symm))
    exact Vector.getElem_set_ne j.isLt i.isLt hij
  | _ => rfl

theorem State.readReg_storeReg_of_ne (s : State) (d : Word) {r r' : Reg} (h : r' ≠ r) :
    (s.storeReg d r).readReg r' = s.readReg r' := by
  cases r' with
  | pal i => exact congrArg Rgba.toWord (s.palEntry_storeReg_of_ne d h)
  | id | ctrl | cmd | status | errcode | errinfo | cursor | bytesIn | lzwState | lzwPend | lzwOld
  | frame =>
    rw [State.storeReg_eq]
    rfl
  | _ =>
    rw [State.storeReg_eq]
    simp only [State.readReg, if_neg h.symm]

theorem State.readReg_storeReg_same (s : State) (d : Word) {r : Reg} (h : Reg.isConfig r = true) :
    (s.storeReg d r).readReg r = d &&& Reg.storedBits r := by
  cases r with
  | id | ctrl | cmd | status | errcode | errinfo | cursor | bytesIn | lzwState | lzwPend | lzwOld
  | frame => cases h
  | imgCfg | canvasCfg => exact BitVec.and_one_eq_setWidth_ofBool_getLsbD.symm
  | canvasBase => exact BitVec.and_allOnes.symm
  | pal i =>
    calc Rgba.toWord ((s.storeReg d (.pal i)).palEntry i)
      _ = d := (congrArg Rgba.toWord (Vector.getElem_set_self _)).trans (Rgba.toWord_ofWord d)
      _ = _ := BitVec.and_allOnes.symm
  | _ => exact setWidth_field_zero d (by decide)

/-- Settles O35: the write goes to `storeReg`, whose own register reads the stored bits and every other one as
before. -/
theorem hostWriteStores : Obligations.HostWriteStores := by
  unfold Obligations.HostWriteStores
  intro s r d hidle hr
  refine ⟨s.storeReg d r, ?_, s.readReg_storeReg_same d hr, fun r' hne => s.readReg_storeReg_of_ne d hne, ?_⟩
  · rw [exec_hostWr_index, State.writeReg_of_isConfig hr, State.writeConfig_of_not_inReady hidle]
  · rw [State.storeReg_eq]
    exact ⟨rfl, rfl, rfl, rfl, rfl, rfl, rfl⟩

end Sys2Proof.Machine

/-! # Exceptions: the interrupt, the error state and precise errors

The statements of the family 60_exceptions: O17 to O19, O24, O51. -/

namespace Sys2Proof.Machine

/-! ### The error entry (R130) -/

/-- Bits that follow an error are discarded (R90). -/
theorem acceptBits_of_error {s : State} (h : s.seq = .error) (bs : List Bool) :
    acceptBits bs s = .next s := by
  cases bs with
  | nil => rfl
  | cons b bs => exact if_pos (.inr h)

/-- Settles O24: ERROR is no reading state, and no bit is accepted in it. -/
theorem errorEntryWrites : Obligations.ErrorEntryWrites := by
  unfold Obligations.ErrorEntryWrites
  exact fun s code info bs => ⟨rfl, rfl, rfl, acceptBits_of_error (s.raiseError_seq code info) bs⟩

/-! ### What the bits of a payload byte do to the status (R90, R98, R131) -/

/-- The sequencing state, `irq_pend` and the error of `t` are those of `s`. -/
structure SameStatus (s t : State) : Prop where
  seq : t.seq = s.seq
  irqPend : t.irqPend = s.irqPend
  errCode : t.errCode = s.errCode
  errInfo : t.errInfo = s.errInfo

theorem SameStatus.refl (s : State) : SameStatus s s :=
  ⟨rfl, rfl, rfl, rfl⟩

theorem SameStatus.trans {s t u : State} (h : SameStatus s t) (k : SameStatus t u) : SameStatus s u :=
  ⟨k.seq.trans h.seq, k.irqPend.trans h.irqPend, k.errCode.trans h.errCode, k.errInfo.trans h.errInfo⟩

theorem State.emit_sameStatus {s t : State} {e : Code} (h : s.emit e = .next t) : SameStatus s t := by
  obtain ⟨d, u, -, hpaint, rfl⟩ := State.emit_eq_next h
  rw [hpaint.frame]
  exact ⟨rfl, rfl, rfl, rfl⟩

theorem State.insertFirstcharOf_sameStatus {s t : State} {p c : Code}
    (h : s.insertFirstcharOf p c = .next t) : SameStatus s t := by
  obtain ⟨dc, -, h⟩ := State.insertFirstcharOf_eq_next h
  rcases State.insert_eq_next h with ⟨-, rfl⟩ | ⟨-, d, -, rfl⟩
  · exact .refl _
  · rw [State.growCheck_eq]
    exact ⟨rfl, rfl, rfl, rfl⟩

/-- `t` is `s` with the DECODE error entered that the code raises there (R102, R105). -/
def DecodeError (c : Code) (s t : State) : Prop :=
  (s.classOf c = .badFirst ∧ t = s.raiseError .decode (decodeInfo 1 c)) ∨
  (s.classOf c = .beyond ∧ t = s.raiseError .decode (decodeInfo 2 c))

/-- The error entry with the code's own information. -/
theorem DecodeError.eq_raiseError {c : Code} {s t : State} (h : DecodeError c s t) :
    t = s.raiseError .decode t.errInfo := by
  rcases h with ⟨-, rfl⟩ | ⟨-, rfl⟩ <;> rfl

/-- A code keeps the status or raises its DECODE error, whatever the state. -/
theorem processCode_status {c : Code} {s t : State} (h : processCode c s = .next t) :
    SameStatus s t ∨ DecodeError c s t := by
  unfold processCode at h
  split at h <;> rename_i hclass <;> obtain ⟨-, h⟩ := guarded_eq_next.mp h
  case h_1 | h_2 =>
    obtain rfl := Host.Outcome.next.inj h
    exact .inl ⟨rfl, rfl, rfl, rfl⟩
  case h_3 =>
    obtain ⟨u, hemit, h⟩ := andThen_eq_next.mp h
    obtain rfl := Host.Outcome.next.inj h
    exact .inl ((State.emit_sameStatus hemit).trans ⟨rfl, rfl, rfl, rfl⟩)
  case h_4 => exact .inr (.inl ⟨hclass, (Host.Outcome.next.inj h).symm⟩)
  case h_5 =>
    obtain ⟨u, hemit, h⟩ := andThen_eq_next.mp h
    obtain ⟨v, hinsert, h⟩ := andThen_eq_next.mp h
    obtain rfl := Host.Outcome.next.inj h
    exact .inl (((State.emit_sameStatus hemit).trans (State.insertFirstcharOf_sameStatus hinsert)).trans
      ⟨rfl, rfl, rfl, rfl⟩)
  case h_6 =>
    obtain ⟨u, hinsert, h⟩ := andThen_eq_next.mp h
    obtain ⟨v, hemit, h⟩ := andThen_eq_next.mp h
    obtain rfl := Host.Outcome.next.inj h
    exact .inl (((State.insertFirstcharOf_sameStatus hinsert).trans (State.emit_sameStatus hemit)).trans
      ⟨rfl, rfl, rfl, rfl⟩)
  case h_7 => exact .inr (.inr ⟨hclass, (Host.Outcome.next.inj h).symm⟩)

/-- The accumulator's bits with one more above them (R90). -/
def State.pushBit (s : State) (b : Bool) : Code :=
  s.pendVal + ((BitVec.ofBool b).setWidth 12 <<< s.pendCnt.toNat)

/-- A bit keeps the status, or is the last of a code that raises its DECODE error. -/
theorem State.acceptBit_status {s t : State} {b : Bool} (h : s.acceptBit b = .next t) :
    SameStatus s t ∨
      (s.pendCnt + 1 = s.width ∧ DecodeError (s.pushBit b) { s with pendVal := 0, pendCnt := 0 } t) := by
  unfold State.acceptBit at h
  dsimp only at h
  split at h
  · rename_i hfull
    rcases processCode_status h with hsame | herr
    · exact .inl ⟨hsame.seq, hsame.irqPend, hsame.errCode, hsame.errInfo⟩
    · exact .inr ⟨hfull, herr⟩
  · obtain rfl := Host.Outcome.next.inj h
    exact .inl ⟨rfl, rfl, rfl, rfl⟩

/-- The bits `bs` accepted in `s` end in the DECODE error `t` at bit `n`: the bits before it leave `u`, and bit `n`
is the last of the failing code (R131). -/
structure ErrorAtBit (bs : List Bool) (s t : State) (n : Nat) (u : State) : Prop where
  lt_length : n < bs.length
  before : acceptBits (bs.take n) s = .next u
  same : SameStatus s u
  eoiFlag : u.eoiFlag = false
  full : u.pendCnt + 1 = u.width
  raised : DecodeError (u.pushBit bs[n]) { u with pendVal := 0, pendCnt := 0 } t

/-- An error at a bit is one later after a bit that is accepted. -/
theorem ErrorAtBit.cons {b : Bool} {bs : List Bool} {s v t u : State} {n : Nat}
    (h : ErrorAtBit bs v t n u) (hstop : ¬ (s.eoiFlag = true ∨ s.seq = .error))
    (hbit : s.acceptBit b = .next v) (hsame : SameStatus s v) :
    ErrorAtBit (b :: bs) s t (n + 1) u where
  lt_length := Nat.succ_lt_succ h.lt_length
  before := by rw [List.take_succ_cons, acceptBits, if_neg hstop, hbit, andThen_next, h.before]
  same := hsame.trans h.same
  eoiFlag := h.eoiFlag
  full := h.full
  raised := h.raised

theorem ErrorAtBit.seq_eq_error {bs : List Bool} {s t u : State} {n : Nat} (h : ErrorAtBit bs s t n u) :
    t.seq = .error := by
  rw [h.raised.eq_raiseError, State.raiseError_seq]

theorem ErrorAtBit.irqPend_eq_true {bs : List Bool} {s t u : State} {n : Nat}
    (h : ErrorAtBit bs s t n u) : t.irqPend = true := by
  rw [h.raised.eq_raiseError, State.raiseError_irqPend]

/-- The bits of a stream keep the status, or one of them ends a code in error and the bits after it are
discarded. -/
theorem acceptBits_status {bs : List Bool} {s t : State} (h : acceptBits bs s = .next t) :
    SameStatus s t ∨ ∃ n u, ErrorAtBit bs s t n u := by
  induction bs generalizing s with
  | nil =>
    obtain rfl := Host.Outcome.next.inj h
    exact .inl (.refl _)
  | cons b bs ih =>
    rw [acceptBits] at h
    split at h
    · obtain rfl := Host.Outcome.next.inj h
      exact .inl (.refl _)
    rename_i hstop
    obtain ⟨v, hbit, h⟩ := andThen_eq_next.mp h
    rcases State.acceptBit_status hbit with hsame | ⟨hfull, herr⟩
    · exact (ih h).imp hsame.trans fun ⟨n, u, hat⟩ => ⟨n + 1, u, hat.cons hstop hbit hsame⟩
    · have hv : v.seq = .error := by rw [herr.eq_raiseError, State.raiseError_seq]
      obtain rfl := Host.Outcome.next.inj ((acceptBits_of_error hv bs).symm.trans h)
      have heoi : s.eoiFlag = false := Bool.eq_false_iff.mpr fun he => hstop (.inl he)
      exact .inr ⟨0, s, Nat.succ_pos _, rfl, .refl s, heoi, hfull, herr⟩

/-! ### Precise errors (R131) -/

theorem bitsOf_length (b : Byte) : (bitsOf b).length = 8 := rfl

theorem bitsOf_getElem (b : Byte) {n : Nat} (h : n < (bitsOf b).length) :
    (bitsOf b)[n] = b.getLsbD n := by
  simp [bitsOf]

/-- In an image in progress no bit is lost, so a full accumulator holds the sum of its bits (R25, R90). -/
theorem State.StreamInv.pushBit_toNat {s : State} (h : s.StreamInv) (b : Bool) :
    (s.pushBit b).toNat = s.pendVal.toNat + b.toNat * 2 ^ s.pendCnt.toNat ∧
      (s.pendCnt + 1).toNat = s.pendCnt.toNat + 1 :=
  pend_push b h.pend_cnt (h.width_law ▸ widthLaw_le _) h.pend_val

/-- The laws of an image hold after bits that raise no error (R131). -/
theorem State.StreamInv.of_acceptBits {s u : State} {bs : List Bool} (h : s.StreamInv)
    (hs : s.seq = .data) (hu : Machine.acceptBits bs s = .next u) (hne : u.seq ≠ .error) :
    u.StreamInv := by
  obtain ⟨v, hv, hgood | herr⟩ := h.acceptBits hs bs <;>
    obtain rfl := Host.Outcome.next.inj (hv.symm.trans hu)
  · exact hgood.inv
  · exact absurd herr.seq hne

/-- The failing code's class is the one it has before its accumulator is cleared, and names the sub-cause. -/
theorem DecodeError.class_and_info {c : Code} {s t : State}
    (h : DecodeError c { s with pendVal := 0, pendCnt := 0 } t) :
    (s.classOf c = .badFirst ∧ t.errInfo = BitVec.ofNat 32 (1 * 2 ^ 16 + c.toNat)) ∨
      (s.classOf c = .beyond ∧ t.errInfo = BitVec.ofNat 32 (2 * 2 ^ 16 + c.toNat)) := by
  rcases h with ⟨hclass, rfl⟩ | ⟨hclass, rfl⟩
  · exact .inl ⟨hclass, decodeInfo_eq_ofNat 1 c⟩
  · exact .inr ⟨hclass, decodeInfo_eq_ofNat 2 c⟩

/-- The end-of-sub-block test enters no error. -/
theorem State.endOfSubBlock_seq_ne_error {s : State} (h : s.seq ≠ .error) :
    s.endOfSubBlock.seq ≠ .error := by
  rcases s.endOfSubBlock_cases with ⟨-, he⟩ | ⟨-, he⟩ | ⟨-, -, he⟩ <;> rw [he]
  · exact h
  · nofun
  · nofun

/-- SB.DATA that ends in ERROR ends there at one bit of its byte. -/
theorem execSbData_error {s t : State} {b : Byte} (hs : s.seq = .data)
    (h : execSbData b s = .next t) (ht : t.seq = .error) :
    ∃ n u, ErrorAtBit (bitsOf b) s.countPayload t n u := by
  rw [execSbData_of_data hs] at h
  obtain ⟨v, hbits, h⟩ := andThen_eq_next.mp h
  have htv := Host.Outcome.next.inj h
  rcases acceptBits_status hbits with hsame | ⟨n, u, hat⟩
  · have hv : v.seq ≠ .error := by simp [hsame.seq, hs]
    rw [if_neg hv] at htv
    exact absurd (htv ▸ ht) (State.endOfSubBlock_seq_ne_error hv)
  · rw [if_pos hat.seq_eq_error] at htv
    exact ⟨n, u, htv ▸ hat⟩

/-- Settles O51: the byte's bits end at one bit (`execSbData_error`), and the image's laws hold where the bits
before it ended, so the failing code is the number its bits stand for. -/
theorem decodeErrorsArePrecise : Obligations.DecodeErrorsArePrecise := by
  unfold Obligations.DecodeErrorsArePrecise
  intro s t b h hs hexec ht
  obtain ⟨n, u, hat⟩ := execSbData_error hs hexec ht
  have hstream : s.countPayload.StreamInv := (h.stream (.inr hs)).move (by simp [hs])
  have hseq : u.seq = .data := hat.same.seq.trans hs
  have hinv : u.StreamInv := hstream.of_acceptBits hs hat.before (by simp [hseq])
  obtain ⟨hcode, hcount⟩ := hinv.pushBit_toNat (b.getLsbD n)
  have herr := hat.raised
  rw [bitsOf_getElem] at herr
  refine ⟨n, u, hat.lt_length, hat.before, hseq, hat.eoiFlag, by rw [← hcount, hat.full], ?_⟩
  dsimp only
  rw [← hcode, BitVec.ofNat_toNat, BitVec.setWidth_eq]
  exact ⟨(u.pushBit _).isLt, herr.class_and_info, herr.eq_raiseError⟩

/-! ### What an instruction does to the status (R133, R135) -/

/-- What an instruction does to the status, from `s` to `t`: nothing; or, outside ERROR, it sets `irq_pend` or
moves to a state that is neither DONE nor ERROR; or it is CMD RESET or a write to STATUS. -/
inductive StatusEffect (s t : State) : Instr → Prop where
  | same {i : Instr} (h : SameStatus s t) : StatusEffect s t i
  | setIrq {i : Instr} (hs : s.seq ≠ .error) (ht : t.irqPend = true) : StatusEffect s t i
  | move {i : Instr} (hs : s.seq ≠ .error) (hirq : t.irqPend = s.irqPend) (hdone : t.seq ≠ .done)
      (herr : t.seq ≠ .error) : StatusEffect s t i
  | reset (ht : t = s.softReset) : StatusEffect s t .cmdReset
  | writeStatus (d : Word) (ht : t = s.writeStatus d) : StatusEffect s t (.hostWr 3 d)

theorem exec_decodeCmd_status {cmd : BitVec 4} {s t : State} (h : exec (decodeCmd cmd) s = .next t) :
    StatusEffect s t (decodeCmd cmd) := by
  rcases exec_decodeCmd_eq_next h with rfl | ⟨herr, code, info, rfl⟩ | ⟨rfl, rfl⟩ |
    ⟨herr, -, ⟨-, rfl⟩ | rfl⟩
  · exact .same (.refl _)
  · exact .setIrq herr rfl
  · exact .reset rfl
  · exact .move herr rfl nofun nofun
  · exact .move herr rfl nofun nofun

theorem State.writeConfig_sameStatus (s : State) (r : Reg) (d : Word) :
    SameStatus s (s.writeConfig r d) := by
  unfold State.writeConfig
  split
  · exact .refl s
  · rw [State.storeReg_eq]
    exact ⟨rfl, rfl, rfl, rfl⟩

theorem execHostWr_status {off : Nat} {d : Word} {s t : State} (hoff : off ≠ 2)
    (h : execHostWr off d s = .next t) : StatusEffect s t (.hostWr off d) := by
  unfold execHostWr at h
  split at h
  · rename_i r hr
    obtain rfl := Reg.index_of_ofIndex hr
    unfold State.writeReg at h
    split at h
    · obtain rfl := Host.Outcome.next.inj h
      exact .same ⟨rfl, rfl, rfl, rfl⟩
    · exact absurd rfl hoff
    · exact .writeStatus d (Host.Outcome.next.inj h).symm
    · split at h <;> obtain rfl := Host.Outcome.next.inj h
      · exact .same (s.writeConfig_sameStatus _ d)
      · exact .same (.refl s)
  · obtain rfl := Host.Outcome.next.inj h
    exact .same (.refl s)

/-- What a payload byte does to the status: an error and the end of the image set `irq_pend`, the end of another
sub-block moves to LEN (R85, R130). -/
theorem execSbData_status {b : Byte} {s t : State} (h : execSbData b s = .next t) :
    StatusEffect s t (.sbData b) := by
  have hs : s.seq = .data := (guarded_eq_next.mp h).1
  have hne : s.seq ≠ .error := by simp [hs]
  rw [execSbData_of_data hs] at h
  obtain ⟨u, hbits, h⟩ := andThen_eq_next.mp h
  obtain rfl := Host.Outcome.next.inj h
  rcases acceptBits_status hbits with hsame | ⟨n, v, hat⟩
  · have hu : u.seq ≠ .error := by simp [hsame.seq, hs]
    rw [if_neg hu]
    rcases u.endOfSubBlock_cases with ⟨-, he⟩ | ⟨-, he⟩ | ⟨-, -, he⟩ <;> rw [he]
    · exact .same ⟨hsame.seq, hsame.irqPend, hsame.errCode, hsame.errInfo⟩
    · exact .setIrq hne rfl
    · exact .move hne hsame.irqPend nofun nofun
  · rw [if_pos hat.seq_eq_error]
    exact .setIrq hne hat.irqPend_eq_true

/-- What an instruction that an event carries does to the status. -/
theorem exec_event_status {i : Instr} {s t : State} {e : PortEvent} (hwf : i.wellFormed = true)
    (henc : encode i = .event e) (h : exec i s = .next t) : StatusEffect s t i := by
  cases i with
  | cmdNop => exact exec_decodeCmd_status (cmd := 0) h
  | cmdStartImage => exact exec_decodeCmd_status (cmd := 1) h
  | cmdStartSkip => exact exec_decodeCmd_status (cmd := 2) h
  | cmdReset => exact exec_decodeCmd_status (cmd := 3) h
  | cmdReserved cmd =>
    rw [← decodeCmd_of_four_le (of_decide_eq_true hwf)] at h ⊢
    exact exec_decodeCmd_status h
  | hostRd off =>
    obtain rfl := Host.Outcome.next.inj h
    exact .same ⟨rfl, rfl, rfl, rfl⟩
  | hostWr off d => exact execHostWr_status (of_decide_eq_true hwf) h
  | sbTerm | sbSkipTerm =>
    obtain ⟨hs, h⟩ := guarded_eq_next.mp h
    obtain rfl := Host.Outcome.next.inj h
    exact .setIrq (by simp [hs]) rfl
  | sbLen n | sbSkipLen n =>
    obtain ⟨⟨hs, -⟩, h⟩ := guarded_eq_next.mp h
    obtain rfl := Host.Outcome.next.inj h
    exact .move (by simp [hs]) rfl nofun nofun
  | sbData b => exact execSbData_status h
  | sbSkipData b =>
    obtain ⟨hs, h⟩ := guarded_eq_next.mp h
    split at h <;> obtain rfl := Host.Outcome.next.inj h
    · exact .move (by simp [hs]) rfl nofun nofun
    · exact .same ⟨rfl, rfl, rfl, rfl⟩
  | inFail =>
    simp only [exec, execInFail] at h
    split at h <;> obtain rfl := Host.Outcome.next.inj h
    · exact .setIrq (State.seq_ne_error_of_inReady ‹_›) rfl
    · exact .same (.refl _)
  | lzwEoi c | lzwClear c | lzwFirst c | lzwBadFirst c | lzwKnown c | lzwPending c | lzwBeyond c => cases henc

/-- Everything a step can do to the status: keep it, take the reset input, or run what an event decodes to. -/
theorem step_status {s t : State} (h : step s = .next t) :
    SameStatus s t ∨ (∃ s', s.takeEvent = some (.reset, s') ∧ t = s'.hardwareReset) ∨
    ∃ p rest i, s.takeEvent = some (.port p, { s with env := rest }) ∧
      decode s.ctx (.event p) = .ok i ∧ StatusEffect { s with env := rest } t i := by
  rcases step_eq_next h with ⟨-, rfl⟩ | hreset | ⟨p, s', i, htake, hdec, hexec⟩
  · exact .inl (.refl _)
  · exact .inr (.inl hreset)
  · obtain ⟨rest, -, rfl⟩ := State.takeEvent_eq_some htake
    obtain ⟨hwf, -, -, henc⟩ := encodeOfDecode _ _ _ hdec
    exact .inr (.inr ⟨p, rest, i, htake, hdec, exec_event_status hwf henc hexec⟩)

/-- An event that brings a HOST.WR is a write to its register with its data (R71). -/
theorem event_of_decode_hostWr {x : DecodeCtx} {p : PortEvent} {off : Nat} {d : Word}
    (hdec : decode x (.event p) = .ok (.hostWr off d)) :
    ∃ o, p = .write o d ∧ regIndexOf x.windowBytes o = off := by
  cases p with
  | write o d' =>
    have hi := Except.ok.inj hdec
    split at hi
    · rcases decodeCmd_cases (cmdField d') with ⟨-, hc⟩ | ⟨-, hc⟩ | ⟨-, hc⟩ | ⟨-, hc⟩ | ⟨-, hc⟩ <;>
        rw [hc] at hi <;> cases hi
    · obtain ⟨hidx, rfl⟩ := Instr.hostWr.inj hi
      exact ⟨o, rfl, hidx⟩
  | byte b => cases (decodeByte_roundTrip hdec).2.2
  | read o | fail => cases hdec

/-- Settles O17: of the effects of a step (`step_status`) only the two resets and the write to STATUS can lower
`irq_pend`, the write only with bit 4 set. -/
theorem irqPendClearedOnlyBy : Obligations.IrqPendClearedOnlyBy := by
  unfold Obligations.IrqPendClearedOnlyBy
  intro s t h hs ht
  rcases step_status h with hsame | ⟨s', htake, -⟩ | ⟨p, rest, i, htake, hdec, heffect⟩
  · simp [hsame.irqPend, hs] at ht
  · exact ⟨.reset, s', htake, .inl rfl⟩
  refine ⟨.port p, _, htake, .inr ?_⟩
  cases heffect with
  | same hsame => simp [hsame.irqPend, hs] at ht
  | setIrq _ hset => simp [hset] at ht
  | move _ hirq => simp [hirq, hs] at ht
  | reset _ =>
    obtain ⟨o, d, rfl, hidx, hcmd⟩ := event_of_decode_cmd (cmd := 3) hdec rfl
    exact ⟨o, d, rfl, .inr ⟨hidx, hcmd⟩⟩
  | writeStatus d heq =>
    obtain ⟨o, rfl, hidx⟩ := event_of_decode_hostWr hdec
    have hbit : d.getLsbD 4 = true := by simpa [heq, hs] using ht
    exact ⟨o, d, rfl, .inl ⟨hidx, hbit⟩⟩

/-- A step that enters DONE or ERROR sets `irq_pend` (R135). -/
theorem step_irqPend_of_enters {s t : State} (h : step s = .next t) (hmoved : t.seq ≠ s.seq)
    (hseq : t.seq = .done ∨ t.seq = .error) : t.irqPend = true := by
  rcases step_status h with hsame | ⟨s', -, rfl⟩ | ⟨p, rest, i, -, -, heffect⟩
  · exact absurd hsame.seq hmoved
  · rcases hseq with hseq | hseq <;> cases hseq
  cases heffect with
  | same hsame => exact absurd hsame.seq hmoved
  | setIrq _ hset => exact hset
  | move _ _ hdone herr => exact (hseq.elim hdone herr).elim
  | reset heq => rcases hseq with hseq | hseq <;> rw [heq] at hseq <;> cases hseq
  | writeStatus d heq => exact absurd (by rw [heq, State.writeStatus_seq]) hmoved

/-- Settles O18: the entries by `step_irqPend_of_enters`, the end of a skipped chain by its token. -/
theorem eventsSetIrqPend : Obligations.EventsSetIrqPend := by
  unfold Obligations.EventsSetIrqPend
  refine ⟨fun s t => step_irqPend_of_enters, fun s rest hs henv => ?_, fun s => Bool.and_eq_true_iff⟩
  have hdec : decode s.ctx (.event (.byte 0)) = .ok .sbSkipTerm := State.decode_byte_of_skipLen hs 0
  have hstep := stepRunsDecodedInstruction s _ rest _ henv hdec
  exact ⟨_, hstep.trans (if_pos hs), rfl, rfl⟩

/-- Settles O19: from ERROR an instruction keeps the status, is CMD RESET, or writes `irq_pend` alone. -/
theorem errorLeftOnlyByReset : Obligations.ErrorLeftOnlyByReset := by
  unfold Obligations.ErrorLeftOnlyByReset
  intro s t hs h
  rcases step_status h with hsame | ⟨s', htake, rfl⟩ | ⟨p, rest, i, htake, hdec, heffect⟩
  · exact .inl ⟨hsame.seq.trans hs, hsame.errCode, hsame.errInfo⟩
  · exact .inr ⟨rfl, rfl, rfl, .reset, s', htake, .inl rfl⟩
  cases heffect with
  | same hsame => exact .inl ⟨hsame.seq.trans hs, hsame.errCode, hsame.errInfo⟩
  | setIrq hne | move hne => exact absurd hs hne
  | reset heq =>
    obtain ⟨o, d, rfl, hidx, hcmd⟩ := event_of_decode_cmd (cmd := 3) hdec rfl
    rw [heq]
    exact .inr ⟨rfl, rfl, rfl, _, _, htake, .inr ⟨o, d, rfl, hidx, hcmd⟩⟩
  | writeStatus d heq =>
    rw [heq, State.writeStatus_eq]
    exact .inl ⟨hs, rfl, rfl⟩

end Sys2Proof.Machine

/-! # Hardware reset

The statement of the family 70_reset_and_hazards: O9. -/

namespace Sys2Proof.Machine

/-- The reset input that comes next is taken in every state, a reading one or not (R142). -/
theorem State.takeEvent_reset {s : State} {rest : List HostEvent} (henv : s.env = .reset :: rest) :
    s.takeEvent = some (.reset, { s with env := rest }) := by
  simp only [State.takeEvent, henv, pickEvent, Option.map_some]

/-- The step on the reset input is the hardware reset. -/
theorem step_of_takeEvent_reset {s s' : State} (htake : s.takeEvent = some (.reset, s')) :
    step s = .next s'.hardwareReset := by
  simp only [step, htake, perform]

/-- After hardware reset the interrupt is neither enabled nor pending (R53, R135). -/
theorem State.hardwareReset_irq (s : State) : s.hardwareReset.irq = false :=
  rfl

/-- IDLE, the state after hardware reset, is no reading state (R55). -/
theorem State.hardwareReset_inReady (s : State) : s.hardwareReset.inReady = false :=
  rfl

/-- Settles O9: the reset input is taken, and what is left of the state goes to its reset values. -/
theorem hardwareResetStep : Obligations.HardwareResetStep := by
  unfold Obligations.HardwareResetStep
  intro s rest henv
  have hstep : step s = .next ({ s with env := rest } : State).hardwareReset :=
    step_of_takeEvent_reset (State.takeEvent_reset henv)
  exact ⟨_, hstep, rfl, State.hardwareReset_seq _, State.hardwareReset_irq _,
    State.hardwareReset_inReady _⟩

end Sys2Proof.Machine
